-- ==== Sys2Proof/Word.lean ====
section
/-! DEFINITION. The value types of spec/00_scope.md rule R7: bits, bytes, 32-bit unsigned numbers, 16-bit signed
samples. Lengths, indices and every integer a command computes with are plain `Nat` or `Int` (rule R47: nothing
wraps), so no other word type exists. -/

namespace Sys2Proof

/-- `Bit` of rule R7: a value in {0, 1}; `true` is 1. -/
abbrev Bit := Bool

/-- `Byte` of rule R7: 8 bits, also the width of a command word (R56) and of a status word (R60). -/
abbrev Byte := BitVec 8

/-- `U32` of rule R7: a 32-bit unsigned register; its number is `toNat`. -/
abbrev U32 := BitVec 32

/-- `I16` of rule R7: a signed 16-bit sample, two's complement (R54); its number is `toInt`. -/
abbrev I16 := BitVec 16

end Sys2Proof
end

