-- ==== Sys2Proof/Config.lean ====
section
/-! DEFINITION. The parameters of the hardware: what an implementation fixes (`Params`, the open parameters of
spec/00_scope.md R6), the configuration registers (`Cfg`, spec/10_state.md R14 to R17), the reset parameter
(`ResetParam`, R22 and R170), and the moves the outside world has (`HostAction`, spec/20_memory.md R38 to R42).
The two free values (`Config.oneUnitLower`, `Config.tieBit`) are what an inexact arithmetic leaves open (R101,
spec/93_implementation_defined.md U3 and U4); the reference reading of every formula is exact (R9) and uses neither. -/

namespace Sys2Proof

/-- `NUM` (R6, R9, decision D15): the arithmetic of the real-valued steps. -/
inductive Numerics where
  /-- Exact real arithmetic, the reference reading. -/
  | exact
  /-- An arithmetic with small errors: a sample whose exact value before truncation is an integer may come out one unit
  lower in magnitude, and an exactly zero correlation of a segment that is not silent may take either sign. -/
  | inexact
deriving DecidableEq, Repr

/-- The open parameters of one implementation (R6, R46, decisions D2, D10, D15). `none` is an unbounded capacity.
They are fixed for one machine; no rule ever changes them. -/
structure Params where
  /-- `NCAR_MAX`: the largest `CFG_NCAR` the carrier table can hold. -/
  ncarMax : Nat
  /-- `CAP_BYTES`. -/
  capBytes : Option Nat
  /-- `CAP_BITS`, the capacity of `BITS` and of `REM`. -/
  capBits : Option Nat
  /-- `CAP_SAMPLES`. -/
  capSamples : Option Nat
  /-- `NUM`. -/
  num : Numerics
deriving DecidableEq, Repr

/-- The parameters `State.reset` is built with: unbounded buffers (R46: "the source's own functions are the
unbounded case"), a carrier table of up to 256 entries, and the reference reading of the arithmetic (R9).
DESIGN CHOICE, notes/assumptions/2.md; unsafe: the spec leaves all five open. -/
def Params.default : Params :=
  { ncarMax := 256, capBytes := none, capBits := none, capSamples := none, num := .exact }

/-- FREE VALUE (notes/assumptions/3.md): whether an inexact arithmetic writes sample `j` of `modulate(T, R, S, C)` one unit lower
in magnitude, at the samples where R101 and U3 allow it. -/
opaque Config.oneUnitLower (T : List Bit) (R S : Nat) (C : List Nat) (j : Nat) : Bool

/-- FREE VALUE (notes/assumptions/3.md): the bit an inexact arithmetic decides for symbol `i` of `demodulate(s, Ra, S, C)` when
the exact correlation is zero and the segment is not silent (U4). -/
opaque Config.tieBit (s : List I16) (Ra S : Nat) (C : List Nat) (i : Nat) : Bit

/-- The configuration registers (R14 to R17), written by reset and by nothing else (R19). -/
structure Cfg where
  /-- `CFG_SRATE` (R14), hertz. -/
  srate : U32
  /-- `CFG_SYMRATE` (R15), baud. -/
  symrate : U32
  /-- `CFG_NCAR` (R16), the length of the carrier table. -/
  ncar : Nat
  /-- `CFG_CAR[0 .. CFG_NCAR-1]` (R17), hertz, in order. -/
  car : List U32
deriving DecidableEq, Repr

/-- The reference constants (R4, R22): 19000 Hz, 50 baud, carriers 1000 to 6000 Hz. -/
def Cfg.reference : Cfg :=
  { srate := 19000#32, symrate := 50#32, ncar := 6,
    car := [1000#32, 2000#32, 3000#32, 4000#32, 5000#32, 6000#32] }

/-- The parameter `cfg` of a reset (R170): each component may be supplied or not (R22). `car` holds entry `j` of
`cfg.car` at position `j`; a missing or `none` entry is "not supplied". -/
structure ResetParam where
  srate : Option U32
  symrate : Option U32
  ncar : Option Nat
  car : List (Option U32)
deriving DecidableEq, Repr

/-- What the host can do to the block (R38 to R42, R49, R170); each action is finished before the next begins. -/
inductive HostAction where
  /-- `WR_BYTES(v)` (R38). -/
  | wrBytes (v : List Byte)
  /-- `WR_BITS(v)` (R39). -/
  | wrBits (v : List Bit)
  /-- `WR_SAMPLES(rate, v)` (R40). -/
  | wrSamples (rate : U32) (v : List I16)
  /-- `RD_BYTES()` (R41). -/
  | rdBytes
  /-- `RD_BITS()` (R41). -/
  | rdBits
  /-- `RD_REM()` (R41). -/
  | rdRem
  /-- `RD_SAMPLES()` (R41). -/
  | rdSamples
  /-- `RD_HLEN()` (R41). -/
  | rdHlen
  /-- `RD_CFG()` (R41). -/
  | rdCfg
  /-- `ISSUE(c)` (R42), `c` an 8-bit command word (R56). -/
  | issue (c : Byte)
  /-- The one reset (R170). -/
  | reset (p : ResetParam)
deriving DecidableEq, Repr

end Sys2Proof
end

