-- ==== Sys2Proof/Syntax.lean ====
section
/-! DEFINITION. The command set of spec/30_encoding.md rule R57: eight commands, none with an operand field
(R56: "There is no register field, no immediate, no mode bit, no prefix and no second word"). -/

namespace Sys2Proof

/-- One constructor per row of spec/opcode_table.json. -/
inductive Instr where
  /-- `BYTES2BITS`, word `0x01` (R71). -/
  | bytes2bits
  /-- `BITS2BYTES`, word `0x02` (R73). -/
  | bits2bytes
  /-- `BUILDFRAME`, word `0x03` (R82). -/
  | buildframe
  /-- `PARSEFRAME`, word `0x04` (R84). -/
  | parseframe
  /-- `MODULATE`, word `0x05` (R99). -/
  | modulate
  /-- `DEMODULATE`, word `0x06` (R118). -/
  | demodulate
  /-- `ENCODE`, word `0x07` (R131). -/
  | encode
  /-- `DECODE`, word `0x08` (R133). -/
  | decode
deriving DecidableEq, Repr

end Sys2Proof
end

