-- ==== Sys2Proof/WellFormed.lean ====
section
/-! DEFINITION. The checks a term must pass before the rules of the spec apply to it: a command, the open
parameters, a configuration (spec/10_state.md R18), a host action (spec/20_memory.md R38 to R42). Each is a `Bool`. -/

namespace Sys2Proof

/-- Every command is well formed: it has no operand (R56, R57). -/
def Instr.wf : Instr → Bool
  | .bytes2bits | .bits2bytes | .buildframe | .parseframe
  | .modulate | .demodulate | .encode | .decode => true

/-- `n` elements fit a buffer of the given capacity (R46); `none` is unbounded. -/
def fits (n : Nat) : Option Nat → Bool
  | none => true
  | some cap => n ≤ cap

/-- The open parameters are those of some implementation: `NCAR_MAX >= 6` (R6). -/
def Params.wf (p : Params) : Bool := 6 ≤ p.ncarMax

/-- Legal configuration (R18): `CFG_SYMRATE >= 1`, `CFG_SRATE >= CFG_SYMRATE`, `1 <= CFG_NCAR <= NCAR_MAX`, and
the carrier table has `CFG_NCAR` entries (R16, R17). -/
def Cfg.legal (c : Cfg) (p : Params) : Bool :=
  1 ≤ c.symrate.toNat && c.symrate.toNat ≤ c.srate.toNat &&
    1 ≤ c.ncar && c.ncar ≤ p.ncarMax && c.car.length == c.ncar

/-- A reset parameter is one of R170: `cfg.ncar` (6 when not supplied) is a table length this block can hold, and
no carrier beyond the table is supplied. That the resulting configuration is legal is `Cfg.legal`. -/
def ResetParam.wf (r : ResetParam) (p : Params) : Bool :=
  r.ncar.getD 6 ≤ p.ncarMax && r.car.length ≤ r.ncar.getD 6

/-- The host has this move: a written sequence is no longer than its buffer's capacity (R38 to R40, R42). A command
word may be any byte (R58 gives the illegal ones their effect). -/
def HostAction.wf (p : Params) : HostAction → Bool
  | .wrBytes v => fits v.length p.capBytes
  | .wrBits v => fits v.length p.capBits
  | .wrSamples _ v => fits v.length p.capSamples
  | .reset r => r.wf p
  | .rdBytes | .rdBits | .rdRem | .rdSamples | .rdHlen | .rdCfg | .issue _ => true

end Sys2Proof
end

