-- ==== Sys2Proof/Decode.lean ====
section
/-! DEFINITION. Decoding a command word (spec/30_encoding.md R56 to R59) and encoding a command (R57). The decoder is
total on bytes and rejects by name; the encoder is written from the same table of R57. -/

namespace Sys2Proof

/-- Why a byte sequence holds no command at its front. -/
inductive DecodeError where
  /-- No byte is there at all. -/
  | noWord
  /-- `RSV`, bits 7:4, is not `0000` (R56, R58). -/
  | reservedNonzero
  /-- `RSV` is zero and `OP`, bits 3:0, is `0x0` or `0x9 .. 0xF` (R58). -/
  | unassignedOp
deriving DecidableEq, Repr

/-- Field `RSV`, bits 7:4 (R56). -/
def rsvField (w : Byte) : BitVec 4 := w.extractLsb' 4 4

/-- Field `OP`, bits 3:0 (R56). -/
def opField (w : Byte) : BitVec 4 := w.extractLsb' 0 4

/-- The command of an `OP` code (R57), given that `RSV` is zero. -/
def ofOp (op : BitVec 4) : Option Instr :=
  if op = 0x1#4 then some .bytes2bits
  else if op = 0x2#4 then some .bits2bytes
  else if op = 0x3#4 then some .buildframe
  else if op = 0x4#4 then some .parseframe
  else if op = 0x5#4 then some .modulate
  else if op = 0x6#4 then some .demodulate
  else if op = 0x7#4 then some .encode
  else if op = 0x8#4 then some .decode
  else none

/-- Decode one command word (R56 to R58). -/
def decode (w : Byte) : Except DecodeError Instr :=
  if rsvField w ≠ 0#4 then .error .reservedNonzero
  else match ofOp (opField w) with
    | some i => .ok i
    | none => .error .unassignedOp

/-- Decode the command at the front of a byte sequence; a command is always one word (R59). -/
def decodeBytes : List Byte → Except DecodeError (Instr × List Byte)
  | [] => .error .noWord
  | w :: rest =>
    match decode w with
    | .ok i => .ok (i, rest)
    | .error e => .error e

/-- Encode a command: its 8-bit word of R57. -/
def encode : Instr → Byte
  | .bytes2bits => 0x01#8
  | .bits2bytes => 0x02#8
  | .buildframe => 0x03#8
  | .parseframe => 0x04#8
  | .modulate => 0x05#8
  | .demodulate => 0x06#8
  | .encode => 0x07#8
  | .decode => 0x08#8

/-- The first word of an instruction numbered as spec/opcode_table.json numbers it: `nbits` bits of `w`, bit 0 the least
significant of the first word, the bits above `nbits` zero. A command is one 8-bit word (R56). -/
def tableWord (nbits w : Nat) : Byte := BitVec.ofNat 8 (w % 2 ^ nbits)

/-- The instruction the decoder reads from a table word; `none` where it refuses. -/
def decodeTableWord (nbits w : Nat) : Option Instr :=
  match decodeBytes [tableWord nbits w] with
  | .ok (i, _) => some i
  | .error _ => none

end Sys2Proof
end

