-- ==== Sys2Proof/Machine/State.lean ====
section
/-! DEFINITION. The state of the block (spec/10_state.md R10 to R22), what a run shows (spec/20_memory.md R49), the reasons
a step can stop, and reset (spec/70_reset_and_hazards.md R170). -/

namespace Sys2Proof.Machine

/-- One item of what a run shows (R49): the status word an `ISSUE` returned (R42, R60) or the value a port read
returned (R41). -/
inductive Obs where
  | status (w : Byte)
  | bytes (v : List Byte)
  | bits (v : List Bit)
  | rem (v : List Bit)
  | samples (rate : U32) (v : List I16)
  | hlen (v : U32)
  | cfg (v : Cfg)
deriving DecidableEq, Repr

/-- The state. The first eight fields below `par` are the architectural state of R10, whole; `par`, `host` and
`shown` are the model's own fields (notes/assumptions/1.md and 2.md). A buffer is the list of its elements, so its length is
part of its value (R11) and equal buffers are equal data. -/
structure State where
  /-- MODEL'S OWN. The open parameters of the implementation; constant. -/
  par : Params
  /-- `CFG_SRATE`, `CFG_SYMRATE`, `CFG_NCAR`, `CFG_CAR[]` (R14 to R17). -/
  cfg : Cfg
  /-- `BYTES` (R11). -/
  bytes : List Byte
  /-- `BITS` (R11). -/
  bits : List Bit
  /-- `REM` (R11). -/
  rem : List Bit
  /-- `SAMPLES` (R11). -/
  samples : List I16
  /-- `ARATE` (R12). -/
  arate : U32
  /-- `HLEN` (R12). -/
  hlen : U32
  /-- MODEL'S OWN. The host actions still to come, in issue order (R13, R37, R49); the block has no program counter
  and no instruction memory (R13, R44), so this list is where the next command word comes from. -/
  host : List HostAction
  /-- MODEL'S OWN. What the run has shown so far, oldest first (R49). No rule reads it: a status word is a result
  value and is not stored in the block (R20). -/
  shown : List Obs
deriving DecidableEq, Repr

/-- Faults. There is none: every error of the spec is a status word returned by a command that has changed nothing
(spec/60_exceptions.md R146), so an error is a next state, and the block has no state in which it stops (R49, R147). -/
inductive Fault
deriving DecidableEq, Repr

/-- Refusals: what the model does not go on from. -/
inductive Refusal where
  /-- Raised by no arm of this model: every command has its meaning. Safe. -/
  | notModelled (mnemonic : String)
  /-- The configuration is not legal (R18: "a model refuses to build it"). Raised by a reset whose parameter gives an
  illegal configuration, and by MODULATE, DEMODULATE, ENCODE and DECODE in a state whose configuration registers are
  illegal, which no reset leaves. Safe: the spec gives such a block no behaviour. -/
  | illegalConfiguration
  /-- A host write longer than the buffer's capacity (R42: "not a move the host has"). Raised by the write ports.
  Safe: the spec gives the move no behaviour. -/
  | notAHostMove
deriving DecidableEq, Repr

/-- The state right after a reset that latched the configuration `c` (R22, R170): the four buffers empty,
`ARATE = CFG_SRATE`, `HLEN = 0`. -/
def State.resetWith (p : Params) (c : Cfg) : State :=
  { par := p, cfg := c, bytes := [], bits := [], rem := [], samples := [], arate := c.srate, hlen := 0#32,
    host := [], shown := [] }

/-- The machine right after reset with no configuration supplied: the reference constants (R22), the host having
done nothing yet. -/
def State.reset : State := State.resetWith Params.default Cfg.reference

end Sys2Proof.Machine
end

