-- ==== Sys2Proof/Machine/Flags.lean ====
section
/-! DEFINITION. The block has no stored flag (spec/10_state.md R20). What takes the place of flags is the status word a command
returns (spec/30_encoding.md R60): the error code of spec/60_exceptions.md R141 and the warning bit `W` of R143. -/

namespace Sys2Proof.Machine

/-- The error kinds of R141, codes 1 to 9. -/
inductive Err where
  | truncatedHeader
  | unalignedPayload
  | invalidLength
  /-- Host-side kind: reserved, never returned by the block (R151). -/
  | unreadableAudio
  /-- Host-side kind: reserved, never returned by the block (R151). -/
  | unreadableFile
  | lengthOverflow
  | degenerateRate
  | capacity
  | illegalCommand
deriving DecidableEq, Repr

/-- The `ERR` code of an error kind (R141). -/
def Err.code : Err → BitVec 4
  | .truncatedHeader => 1#4
  | .unalignedPayload => 2#4
  | .invalidLength => 3#4
  | .unreadableAudio => 4#4
  | .unreadableFile => 5#4
  | .lengthOverflow => 6#4
  | .degenerateRate => 7#4
  | .capacity => 8#4
  | .illegalCommand => 9#4

/-- The `ERR` field: 0 for success (R60, R141). -/
def errField : Option Err → BitVec 4
  | none => 0#4
  | some e => e.code

/-- The status word `STAT8` (R60): bits 7:5 zero, bit 4 `W`, bits 3:0 `ERR`. -/
def statusWord (w : Bool) (e : Option Err) : Byte := 0#3 ++ BitVec.ofBool w ++ errField e

/-- The condition of `SampleRateMismatchWarning`: `ARATE != CFG_SRATE`, exactly (R111, R143). -/
def rateMismatch (s : State) : Bool := s.arate != s.cfg.srate

end Sys2Proof.Machine
end

