-- ==== Sys2Proof/Machine/Operands.lean ====
section
/-! DEFINITION. The operand formats and index computations of the commands: bits of a byte (spec/30_encoding.md R50), the
header (R52), the clipping slice (spec/00_scope.md R8), the frame (R51, spec/41_framebuilder.md R80 to R87), samples per
symbol (spec/42_modulator.md R90) and the cutting of a sample buffer into symbols (spec/20_memory.md R35). -/

namespace Sys2Proof.Machine

/-- The eight bits of a byte, most significant first (R50): position `p` holds bit `7 - p`. -/
def byteBits (b : Byte) : List Bit := (List.range 8).map fun p => b.getLsbD (7 - p)

/-- The number a bit sequence stands for, most significant bit first (`sum bit * 2^q`, R47). -/
def bitsValue (h : List Bit) : Nat := h.foldl (fun acc b => 2 * acc + b.toNat) 0

/-- `bytesToBits` (spec/40_bitpacker.md R70). -/
def bytesToBits (B : List Byte) : List Bit := B.flatMap byteBits

/-- Consecutive groups of eight bits, each reassembled MSB-first into one byte (R72); bits after the last whole group
are not looked at, the length test being `bitsToBytes`'s. -/
def bytesOfGroups : List Bit → List Byte
  | b0 :: b1 :: b2 :: b3 :: b4 :: b5 :: b6 :: b7 :: rest =>
    BitVec.ofNat 8 (bitsValue [b0, b1, b2, b3, b4, b5, b6, b7]) :: bytesOfGroups rest
  | _ => []

/-- `bitsToBytes` (R72), with the length re-validated (decision D12). -/
def bitsToBytes (T : List Bit) : Except Err (List Byte) :=
  if T.length % 8 ≠ 0 then .error .invalidLength else .ok (bytesOfGroups T)

/-- `hdr(L)` (R52, R80): 32 bits, position `p` holds bit `31 - p` of `L`. -/
def hdr (L : Nat) : List Bit := (List.range 32).map fun p => L.testBit (31 - p)

/-- The clipping slice `s[a:b]` (R8). -/
def slice {α : Type} (s : List α) (a b : Nat) : List α := (s.take b).drop a

/-- `buildFrame` (R81). -/
def buildFrame (P : List Bit) : List Bit := hdr P.length ++ P

/-- What `parseFrame` returns (R83): the payload slice, the bits after it (R87), the declared length. -/
structure Parsed where
  payload : List Bit
  remaining : List Bit
  declared : U32
deriving DecidableEq, Repr

/-- `parseFrame` (R83, R85, R87). `32 + L` is a natural number, never wrapped (R35). -/
def parseFrame (F : List Bit) : Except Err Parsed :=
  if F.length < 32 then .error .truncatedHeader
  else
    let L := bitsValue (slice F 0 32)
    .ok { payload := slice F 32 (32 + L), remaining := slice F (32 + L) F.length, declared := BitVec.ofNat 32 L }

/-- Samples per symbol, `N = floor(R / S)` (R90, R110). -/
def samplesPerSymbol (R S : Nat) : Nat := R / S

/-- The first `m` segments of `n` consecutive samples, cut from index 0 (R34, R113); trailing samples are discarded
(R112). -/
def segments {α : Type} (n : Nat) : (m : Nat) → List α → List (List α)
  | 0, _ => []
  | m + 1, s => s.take n :: segments n m (s.drop n)

/-- The carrier frequencies `CFG_CAR[0 .. CFG_NCAR-1]` (R17) as numbers. -/
def carriers (c : Cfg) : List Nat := (c.car.take c.ncar).map (·.toNat)

end Sys2Proof.Machine
end

