-- ==== Sys2Proof/Machine/Ops.lean ====
section
/-! DEFINITION. The operations every command shares: how it reports success and how it raises an error
(spec/20_memory.md R37, spec/60_exceptions.md R146, R147), the legality guard (spec/10_state.md R18), and the reset of
spec/70_reset_and_hazards.md R170. -/

namespace Sys2Proof.Machine

/-- Show one item (R49). -/
def State.emit (s : State) (o : Obs) : State := { s with shown := s.shown ++ [o] }

/-- The form of the block's memory, its four buffers (R30, R46): none is longer than its capacity. -/
def Memory.wf (s : State) : Bool :=
  fits s.bytes.length s.par.capBytes && fits s.bits.length s.par.capBits && fits s.rem.length s.par.capBits &&
    fits s.samples.length s.par.capSamples

/-- RAISING AN ERROR (R146): no register or buffer changes, destinations included; the status word with the error code and
`W` is returned; the block is ready for the next command. Nothing is saved, no mode changes, there is no handler and no
return from it (R147): the next command simply runs. -/
def raise (e : Err) (w : Bool) (s : State) : Host.Outcome State Fault Refusal :=
  .next (s.emit (.status (statusWord w (some e))))

/-- A command that succeeded: its results are written and the status word with `ERR = 0` is returned (R37 (a)). -/
def succeed (w : Bool) (t : State) : Host.Outcome State Fault Refusal :=
  .next (t.emit (.status (statusWord w none)))

/-- A command is atomic (R37): it either returns its whole new state, all destinations written, or an error and nothing
written. -/
def report (w : Bool) (s : State) : Except Err State → Host.Outcome State Fault Refusal
  | .ok t => succeed w t
  | .error e => raise e w s

/-- Every rule assumes a legal configuration (R18). The commands whose formulas divide by the symbol rate or reduce
modulo the table length go on only from one; notes/assumptions/5.md. -/
def requireLegal (s : State) (r : Host.Outcome State Fault Refusal) : Host.Outcome State Fault Refusal :=
  if s.cfg.legal s.par then r else .refused .illegalConfiguration

/-- `cfg.car[j]` of a reset parameter: the supplied value, else `1000 * (j + 1)` for `j = 0 .. 5` (R22). For a later
entry the spec gives no default. -/
def resetCarrier (r : ResetParam) (j : Nat) : Option U32 :=
  match r.car[j]? with
  | some (some f) => some f
  | _ => if j < 6 then some (BitVec.ofNat 32 (1000 * (j + 1))) else none

/-- The first `n` carriers a reset parameter gives, from entry `j` on. -/
def resetCarriers (r : ResetParam) : (n j : Nat) → Option (List U32)
  | 0, _ => some []
  | n + 1, j =>
    match resetCarrier r j, resetCarriers r n (j + 1) with
    | some f, some fs => some (f :: fs)
    | _, _ => none

/-- The configuration a reset parameter gives, each component defaulting to the reference constant (R22); `none` when
the parameter is not one of R170, a carrier has no value, or the result is not legal (R18). -/
def resetCfg (p : Params) (r : ResetParam) : Option Cfg :=
  if r.wf p then
    match resetCarriers r (r.ncar.getD 6) 0 with
    | some car =>
      let c : Cfg := { srate := r.srate.getD 19000#32, symrate := r.symrate.getD 50#32,
                       ncar := r.ncar.getD 6, car := car }
      if c.legal p then some c else none
    | none => none
  else none

/-- The reset event (R170): every piece of block state at its reset value. What the host still means to do and what the
run has shown are the environment's, not the block's, and stay. -/
def applyReset (s : State) (c : Cfg) : State :=
  { State.resetWith s.par c with host := s.host, shown := s.shown }

end Sys2Proof.Machine
end

