-- ==== Sys2Proof/Machine/BitPacker.lean ====
section
/-! DEFINITION. The bit-packer (spec/40_bitpacker.md): BYTES2BITS and BITS2BYTES. -/

namespace Sys2Proof.Machine

/-- The result of the bit-unpacking of `B`, or the capacity error (R71). -/
def unpackPhase (p : Params) (B : List Byte) : Except Err (List Bit) :=
  if fits (8 * B.length) p.capBits then .ok (bytesToBits B) else .error .capacity

/-- The result of the byte reassembly of `T`: the length test first, then the capacity (R73). -/
def packPhase (p : Params) (T : List Bit) : Except Err (List Byte) :=
  match bitsToBytes T with
  | .error e => .error e
  | .ok B => if fits (T.length / 8) p.capBytes then .ok B else .error .capacity

/-- `BYTES2BITS` (R71): `BITS <- bytesToBits(BYTES)`. -/
def execBytes2Bits (s : State) : Host.Outcome State Fault Refusal :=
  report false s <|
    match unpackPhase s.par s.bytes with
    | .error e => .error e
    | .ok T => .ok { s with bits := T }

/-- `BITS2BYTES` (R73): `BYTES <- bitsToBytes(BITS)`. -/
def execBits2Bytes (s : State) : Host.Outcome State Fault Refusal :=
  report false s <|
    match packPhase s.par s.bits with
    | .error e => .error e
    | .ok B => .ok { s with bytes := B }

end Sys2Proof.Machine
end

