-- ==== Sys2Proof/Machine/Sine.lean ====
section
/-! DEFINITION. Exact decisions about the real-valued steps (spec/00_scope.md R9: "The rules of this spec are stated over exact
reals"). A sine is needed only at rational multiples of a turn, and only for two questions: the integer
`trunc(32767 * |sin a| / |sin b|)` (spec/42_modulator.md R95, R96) and the sign of an integer combination of sines
(spec/43_demodulator.md R115, R116). Both are answered exactly: an enclosure in integers scaled by `2^q` decides almost
always; where it does not, vanishing is decided by a test on roots of unity and the precision `q` is doubled until the
sign is decided. Sys2Proof/Laws/ proves each answer equal to the one over `Real.sin`. -/

namespace Sys2Proof.Machine

/-- An enclosure of a nonnegative real `x` at precision `q`: `lo <= x * 2^q <= hi`. -/
structure Enc where
  lo : Nat
  hi : Nat
deriving DecidableEq, Repr

/-- Division rounding up. -/
def cdiv (a b : Nat) : Nat := (a + b - 1) / b

/-- Fold the angle of `j/D` of a turn, `j < D`, to `[0, π/2]`: `sin(2πj/D)` is `sin(πu/D)`, negated when the flag says so,
with `2u <= D`. -/
def foldAngle (D j : Nat) : Bool × Nat :=
  let neg := D ≤ 2 * j
  let u := if neg then 2 * j - D else 2 * j
  (neg, if D < 2 * u then D - u else u)

/-- The tail `A_k = 1/(2k+1) - A_{k+1}/m²` of the series of `m * arctan(1/m)`, `n` steps deep. -/
def atanTail (q m : Nat) : (n k : Nat) → Enc
  | 0, k => { lo := 0, hi := cdiv (2 ^ q) (2 * k + 1) }
  | n + 1, k =>
    let t := atanTail q m n (k + 1)
    { lo := 2 ^ q / (2 * k + 1) - cdiv t.hi (m * m), hi := cdiv (2 ^ q) (2 * k + 1) - t.lo / (m * m) }

/-- `π = 16 arctan(1/5) - 4 arctan(1/239)` at precision `q`. -/
def piMachin (q : Nat) : Enc :=
  let a := atanTail q 5 (q / 4 + 3) 0
  let b := atanTail q 239 (q / 4 + 3) 0
  { lo := 16 * (a.lo / 5) - 4 * cdiv b.hi 239, hi := 16 * cdiv a.hi 5 - 4 * (b.lo / 239) }

/-- The precision the enclosures start from. -/
def firstPrecision : Nat := 64

/-- `π` at the first precision, as a literal. -/
def piFirst : Enc := { lo := 57952155664616982739, hi := 57952155664616982740 }

/-- The tail `T_k = 1 - x²/(2k(2k+1)) * T_{k+1}` of the series of `sin x / x`, `n` steps deep, `x2` enclosing `x²`. -/
def sinTail (q : Nat) (x2 : Enc) : (n k : Nat) → Enc
  | 0, _ => { lo := 0, hi := 2 ^ q }
  | n + 1, k =>
    let t := sinTail q x2 n (k + 1)
    let d := 2 ^ q * (2 * k * (2 * k + 1))
    { lo := 2 ^ q - cdiv (x2.hi * t.hi) d, hi := 2 ^ q - x2.lo * t.lo / d }

/-- `sin(πu/D)` at precision `q` for `2u <= D`, given `π`. -/
def sinEnc (q : Nat) (pi : Enc) (D u : Nat) : Enc :=
  let x : Enc := { lo := pi.lo * u / D, hi := cdiv (pi.hi * u) D }
  let x2 : Enc := { lo := x.lo * x.lo / 2 ^ q, hi := cdiv (x.hi * x.hi) (2 ^ q) }
  let t := sinTail q x2 (q / 4 + 3) 1
  { lo := x.lo * t.lo / 2 ^ q, hi := cdiv (x.hi * t.hi) (2 ^ q) }

/-- A sine to weigh: its sign and the enclosure of its magnitude. -/
abbrev SignedEnc := Bool × Enc

/-- `sin(2πj/D)` at precision `q`, `j` taken modulo `D`. -/
def sineAt (q : Nat) (pi : Enc) (D j : Nat) : SignedEnc :=
  let a := foldAngle D (j % D)
  (a.1, sinEnc q pi D a.2)

/-- Bounds of the weighted sum `Σ c * sine`, scaled by `2^q`. -/
def weigh : List Int → List SignedEnc → Int × Int
  | c :: cs, (neg, e) :: es =>
    let d := if neg then -c else c
    let r := weigh cs es
    if 0 ≤ d then (r.1 + d * e.lo, r.2 + d * e.hi) else (r.1 + d * e.hi, r.2 + d * e.lo)
  | _, _ => (0, 0)

/-- What bounds of a sum say of its sign: `some true` when it is `>= 0`, `some false` when it is `< 0`. -/
def signOf (b : Int × Int) : Option Bool :=
  if 0 ≤ b.1 then some true else if b.2 < 0 then some false else none

/-- The coefficients of `ζ^0 .. ζ^(n-1)` in `Σ c (ζ^j - ζ^(-j))`, `ζ` a primitive `n`-th root of unity: `2i` times the
weighted sum of sines. -/
def rootCoeffs (n : Nat) (cs : List Int) (js : List Nat) : List Int :=
  (List.range n).map fun m =>
    ((cs.zip js).map fun t =>
      (if t.2 % n = m then t.1 else 0) - (if (n - t.2 % n) % n = m then t.1 else 0)).sum

/-- Multiply by `ζ^d - 1`, coefficients taken modulo `ζ^n = 1`. -/
def rootDiff (d : Nat) (l : List Int) : List Int :=
  List.zipWith (· - ·) (l.drop (l.length - d) ++ l.take (l.length - d)) l

/-- Whether the weighted sum of `sin(2πj/n)` is exactly zero: multiplied by `ζ^d - 1` for every proper divisor `d` of `n`, its
coefficients modulo `ζ^n = 1` must all vanish. -/
def sineSumZeroAt (n : Nat) (cs : List Int) (js : List Nat) : Bool :=
  (((List.range n).filter fun d => 0 < d ∧ n % d = 0).foldl (fun l d => rootDiff d l) (rootCoeffs n cs js)).all (· == 0)

/-- The same with the common factor of `D` and the angles divided out first. -/
def sineSumZero (D : Nat) (cs : List Int) (js : List Nat) : Bool :=
  let g := js.foldl Nat.gcd D
  sineSumZeroAt (D / g) cs (js.map (· / g))

/-- Try precision `q`, `2q`, `4q`, … until the sign is decided; zero counts as `>= 0` (R116). -/
def refineSign (D : Nat) (cs : List Int) (js : List Nat) : (fuel q : Nat) → Bool
  | 0, _ => true
  | fuel + 1, q =>
    match signOf (weigh cs (js.map (sineAt q (piMachin q) D))) with
    | some b => b
    | none => refineSign D cs js fuel (2 * q)

/-- How often the precision may be doubled. For `D < 2^32` the sign is always decided before
(Sys2Proof/Laws/SineSign.lean). -/
def refineFuel : Nat := 40

/-- `Σ c * sin(2πj/D) >= 0`, decided exactly, with no use of a precomputed enclosure. -/
def sineSumNonneg (D : Nat) (cs : List Int) (js : List Nat) : Bool :=
  sineSumZero D cs js || refineSign D cs js refineFuel firstPrecision

/-- The largest `m` with `lo <= m <= lo + 2^n - 1` that the downward closed test `ok` accepts, `lo` itself taken as
accepted. -/
def bisect (ok : Nat → Bool) : (n lo : Nat) → Nat
  | 0, lo => lo
  | n + 1, lo => if ok (lo + 2 ^ n) then bisect ok n (lo + 2 ^ n) else bisect ok n lo

/-- `m * sin(πp/D) <= 32767 * sin(πu/D)`, decided exactly (angles as fractions of `2D`). -/
def atMost (D p u m : Nat) : Bool := sineSumNonneg (2 * D) [32767, -(m : Int)] [u, p]

/-- `trunc(32767 * sin(πu/D) / sin(πp/D))` for `0 <= u <= p`, `0 < p`, `2p <= D` (R95, R96), exactly. The quotient of
two enclosures gives it unless a bound falls on the wrong side of an integer; then it is searched for. -/
def scaledRatio (D p u : Nat) : Nat :=
  if u = p then 32767
  else
    let a := sinEnc firstPrecision piFirst D u
    let b := sinEnc firstPrecision piFirst D p
    let g := 32767 * a.lo / b.hi
    if 32767 * a.hi < (g + 1) * b.lo then g else bisect (atMost D p u) 15 0

end Sys2Proof.Machine
end

