-- ==== Sys2Proof/Machine/Demodulator.lean ====
section
/-! DEFINITION. The demodulator (spec/43_demodulator.md): the function `demodulate` and the command DEMODULATE. -/

namespace Sys2Proof.Machine

/-- The reference waveform of carrier `f` (R114) as enclosures at the first precision. -/
def refTable (D N f : Nat) : List SignedEnc :=
  (List.range N).map fun k => sineAt firstPrecision piFirst D (f * k)

/-- The decision of one segment (R115, R116): 1 when the correlation with carrier `f` is `>= 0`, exactly. -/
def decideBit (D f : Nat) (ref : List SignedEnc) (seg : List I16) : Bit :=
  let cs := seg.map (·.toInt)
  match signOf (weigh cs ref) with
  | some b => b
  | none => sineSumNonneg D cs ((List.range seg.length).map fun k => f * k % D)

/-- Segment by segment, segment `i` on carrier `i mod NC` (R113). -/
def demodulateFrom (D : Nat) (C : List Nat) (tables : List (List SignedEnc)) : List (List I16) → (i : Nat) → List Bit
  | [], _ => []
  | seg :: segs, i =>
    decideBit D (C.getD (i % C.length) 0) (tables.getD (i % C.length) []) seg :: demodulateFrom D C tables segs (i + 1)

/-- `demodulate(s, Ra, S, C)` (R117) for `floor(Ra / S) >= 1`. -/
def demodulate (s : List I16) (Ra S : Nat) (C : List Nat) : List Bit :=
  let N := samplesPerSymbol Ra S
  let D := N * S
  let M := s.length / N
  demodulateFrom D C ((C.take M).map (refTable D N)) (segments N M s) 0

/-- Whether a segment is exactly orthogonal to the reference of carrier `f` without being silent (U4). DESIGN CHOICE
(notes/assumptions/3.md), safe: this takes in a segment that is nonzero only in its first sample and any segment that is not
silent on an identically zero reference, for which R115, R121 and U16 give the bit 1 and U4 gives any value; the model follows
U4 here, in an inexact arithmetic only. -/
def tied (D f : Nat) (seg : List I16) : Bool :=
  seg.any (· != 0#16) && sineSumZero D (seg.map (·.toInt)) ((List.range seg.length).map fun k => f * k % D)

/-- `demodulate(s, Ra, S, C)` in an inexact arithmetic: an exactly zero correlation of a segment that is not silent may decide
either bit (U4); elsewhere the exact decision. -/
def demodulateInexact (s : List I16) (Ra S : Nat) (C : List Nat) : List Bit :=
  let N := samplesPerSymbol Ra S
  (demodulate s Ra S C).mapIdx fun i b =>
    if tied (N * S) (C.getD (i % C.length) 0) (slice s (i * N) (i * N + N)) then Config.tieBit s Ra S C i else b

/-- `demodulate(s, Ra, S, C)` in the arithmetic `NUM` (R9, R117, U4). -/
def demodulateNum (num : Numerics) (s : List I16) (Ra S : Nat) (C : List Nat) : List Bit :=
  match num with
  | .exact => demodulate s Ra S C
  | .inexact => demodulateInexact s Ra S C

/-- The bits of the sample buffer `v` at actual rate `Ra`: the rate test first, then the capacity (R118, R119). -/
def demodulatePhase (p : Params) (c : Cfg) (Ra : U32) (v : List I16) : Except Err (List Bit) :=
  let N := samplesPerSymbol Ra.toNat c.symrate.toNat
  if N = 0 then .error .degenerateRate
  else if fits (v.length / N) p.capBits then .ok (demodulateNum p.num v Ra.toNat c.symrate.toNat (carriers c))
  else .error .capacity

/-- `DEMODULATE` (R118): `BITS <- demodulate(SAMPLES, ARATE, …)`, with the warning of R111. -/
def execDemodulate (s : State) : Host.Outcome State Fault Refusal :=
  requireLegal s <| report (rateMismatch s) s <|
    match demodulatePhase s.par s.cfg s.arate s.samples with
    | .error e => .error e
    | .ok T => .ok { s with bits := T }

end Sys2Proof.Machine
end

