-- ==== Sys2Proof/Machine/FrameBuilder.lean ====
section
/-! DEFINITION. The frame builder and parser (spec/41_framebuilder.md): BUILDFRAME and PARSEFRAME. -/

namespace Sys2Proof.Machine

/-- The frame of the payload `P`: the length test first, then the capacity (R82). -/
def framePhase (p : Params) (P : List Bit) : Except Err (List Bit) :=
  if P.length > 2 ^ 32 - 1 then .error .lengthOverflow
  else if fits (32 + P.length) p.capBits then .ok (buildFrame P)
  else .error .capacity

/-- `BUILDFRAME` (R82): `BITS <- hdr(len(BITS)) ++ BITS`, in place. -/
def execBuildFrame (s : State) : Host.Outcome State Fault Refusal :=
  report false s <|
    match framePhase s.par s.bits with
    | .error e => .error e
    | .ok F => .ok { s with bits := F }

/-- `PARSEFRAME` (R84): `BITS`, `REM`, `HLEN` from the frame in `BITS`, in place. -/
def execParseFrame (s : State) : Host.Outcome State Fault Refusal :=
  report false s <|
    match parseFrame s.bits with
    | .error e => .error e
    | .ok f => .ok { s with bits := f.payload, rem := f.remaining, hlen := f.declared }

end Sys2Proof.Machine
end

