-- ==== Sys2Proof/Machine/Modulator.lean ====
section
/-! DEFINITION. The modulator (spec/42_modulator.md): the function `modulate` and the command MODULATE. With `D = N * S`,
sample `k` of a symbol on carrier `f` is `sin(2πfk/D)` (R91), the angle of `f*k mod D` parts in `D` of a turn; its magnitude is
`sin(πu/D)` with `2u <= D`, which grows with `u`, so the peak of R95 is the sine at the largest `u` of the signal. -/

namespace Sys2Proof.Machine

/-- Sign and folded angle of reference sample `k` of carrier `f` (R91): `ref[k] = ± sin(πu/D)`. -/
def refAngle (D f k : Nat) : Bool × Nat := foldAngle D (f * k % D)

/-- The angle of the peak over the `N` samples of every carrier in `fs` (R95); 0 when there is no sample. -/
def peakAngle (D N : Nat) (fs : List Nat) : Nat :=
  (fs.map fun f => ((List.range N).map fun k => (refAngle D f k).2).foldl max 0).foldl max 0

/-- `trunc(32767 * ref[k] / p)` (R95, R96), `p` the peak at angle `pk`; 0 throughout when the peak is zero. -/
def quantSample (D pk f k : Nat) : Int :=
  if pk = 0 then 0
  else
    let a := refAngle D f k
    let m : Int := scaledRatio D pk a.2
    if a.1 then -m else m

/-- One symbol of a 1 bit on carrier `f`: its `N` samples (R93, R96). -/
def quantSymbol (D N pk f : Nat) : List Int := (List.range N).map fun k => quantSample D pk f k

/-- Symbol by symbol in bit order (R94), symbol `i` on carrier `i mod NC` (R92); a 0 bit negates the symbol (R93), which
commutes with the peak and with truncation toward zero. -/
def modulateFrom (tables : List (List Int)) (nc : Nat) : (T : List Bit) → (i : Nat) → List I16
  | [], _ => []
  | b :: T, i =>
    ((tables.getD (i % nc) []).map fun m => BitVec.ofInt 16 (if b then m else -m)) ++
      modulateFrom tables nc T (i + 1)

/-- `modulate(T, R, S, C)` (R98). Only the first `len(T)` carriers occur in the signal when it is shorter than the
table. -/
def modulate (T : List Bit) (R S : Nat) (C : List Nat) : List I16 :=
  let N := samplesPerSymbol R S
  let D := N * S
  let used := C.take T.length
  let pk := peakAngle D N used
  modulateFrom (used.map (quantSymbol D N pk)) C.length T 0

/-- Whether the value before `trunc` of the sample at folded angle `u` is a nonzero integer (R101), exactly. -/
def wholeBeforeTrunc (D pk u : Nat) : Bool :=
  pk != 0 && scaledRatio D pk u != 0 && sineSumZero (2 * D) [32767, -(scaledRatio D pk u : Int)] [u, pk]

/-- One unit lower in magnitude. -/
def oneTowardZero (x : I16) : I16 := BitVec.ofInt 16 (x.toInt - x.toInt.sign)

/-- `modulate(T, R, S, C)` in an inexact arithmetic: at the samples R101 names, either of the two candidates of U3; elsewhere
the exact value. -/
def modulateInexact (T : List Bit) (R S : Nat) (C : List Nat) : List I16 :=
  let N := samplesPerSymbol R S
  let D := N * S
  let pk := peakAngle D N (C.take T.length)
  (modulate T R S C).mapIdx fun j x =>
    if wholeBeforeTrunc D pk (refAngle D (C.getD (j / N % C.length) 0) (j % N)).2 && Config.oneUnitLower T R S C j then
      oneTowardZero x
    else x

/-- `modulate(T, R, S, C)` in the arithmetic `NUM` (R9, R98, R101). -/
def modulateNum (num : Numerics) (T : List Bit) (R S : Nat) (C : List Nat) : List I16 :=
  match num with
  | .exact => modulate T R S C
  | .inexact => modulateInexact T R S C

/-- The samples of the bits `T` in the configuration `c`, or the capacity error (R99). -/
def modulatePhase (p : Params) (c : Cfg) (T : List Bit) : Except Err (List I16) :=
  if fits (samplesPerSymbol c.srate.toNat c.symrate.toNat * T.length) p.capSamples then
    .ok (modulateNum p.num T c.srate.toNat c.symrate.toNat (carriers c))
  else .error .capacity

/-- `MODULATE` (R99): `SAMPLES <- modulate(BITS, …)`, `ARATE <- CFG_SRATE`. -/
def execModulate (s : State) : Host.Outcome State Fault Refusal :=
  requireLegal s <| report false s <|
    match modulatePhase s.par s.cfg s.bits with
    | .error e => .error e
    | .ok v => .ok { s with samples := v, arate := s.cfg.srate }

end Sys2Proof.Machine
end

