-- ==== Sys2Proof/Machine/Composite.lean ====
section
/-! DEFINITION. The composite commands (spec/44_composite.md): ENCODE and DECODE, each the phases of the single commands in the
order of R131 and R133, all writes at the end. -/

namespace Sys2Proof.Machine

/-- What a decoded sample buffer gives (R133). -/
structure Decoded where
  frame : Parsed
  bytes : List Byte
deriving DecidableEq, Repr

/-- The phases of ENCODE up to the frame (R131). -/
def encodeFrame (p : Params) (B : List Byte) : Except Err (List Bit) :=
  match unpackPhase p B with
  | .error e => .error e
  | .ok P => framePhase p P

/-- The phases of DECODE after the demodulator (R132, R133, R134): header, the caller's alignment check on the declared
length, then the bit-packer. -/
def decodeBits (p : Params) (T : List Bit) : Except Err Decoded :=
  match parseFrame T with
  | .error e => .error e
  | .ok f =>
    if f.declared.toNat % 8 ≠ 0 then .error .unalignedPayload
    else match packPhase p f.payload with
      | .error e => .error e
      | .ok B => .ok { frame := f, bytes := B }

/-- `ENCODE` (R131). -/
def execEncode (s : State) : Host.Outcome State Fault Refusal :=
  requireLegal s <| report false s <|
    match encodeFrame s.par s.bytes with
    | .error e => .error e
    | .ok F =>
      match modulatePhase s.par s.cfg F with
      | .error e => .error e
      | .ok v => .ok { s with bits := F, samples := v, arate := s.cfg.srate }

/-- `DECODE` (R133), with the warning of R111. -/
def execDecode (s : State) : Host.Outcome State Fault Refusal :=
  requireLegal s <| report (rateMismatch s) s <|
    match demodulatePhase s.par s.cfg s.arate s.samples with
    | .error e => .error e
    | .ok T =>
      match decodeBits s.par T with
      | .error e => .error e
      | .ok d => .ok { s with bits := d.frame.payload, rem := d.frame.remaining, hlen := d.frame.declared,
                              bytes := d.bytes }

end Sys2Proof.Machine
end

