-- ==== Sys2Proof/Machine/Dispatch.lean ====
section
/-! DEFINITION. One command executed (spec/30_encoding.md R57): one arm per command, each a direct call of its meaning. -/

namespace Sys2Proof.Machine

def exec (i : Instr) (s : State) : Host.Outcome State Fault Refusal :=
  match i with
  | .bytes2bits => Sys2Proof.Machine.execBytes2Bits s
  | .bits2bytes => Sys2Proof.Machine.execBits2Bytes s
  | .buildframe => Sys2Proof.Machine.execBuildFrame s
  | .parseframe => Sys2Proof.Machine.execParseFrame s
  | .modulate => Sys2Proof.Machine.execModulate s
  | .demodulate => Sys2Proof.Machine.execDemodulate s
  | .encode => Sys2Proof.Machine.execEncode s
  | .decode => Sys2Proof.Machine.execDecode s

end Sys2Proof.Machine
end

