-- ==== Sys2Proof/Machine/Ports.lean ====
section
/-! DEFINITION. The host's moves (spec/20_memory.md R38 to R42, R49): the write ports, the read ports, `ISSUE` and the reset.
Each is one whole transition (R37, R42). -/

namespace Sys2Proof.Machine

/-- A write port: the move exists only when the sequence fits its buffer (R38 to R40, R42). -/
def writePort (a : HostAction) (s t : State) : Host.Outcome State Fault Refusal :=
  if a.wf s.par then .next t else .refused .notAHostMove

/-- `ISSUE(c)` (R42): the command runs, or an illegal word raises `IllegalCommandError`, before anything else (R58, R145). -/
def issueWord (c : Byte) (s : State) : Host.Outcome State Fault Refusal :=
  match decodeBytes [c] with
  | .ok (i, _) => exec i s
  | .error _ => raise .illegalCommand false s

/-- The reset event (R170); a parameter that gives no legal configuration is refused (R18). -/
def resetEvent (r : ResetParam) (s : State) : Host.Outcome State Fault Refusal :=
  match resetCfg s.par r with
  | some c => .next (applyReset s c)
  | none => .refused .illegalConfiguration

/-- One host action, from the action in hand to its end. -/
def act (a : HostAction) (s : State) : Host.Outcome State Fault Refusal :=
  match a with
  | .wrBytes v => writePort (.wrBytes v) s { s with bytes := v }
  | .wrBits v => writePort (.wrBits v) s { s with bits := v }
  | .wrSamples rate v => writePort (.wrSamples rate v) s { s with samples := v, arate := rate }
  | .rdBytes => .next (s.emit (.bytes s.bytes))
  | .rdBits => .next (s.emit (.bits s.bits))
  | .rdRem => .next (s.emit (.rem s.rem))
  | .rdSamples => .next (s.emit (.samples s.arate s.samples))
  | .rdHlen => .next (s.emit (.hlen s.hlen))
  | .rdCfg => .next (s.emit (.cfg s.cfg))
  | .issue c => issueWord c s
  | .reset r => resetEvent r s

/-- Take the next host action from the list and do it; with none left the block is idle with its state as the last
action left it (R49, R171). -/
def nextAction (s : State) : Host.Outcome State Fault Refusal :=
  match s.host with
  | [] => .next s
  | a :: rest => act a { s with host := rest }

end Sys2Proof.Machine
end

