-- ==== Sys2Proof/Machine/Listing.lean ====
section
/-! DEFINITION. The listing syntax of spec/30_encoding.md rule R61, read into host actions: one command or host action per line,
a `;` starting a comment. A line is a list of characters. The block never sees this text; the file is how a listing of
spec/95_test_vectors.md becomes the list `host` of State. -/

namespace Sys2Proof.Machine

/-- The mnemonic of a command (R57, R61): upper case, no operands. -/
def mnemonic : Instr → List Char
  | .bytes2bits => ['B', 'Y', 'T', 'E', 'S', '2', 'B', 'I', 'T', 'S']
  | .bits2bytes => ['B', 'I', 'T', 'S', '2', 'B', 'Y', 'T', 'E', 'S']
  | .buildframe => ['B', 'U', 'I', 'L', 'D', 'F', 'R', 'A', 'M', 'E']
  | .parseframe => ['P', 'A', 'R', 'S', 'E', 'F', 'R', 'A', 'M', 'E']
  | .modulate => ['M', 'O', 'D', 'U', 'L', 'A', 'T', 'E']
  | .demodulate => ['D', 'E', 'M', 'O', 'D', 'U', 'L', 'A', 'T', 'E']
  | .encode => ['E', 'N', 'C', 'O', 'D', 'E']
  | .decode => ['D', 'E', 'C', 'O', 'D', 'E']

/-- The command a mnemonic names. -/
def ofMnemonic (w : List Char) : Option Instr :=
  [Instr.bytes2bits, .bits2bytes, .buildframe, .parseframe, .modulate, .demodulate, .encode, .decode].find?
    fun i => mnemonic i == w

/-- A text cut at its spaces; two spaces together leave an empty piece between them. -/
def cutSpaces : List Char → List (List Char)
  | [] => [[]]
  | c :: cs =>
    if c = ' ' then [] :: cutSpaces cs
    else match cutSpaces cs with
      | w :: ws => (c :: w) :: ws
      | [] => [[c]]

/-- The words of a line without its comment. -/
def lineWords (line : List Char) : List (List Char) := (cutSpaces (line.takeWhile (· != ';'))).filter (· != [])

/-- A hexadecimal digit, of either case. -/
def hexDigit (c : Char) : Option Nat :=
  if 48 ≤ c.toNat ∧ c.toNat ≤ 57 then some (c.toNat - 48)
  else if 65 ≤ c.toNat ∧ c.toNat ≤ 70 then some (c.toNat - 55)
  else if 97 ≤ c.toNat ∧ c.toNat ≤ 102 then some (c.toNat - 87)
  else none

/-- A byte in two hexadecimal digits. -/
def hexByte : List Char → Option Byte
  | [a, b] =>
    match hexDigit a, hexDigit b with
    | some x, some y => some (BitVec.ofNat 8 (16 * x + y))
    | _, _ => none
  | _ => none

/-- A natural number in decimal, digits read from the left onto `acc`. -/
def decimalFrom : List Char → (acc : Nat) → Option Nat
  | [], acc => some acc
  | c :: cs, acc => if 48 ≤ c.toNat ∧ c.toNat ≤ 57 then decimalFrom cs (10 * acc + (c.toNat - 48)) else none

/-- A natural number in decimal; the empty word is none. -/
def decimal (w : List Char) : Option Nat := if w = [] then none else decimalFrom w 0

/-- A sample in signed decimal. -/
def signedDecimal : List Char → Option I16
  | '-' :: w => (decimal w).bind fun n => if n ≤ 32768 then some (BitVec.ofInt 16 (-(n : Int))) else none
  | w => (decimal w).bind fun n => if n ≤ 32767 then some (BitVec.ofNat 16 n) else none

/-- A word of bits; `_` separates groups. -/
def bitsWord : List Char → Option (List Bit)
  | [] => some []
  | c :: cs =>
    (bitsWord cs).bind fun v =>
      if c = '0' then some (false :: v) else if c = '1' then some (true :: v) else if c = '_' then some v else none

/-- All of a list, or none. -/
def readAll {α β : Type} (f : α → Option β) : List α → Option (List β)
  | [] => some []
  | a :: l => (f a).bind fun b => (readAll f l).map (b :: ·)

/-- The rate of `.samples`: a number below `2^32` and a colon. -/
def rateWord (w : List Char) : Option U32 :=
  match w.reverse with
  | ':' :: r => (decimal r.reverse).bind fun n => if n < 2 ^ 32 then some (BitVec.ofNat 32 n) else none
  | _ => none

/-- One line of a listing (R61): the host actions it stands for, none or one; no answer where the line is not in the syntax.
A blank line, a comment and `.expect` are no action. DESIGN CHOICE (notes/assumptions/15.md): `.samples rate:` with no values
writes the empty sequence, as R61 says of `.bits` and `.bytes` alone; R61 does not say it of `.samples`. -/
def listingLine (line : List Char) : Option (List HostAction) :=
  match lineWords line with
  | [] => some []
  | ['.', 'e', 'x', 'p', 'e', 'c', 't'] :: _ => some []
  | ['.', 'b', 'y', 't', 'e', 's'] :: ws => (readAll hexByte ws).map fun v => [.wrBytes v]
  | ['.', 'b', 'i', 't', 's'] :: ws => (readAll bitsWord ws).map fun v => [.wrBits v.flatten]
  | ['.', 'w', 'o', 'r', 'd'] :: ws =>
    match ws with
    | [w] => (hexByte w).map fun c => [.issue c]
    | _ => none
  | ['.', 's', 'a', 'm', 'p', 'l', 'e', 's'] :: ws =>
    match ws with
    | r :: vs => (rateWord r).bind fun rate => (readAll signedDecimal vs).map fun v => [.wrSamples rate v]
    | [] => none
  | w :: ws => if ws = [] then (ofMnemonic w).map fun i => [.issue (encode i)] else none

/-- A listing, line after line, in issue order. -/
def listing (lines : List (List Char)) : Option (List HostAction) := (readAll listingLine lines).map List.flatten

end Sys2Proof.Machine
end

