-- ==== Sys2Proof/Safety.lean ====
section
/-! DEFINITION. The terms the claims use: what a command returned, the invariant of the machine, and the formulas of the
modulator and the demodulator over the real numbers, as spec/42_modulator.md and spec/43_demodulator.md write them (rule R9:
"The rules of this spec are stated over exact reals"). The machine never reads this file. -/

namespace Sys2Proof.Safety

open Sys2Proof Sys2Proof.Machine

/-- Command `i`, executed in `s`, returns the status word `w` and leaves the block in the state `t` (R37, R42): the next
state is `t` with `w` shown. -/
def Returns (i : Instr) (s : State) (w : Byte) (t : State) : Prop :=
  exec i s = .next { t with shown := s.shown ++ [.status w] }

/-- The configuration of `s` is legal (R18). -/
abbrev Legal (s : State) : Prop := s.cfg.legal s.par = true

/-- The invariant of the machine: the open parameters are some implementation's (R6), the configuration is legal (R18), and
no buffer is longer than its capacity (R46). -/
def Inv (s : State) : Prop := s.par.wf = true ∧ Legal s ∧ Memory.wf s = true

/-- The status word with the error code `e` and the warning bit of R111: set when `ARATE != CFG_SRATE`. -/
def warned (s : State) (e : Byte) : Byte := if s.arate = s.cfg.srate then e else e ||| 0x10#8

/-! ### The numbers of a listing (R61) -/

/-- The hexadecimal digits 0 to 15, upper case. -/
def hexUpper : List Char := ['0', '1', '2', '3', '4', '5', '6', '7', '8', '9', 'A', 'B', 'C', 'D', 'E', 'F']

/-- The same, lower case: a reading that R61 does not show (notes/assumptions/15.md). -/
def hexLower : List Char := ['0', '1', '2', '3', '4', '5', '6', '7', '8', '9', 'a', 'b', 'c', 'd', 'e', 'f']

/-- `a` and `b` are the two hexadecimal digits of the byte `c`, the more significant one first, each in either case. -/
def SpellsByte (a b : Char) (c : Byte) : Prop :=
  (hexUpper[c.toNat / 16]? = some a ∨ hexLower[c.toNat / 16]? = some a) ∧
    (hexUpper[c.toNat % 16]? = some b ∨ hexLower[c.toNat % 16]? = some b)

/-- The decimal digits 0 to 9 as characters. -/
def decimalDigit (d : Fin 10) : Char :=
  match d with
  | 0 => '0' | 1 => '1' | 2 => '2' | 3 => '3' | 4 => '4' | 5 => '5' | 6 => '6' | 7 => '7' | 8 => '8' | 9 => '9'

/-- The number a sequence of decimal digits stands for, the most significant first. -/
def decimalValue (ds : List (Fin 10)) : ℕ := ds.foldl (fun n d => 10 * n + d.val) 0

/-- A signed decimal number as digits: whether it has a minus sign, and its digits. -/
abbrev SignedDigits := Bool × List (Fin 10)

/-- How a signed decimal number is written. -/
def SignedDigits.text (v : SignedDigits) : List Char := (if v.1 then ['-'] else []) ++ v.2.map decimalDigit

/-- The number it stands for. -/
def SignedDigits.value (v : SignedDigits) : ℤ := if v.1 then -(decimalValue v.2 : ℤ) else decimalValue v.2

/-- The bit a character of a `.bits` line stands for; the separators stand for none. -/
def charBit (c : Char) : Option Bit := if c = '0' then some false else if c = '1' then some true else none

/-! ### The formulas over exact reals -/

/-- `ref(f, N, S)[k] = sin(2π f t_k)`, `t_k = k / (N S)` (R91). -/
noncomputable def refSample (f N S k : ℕ) : ℝ := Real.sin (2 * Real.pi * f * (k / (N * S)))

/-- `pol(b)` (R8). -/
def pol (b : Bit) : ℤ := if b then 1 else -1

/-- `trunc` (R8): toward zero. -/
noncomputable def truncReal (x : ℝ) : ℤ := if 0 ≤ x then ⌊x⌋ else -⌊-x⌋

/-- The signal `x[j]` (R92 to R94): sample `j` belongs to symbol `j / N` at position `j mod N`. -/
noncomputable def signal (T : List Bit) (R S : ℕ) (C : List ℕ) (j : ℕ) : ℝ :=
  let N := R / S
  let i := j / N
  pol (T.getD i false) * refSample (C.getD (i % C.length) 0) N S (j % N)

/-- The peak `max_j |x[j]|` over the first `n` samples, 0 for none (R95, R8). -/
noncomputable def peak (x : ℕ → ℝ) (n : ℕ) : ℝ := (List.range n).foldl (fun m j => max m |x j|) 0

/-- `32767 * y[j]`, sample `j` before `trunc` (R95, R96). -/
noncomputable def beforeTrunc (T : List Bit) (R S : ℕ) (C : List ℕ) (j : ℕ) : ℝ :=
  let x := signal T R S C
  let p := peak x (R / S * T.length)
  32767 * (if p = 0 then x j else x j / p)

/-- The sample `s[j]` of `modulate(T, R, S, C)` (R96, R98). -/
noncomputable def sampleValue (T : List Bit) (R S : ℕ) (C : List ℕ) (j : ℕ) : ℤ := truncReal (beforeTrunc T R S C j)

/-- The correlation of symbol `i` (R113 to R115), `N = floor(Ra / S)`. -/
noncomputable def correlation (s : List I16) (Ra S : ℕ) (C : List ℕ) (i : ℕ) : ℝ :=
  let N := Ra / S
  ∑ k ∈ Finset.range N, ((s.getD (i * N + k) 0#16).toInt : ℝ) * refSample (C.getD (i % C.length) 0) N S k

/-- `m` is a value that the arithmetic `NUM` may give sample `j`: the exact one (R98), or, in an inexact arithmetic and only
where the value before `trunc` is a nonzero integer, one unit lower in magnitude (R101, U3). -/
def SampleAllowed (num : Numerics) (T : List Bit) (R S : ℕ) (C : List ℕ) (j : ℕ) (m : ℤ) : Prop :=
  m = sampleValue T R S C j ∨
    num = .inexact ∧ beforeTrunc T R S C j ≠ 0 ∧ beforeTrunc T R S C j = sampleValue T R S C j ∧
      m = sampleValue T R S C j - (sampleValue T R S C j).sign

/-- `b` is a decision that the arithmetic `NUM` may take for symbol `i`: the exact one (R116), or, in an inexact arithmetic,
any where the correlation is exactly zero and the segment is not silent (U4, followed also where R115, R121 and U16 give 1:
notes/assumptions/3.md). -/
def BitAllowed (num : Numerics) (s : List I16) (Ra S : ℕ) (C : List ℕ) (i : ℕ) (b : Bit) : Prop :=
  (b = true ↔ 0 ≤ correlation s Ra S C i) ∨
    num = .inexact ∧ correlation s Ra S C i = 0 ∧ ∃ k < Ra / S, s.getD (i * (Ra / S) + k) 0#16 ≠ 0#16

/-- The table `Q[r] = trunc(32767 sin(2πr/19) / cos(π/38))` of R100, as the spec prints it. -/
def refTableQ : List ℤ :=
  [0, 10675, 20194, 27525, 31873, 32767, 30109, 24190, 15648, 5411,
   -5411, -15648, -24190, -30109, -32767, -31873, -27525, -20194, -10675]

end Sys2Proof.Safety
end

