-- ==== Sys2Proof/Certificates/Slice0/Obligations.lean ====
section
/-! DEFINITION. The statements for the provers. Each docstring says which rule of the spec it formalises. `Returns i s w t` says
that command `i` in state `s` answers a next state: `t` with the status word `w` shown. -/

open Sys2Proof Sys2Proof.Machine Sys2Proof.Safety

/-! ### Command words and the step -/

/-- R56, R57: the eight command words, written out bit by bit, decode to their commands and are what the encoder gives. -/
def Obligations.CommandWordsDecodeToTheirCommands : Prop :=
  (decode 0b00000001#8 = .ok .bytes2bits ∧ encode .bytes2bits = 0b00000001#8) ∧
  (decode 0b00000010#8 = .ok .bits2bytes ∧ encode .bits2bytes = 0b00000010#8) ∧
  (decode 0b00000011#8 = .ok .buildframe ∧ encode .buildframe = 0b00000011#8) ∧
  (decode 0b00000100#8 = .ok .parseframe ∧ encode .parseframe = 0b00000100#8) ∧
  (decode 0b00000101#8 = .ok .modulate ∧ encode .modulate = 0b00000101#8) ∧
  (decode 0b00000110#8 = .ok .demodulate ∧ encode .demodulate = 0b00000110#8) ∧
  (decode 0b00000111#8 = .ok .encode ∧ encode .encode = 0b00000111#8) ∧
  (decode 0b00001000#8 = .ok .decode ∧ encode .decode = 0b00001000#8)

/-- R57, R59: decoding an encoded command, at the front of any bytes, gives it back and consumes one word; and a word that
decodes to a command is that command's only word. -/
def Obligations.DecodeAndEncodeAgree : Prop :=
  (∀ (i : Instr) (rest : List Byte), i.wf = true → decodeBytes (encode i :: rest) = .ok (i, rest)) ∧
  (∀ (w : Byte) (i : Instr), decode w = .ok i → encode i = w)

/-- R58: an illegal word raises `IllegalCommandError` (status 0x09) and changes nothing; the legal words are `0x01 .. 0x08`. -/
def Obligations.IllegalWordsRaiseAndChangeNothing : Prop :=
  ∀ (s : State) (c : Byte) (rest : List HostAction), s.host = .issue c :: rest →
    ((∃ i, decode c = .ok i) ↔ 1 ≤ c.toNat ∧ c.toNat ≤ 8) ∧
    (¬(1 ≤ c.toNat ∧ c.toNat ≤ 8) → step s = .next { s with host := rest, shown := s.shown ++ [.status 0x09#8] })

/-- R37, R42: a step whose host action is the `ISSUE` of a word that decodes to `i` is the command `i`, the action taken off
the host's list; in particular right after a command word is put there. -/
def Obligations.StepRunsTheDecodedCommand : Prop :=
  (∀ (s : State) (c : Byte) (rest : List HostAction) (i : Instr), s.host = .issue c :: rest → decode c = .ok i →
    step s = exec i { s with host := rest }) ∧
  (∀ (s : State) (i : Instr), step (s.withFetchWord 8 (encode i).toNat) = exec i s)

/-- R171, R49: with no host action left the block is idle with its state as it is. -/
def Obligations.IdleWithoutAHostAction : Prop :=
  ∀ s : State, s.host = [] → step s = .next s

/-- R61, row by row: a mnemonic is the `ISSUE` of its word; `.bytes` is the `WR_BYTES` of its two-digit hexadecimal bytes, `.word`
the `ISSUE` of one; `.bits` is the `WR_BITS` of its `0`s and `1`s, `_` and spaces standing anywhere between them; `.samples` is
`WR_SAMPLES` of a rate and signed decimal values; `.expect` is no action; a `;` starts a comment; the lines stand in issue
order. That a hexadecimal digit may be of either case and that `.bits` takes a separator at either end is the model's choice
(notes/assumptions/15.md): R61 shows upper case and separators between groups. So is `.samples rate:` with no values as the
empty sequence, a form R61 states for `.bits` and `.bytes` only. -/
def Obligations.ListingLinesReadAsHostActions : Prop :=
  (∀ i : Instr, listingLine (mnemonic i) = some [.issue (encode i)]) ∧
  (∀ l : List ((Char × Char) × Byte), (∀ t ∈ l, SpellsByte t.1.1 t.1.2 t.2) →
    listingLine (['.', 'b', 'y', 't', 'e', 's'] ++ l.flatMap fun t => [' ', t.1.1, t.1.2]) =
      some [.wrBytes (l.map (·.2))]) ∧
  (∀ (a b : Char) (c : Byte), SpellsByte a b c →
    listingLine ['.', 'w', 'o', 'r', 'd', ' ', a, b] = some [.issue c]) ∧
  (∀ t : List Char, (∀ c ∈ t, c = '0' ∨ c = '1' ∨ c = '_' ∨ c = ' ') →
    listingLine (['.', 'b', 'i', 't', 's', ' '] ++ t) = some [.wrBits (t.filterMap charBit)]) ∧
  listingLine ['.', 'b', 'i', 't', 's'] = some [.wrBits []] ∧
  (∀ (rate : List (Fin 10)) (l : List SignedDigits), rate ≠ [] → decimalValue rate < 2 ^ 32 →
    (∀ v ∈ l, v.2 ≠ [] ∧ -32768 ≤ v.value ∧ v.value ≤ 32767) →
    listingLine (['.', 's', 'a', 'm', 'p', 'l', 'e', 's', ' '] ++ rate.map decimalDigit ++ [':'] ++
        l.flatMap fun v => ' ' :: v.text) =
      some [.wrSamples (BitVec.ofNat 32 (decimalValue rate)) (l.map fun v => BitVec.ofInt 16 v.value)]) ∧
  (listingLine ['.', 'e', 'x', 'p', 'e', 'c', 't'] = some [] ∧
    ∀ t : List Char, listingLine (['.', 'e', 'x', 'p', 'e', 'c', 't', ' '] ++ t) = some []) ∧
  (∀ line comment : List Char, listingLine (line ++ ';' :: comment) = listingLine line ∧
    listingLine (line ++ ' ' :: ';' :: comment) = listingLine line) ∧
  (listing [] = some [] ∧ ∀ (line : List Char) (lines : List (List Char)) (a as : List HostAction),
    listingLine line = some a → listing lines = some as → listing (line :: lines) = some (a ++ as))

/-! ### Host ports -/

/-- R38, R39, R40: a write port sets its buffer (`WR_SAMPLES` also `ARATE`) and nothing else. -/
def Obligations.WritePortsSetOnlyTheirBuffers : Prop :=
  ∀ (s : State) (rest : List HostAction),
    (∀ v, s.host = .wrBytes v :: rest → fits v.length s.par.capBytes = true →
      step s = .next { s with host := rest, bytes := v }) ∧
    (∀ v, s.host = .wrBits v :: rest → fits v.length s.par.capBits = true →
      step s = .next { s with host := rest, bits := v }) ∧
    (∀ r v, s.host = .wrSamples r v :: rest → fits v.length s.par.capSamples = true →
      step s = .next { s with host := rest, samples := v, arate := r })

/-- R42: a longer sequence is not a move the host has; the model refuses it (notes/assumptions/10.md). -/
def Obligations.OverlongWritesAreRefused : Prop :=
  ∀ (s : State) (rest : List HostAction),
    (∀ v, s.host = .wrBytes v :: rest → fits v.length s.par.capBytes = false → step s = .refused .notAHostMove) ∧
    (∀ v, s.host = .wrBits v :: rest → fits v.length s.par.capBits = false → step s = .refused .notAHostMove) ∧
    (∀ r v, s.host = .wrSamples r v :: rest → fits v.length s.par.capSamples = false → step s = .refused .notAHostMove)

/-- R41: a read port returns the current value and changes nothing. -/
def Obligations.ReadPortsReturnTheValueAndChangeNothing : Prop :=
  ∀ (s : State) (rest : List HostAction),
    (s.host = .rdBytes :: rest → step s = .next { s with host := rest, shown := s.shown ++ [.bytes s.bytes] }) ∧
    (s.host = .rdBits :: rest → step s = .next { s with host := rest, shown := s.shown ++ [.bits s.bits] }) ∧
    (s.host = .rdRem :: rest → step s = .next { s with host := rest, shown := s.shown ++ [.rem s.rem] }) ∧
    (s.host = .rdSamples :: rest →
      step s = .next { s with host := rest, shown := s.shown ++ [.samples s.arate s.samples] }) ∧
    (s.host = .rdHlen :: rest → step s = .next { s with host := rest, shown := s.shown ++ [.hlen s.hlen] }) ∧
    (s.host = .rdCfg :: rest → step s = .next { s with host := rest, shown := s.shown ++ [.cfg s.cfg] })

/-! ### Reset -/

/-- R22: what reset leaves, for every legal configuration and for the one that is latched when none is supplied, and
the result of every command on the empty operands it leaves. -/
def Obligations.ResetLeavesEmptyOperandsThatEveryCommandAccepts : Prop :=
  (State.reset.cfg.srate = 19000#32 ∧ State.reset.cfg.symrate = 50#32 ∧ State.reset.cfg.ncar = 6 ∧
    State.reset.cfg.car = [1000#32, 2000#32, 3000#32, 4000#32, 5000#32, 6000#32] ∧
    State.reset = State.resetWith State.reset.par State.reset.cfg) ∧
  ∀ (p : Params) (c : Cfg), c.legal p = true →
    let s := State.resetWith p c
    let N := c.srate.toNat / c.symrate.toNat
    (s.cfg = c ∧ s.bytes = [] ∧ s.bits = [] ∧ s.rem = [] ∧ s.samples = [] ∧ s.arate = c.srate ∧ s.hlen = 0#32) ∧
    Returns .bytes2bits s 0x00#8 s ∧ Returns .bits2bytes s 0x00#8 s ∧ Returns .modulate s 0x00#8 s ∧
    Returns .demodulate s 0x00#8 s ∧ Returns .parseframe s 0x01#8 s ∧ Returns .decode s 0x01#8 s ∧
    (fits 32 p.capBits = true →
      Returns .buildframe s 0x00#8 { s with bits := List.replicate 32 false } ∧
      (fits (N * 32) p.capSamples = true → ∃ v, v.length = 32 * N ∧
        Returns .encode s 0x00#8 { s with bits := List.replicate 32 false, samples := v }))

/-- R170, R18: a reset latches its parameter, each component defaulting to the reference constant, and leaves every other
piece of block state at its reset value; an illegal configuration, `CFG_NCAR` above `NCAR_MAX` among them, is refused. What
the host still means to do and what the run has shown stay (the model's own fields, notes/assumptions/1.md). The last clause
is the model's choice (notes/assumptions/7.md): a parameter with more carriers than `CFG_NCAR`, or with no value for an entry
above the sixth, for which R22 gives no default, is refused. -/
def Obligations.ResetEventLatchesTheConfiguration : Prop :=
  (∀ (s : State) (r : ResetParam) (rest : List HostAction) (c : Cfg), s.host = .reset r :: rest →
    c.srate = r.srate.getD 19000#32 → c.symrate = r.symrate.getD 50#32 → c.ncar = r.ncar.getD 6 →
    r.car.length ≤ c.ncar → c.car.length = c.ncar →
    (∀ j f, c.car[j]? = some f → r.car[j]? = some (some f) ∨
      (∀ g, r.car[j]? ≠ some (some g)) ∧ j < 6 ∧ f = BitVec.ofNat 32 (1000 * (j + 1))) →
    if c.legal s.par then
      step s = .next { par := s.par, cfg := c, bytes := [], bits := [], rem := [], samples := [], arate := c.srate,
                       hlen := 0#32, host := rest, shown := s.shown }
    else step s = .refused .illegalConfiguration) ∧
  (∀ (s : State) (r : ResetParam) (rest : List HostAction), s.host = .reset r :: rest →
    s.par.ncarMax < r.ncar.getD 6 → step s = .refused .illegalConfiguration) ∧
  (∀ (s : State) (r : ResetParam) (rest : List HostAction), s.host = .reset r :: rest →
    (r.ncar.getD 6 < r.car.length ∨
      ∃ j, 6 ≤ j ∧ j < r.ncar.getD 6 ∧ ∀ g, r.car[j]? ≠ some (some g)) →
    step s = .refused .illegalConfiguration)

/-- R18: the legal configurations. That the carrier list has `CFG_NCAR` entries is R16 and R17 (the length of the table), held
as a tie between two fields by the model's choice (notes/assumptions/9.md). -/
def Obligations.LegalConfigurationsAreThoseOfTheRule : Prop :=
  ∀ (c : Cfg) (p : Params), c.legal p = true ↔
    1 ≤ c.symrate.toNat ∧ 1 ≤ c.srate.toNat / c.symrate.toNat ∧ 1 ≤ c.ncar ∧ c.ncar ≤ p.ncarMax ∧
      c.car.length = c.ncar

/-! ### Bit-packer -/

/-- R70, R71: BYTES2BITS, whole. -/
def Obligations.Bytes2BitsUnpacksMostSignificantBitFirst : Prop :=
  decode 0x01#8 = .ok .bytes2bits ∧
  ∀ s : State,
    (fits (8 * s.bytes.length) s.par.capBits = true → ∃ T : List Bit,
      Returns .bytes2bits s 0x00#8 { s with bits := T } ∧ T.length = 8 * s.bytes.length ∧
      ∀ j b p, s.bytes[j]? = some b → p < 8 → T[8 * j + p]? = some (b.getLsbD (7 - p))) ∧
    (fits (8 * s.bytes.length) s.par.capBits = false → Returns .bytes2bits s 0x08#8 s)

/-- R72, R73: BITS2BYTES, whole, the length test first. -/
def Obligations.Bits2BytesPacksWholeBytesOnly : Prop :=
  decode 0x02#8 = .ok .bits2bytes ∧
  ∀ s : State,
    (s.bits.length % 8 ≠ 0 → Returns .bits2bytes s 0x03#8 s) ∧
    (s.bits.length % 8 = 0 → fits (s.bits.length / 8) s.par.capBytes = false → Returns .bits2bytes s 0x08#8 s) ∧
    (s.bits.length % 8 = 0 → fits (s.bits.length / 8) s.par.capBytes = true → ∃ B : List Byte,
      Returns .bits2bytes s 0x00#8 { s with bytes := B } ∧ B.length = s.bits.length / 8 ∧
      ∀ j b, B[j]? = some b →
        b.toNat = ∑ p ∈ Finset.range 8, (s.bits.getD (8 * j + p) false).toNat * 2 ^ (7 - p))

/-- R74: the packer's round trips, as functions and as commands. -/
def Obligations.BytePackingRoundTrips : Prop :=
  (∀ B : List Byte, bitsToBytes (bytesToBits B) = .ok B) ∧
  (∀ T : List Bit, T.length % 8 = 0 → ∃ B, bitsToBytes T = .ok B ∧ bytesToBits B = T) ∧
  (∀ s : State, fits (8 * s.bytes.length) s.par.capBits = true → fits s.bytes.length s.par.capBytes = true →
    ∃ t u, exec .bytes2bits s = .next t ∧ exec .bits2bytes t = .next u ∧ u.bytes = s.bytes ∧
      u.shown = s.shown ++ [.status 0x00#8, .status 0x00#8])

/-! ### Frames -/

/-- R52: the header field, bit by bit, and its two round trips. -/
def Obligations.HeaderFieldIsBigEndian : Prop :=
  (∀ L : ℕ, (hdr L).length = 32 ∧ ∀ p < 32, (hdr L)[p]? = some (L.testBit (31 - p))) ∧
  (∀ h : List Bit, h.length = 32 →
    bitsValue h = ∑ p ∈ Finset.range 32, (h.getD p false).toNat * 2 ^ (31 - p) ∧
      bitsValue h < 2 ^ 32 ∧ hdr (bitsValue h) = h) ∧
  (∀ L : ℕ, L < 2 ^ 32 → bitsValue (hdr L) = L)

/-- R81, R82: BUILDFRAME, whole, the length test first. -/
def Obligations.BuildFramePrependsTheLength : Prop :=
  decode 0x03#8 = .ok .buildframe ∧
  ∀ s : State,
    (2 ^ 32 - 1 < s.bits.length → Returns .buildframe s 0x06#8 s) ∧
    (s.bits.length ≤ 2 ^ 32 - 1 → fits (32 + s.bits.length) s.par.capBits = false → Returns .buildframe s 0x08#8 s) ∧
    (s.bits.length ≤ 2 ^ 32 - 1 → fits (32 + s.bits.length) s.par.capBits = true → ∃ F : List Bit,
      Returns .buildframe s 0x00#8 { s with bits := F } ∧ F.length = 32 + s.bits.length ∧
      (∀ p < 32, F[p]? = some (s.bits.length.testBit (31 - p))) ∧ F.drop 32 = s.bits)

/-- R83, R84, R85: PARSEFRAME, whole, with the lenient truncation. -/
def Obligations.ParseFrameSplitsAtTheDeclaredLength : Prop :=
  decode 0x04#8 = .ok .parseframe ∧
  ∀ s : State,
    (s.bits.length < 32 → Returns .parseframe s 0x01#8 s) ∧
    (32 ≤ s.bits.length → ∃ (P Q : List Bit) (L : U32),
      Returns .parseframe s 0x00#8 { s with bits := P, rem := Q, hlen := L } ∧
      L.toNat = ∑ p ∈ Finset.range 32, (s.bits.getD p false).toNat * 2 ^ (31 - p) ∧
      P.length = min L.toNat (s.bits.length - 32) ∧ s.bits.take 32 ++ P ++ Q = s.bits)

/-- R86: the frame round trip, as functions and as commands, for payloads of every length below `2^32`. -/
def Obligations.FramesRoundTrip : Prop :=
  (∀ P : List Bit, P.length ≤ 2 ^ 32 - 1 → parseFrame (buildFrame P) =
    .ok { payload := P, remaining := [], declared := BitVec.ofNat 32 P.length }) ∧
  (∀ s : State, s.bits.length ≤ 2 ^ 32 - 1 → fits (32 + s.bits.length) s.par.capBits = true →
    ∃ t u, exec .buildframe s = .next t ∧ exec .parseframe t = .next u ∧ u.bits = s.bits ∧ u.rem = [] ∧
      u.hlen.toNat = s.bits.length ∧ u.shown = s.shown ++ [.status 0x00#8, .status 0x00#8])

/-- R175: a second BUILDFRAME wraps the frame in another header; nothing detects it. -/
def Obligations.SecondBuildFrameFramesTheFrame : Prop :=
  ∀ s : State, 32 + s.bits.length ≤ 2 ^ 32 - 1 → fits (64 + s.bits.length) s.par.capBits = true →
    ∃ t u, exec .buildframe s = .next t ∧ exec .buildframe t = .next u ∧
      u.bits = hdr (32 + s.bits.length) ++ (hdr s.bits.length ++ s.bits) ∧
      u.shown = s.shown ++ [.status 0x00#8, .status 0x00#8]

/-! ### Modulator -/

/-- R98: `modulate` is the function of the formulas over exact reals, sample by sample. -/
def Obligations.ModulateMatchesTheRealFormulas : Prop :=
  ∀ (T : List Bit) (R S : ℕ) (C : List ℕ), 1 ≤ S → C ≠ [] → R < 2 ^ 32 →
    (modulate T R S C).length = R / S * T.length ∧
    ∀ j, j < R / S * T.length → ((modulate T R S C).getD j 0#16).toInt = sampleValue T R S C j

/-- R99: MODULATE, whole, in the arithmetic of the implementation; what an inexact one may give is R101 and U3, in the model's
form (notes/assumptions/3.md). -/
def Obligations.ModulateWritesTheModulatedBits : Prop :=
  decode 0x05#8 = .ok .modulate ∧
  ∀ s : State, Legal s →
    let N := s.cfg.srate.toNat / s.cfg.symrate.toNat
    (fits (N * s.bits.length) s.par.capSamples = false → Returns .modulate s 0x08#8 s) ∧
    (fits (N * s.bits.length) s.par.capSamples = true → ∃ v : List I16,
      Returns .modulate s 0x00#8 { s with samples := v, arate := s.cfg.srate } ∧ v.length = N * s.bits.length ∧
      ∀ j, j < N * s.bits.length → SampleAllowed s.par.num s.bits s.cfg.srate.toNat s.cfg.symrate.toNat
        (s.cfg.car.map (·.toNat)) j (v.getD j 0#16).toInt)

/-- R97: the output of the modulator: its length, its range, a full-scale sample when the peak is not zero, and a zero at
the start of every symbol. -/
def Obligations.ModulatorOutputIsFullScale : Prop :=
  ∀ (T : List Bit) (R S : ℕ) (C : List ℕ), 1 ≤ S → C ≠ [] → R < 2 ^ 32 →
    (modulate T R S C).length = R / S * T.length ∧
    (∀ x ∈ modulate T R S C, -32767 ≤ x.toInt ∧ x.toInt ≤ 32767) ∧
    (peak (signal T R S C) (R / S * T.length) ≠ 0 →
      ∃ x ∈ modulate T R S C, x.toInt = 32767 ∨ x.toInt = -32767) ∧
    (∀ i, i < T.length → 1 ≤ R / S → ((modulate T R S C).getD (i * (R / S)) 0#16).toInt = 0)

/-- R100: the closed form for the reference constants, for every bit sequence. -/
def Obligations.ReferenceSamplesFollowTheClosedForm : Prop :=
  ∀ T : List Bit,
    (modulate T 19000 50 [1000, 2000, 3000, 4000, 5000, 6000]).length = 380 * T.length ∧
    ∀ i b k, T[i]? = some b → k < 380 →
      ((modulate T 19000 50 [1000, 2000, 3000, 4000, 5000, 6000]).getD (i * 380 + k) 0#16).toInt =
        pol b * refTableQ.getD ((i % 6 + 1) * k % 19) 0

/-- R101: with the reference constants an inexact arithmetic moves a sample only at the residues 5 and 14, there to `32766` in
magnitude. -/
def Obligations.InexactReferenceSamplesMoveOnlyAtThePeaks : Prop :=
  ∀ (T : List Bit) (i : ℕ) (b : Bit) (k : ℕ), T[i]? = some b → k < 380 →
    let r := (i % 6 + 1) * k % 19
    let m := ((modulateNum .inexact T 19000 50 [1000, 2000, 3000, 4000, 5000, 6000]).getD (i * 380 + k) 0#16).toInt
    m = pol b * refTableQ.getD r 0 ∨ r = 5 ∧ m = pol b * 32766 ∨ r = 14 ∧ m = pol b * (-32766)

/-- R102: polarity, carrier cycling and length of the modulated signal, and the scenario of the source. -/
def Obligations.ModulatorPolarityCyclingAndLength : Prop :=
  (∀ (T T' : List Bit) (m R S : ℕ) (C : List ℕ), 1 ≤ S → C ≠ [] → R < 2 ^ 32 → T'.length = T.length → m < T.length →
    T'.getD m false = !T.getD m false → (∀ i, i ≠ m → T'.getD i false = T.getD i false) →
    ∀ j, j < R / S * T.length → ((modulate T' R S C).getD j 0#16).toInt =
      if j / (R / S) = m then -((modulate T R S C).getD j 0#16).toInt else ((modulate T R S C).getD j 0#16).toInt) ∧
  (∀ (T : List Bit) (R S : ℕ) (C : List ℕ), 1 ≤ S → C ≠ [] → T.length = C.length + 1 →
    T.getD C.length false = T.getD 0 false → ∀ k, k < R / S →
      (modulate T R S C).getD (C.length * (R / S) + k) 0#16 = (modulate T R S C).getD k 0#16) ∧
  (∀ (P : List Bit) (R S : ℕ) (C : List ℕ), 1 ≤ S → C ≠ [] →
    (modulate (buildFrame P) R S C).length = (32 + P.length) * (R / S)) ∧
  (modulate (buildFrame (bytesToBits [0x41#8])) 19000 50 [1000, 2000, 3000, 4000, 5000, 6000]).length = 15200

/-- R103, R121: when every carrier a call uses is degenerate (`N = 1`, or `2f/(NS)` an integer), every sample is 0 whatever
the bits, and the buffer demodulates to all ones. -/
def Obligations.DegenerateCarriersLoseTheBits : Prop :=
  ∀ (T : List Bit) (R S : ℕ) (C : List ℕ), 1 ≤ S → C ≠ [] → R < 2 ^ 32 → 1 ≤ R / S →
    (∀ f ∈ C.take T.length, R / S = 1 ∨ R / S * S ∣ 2 * f) →
    modulate T R S C = List.replicate (R / S * T.length) 0#16 ∧
    demodulate (modulate T R S C) R S C = List.replicate T.length true

/-! ### Demodulator -/

/-- R117: `demodulate` decides each symbol by the sign of its correlation over exact reals, zero deciding 1. -/
def Obligations.DemodulateDecidesByTheRealCorrelation : Prop :=
  ∀ (s : List I16) (Ra S : ℕ) (C : List ℕ), 1 ≤ S → C ≠ [] → Ra < 2 ^ 32 → 1 ≤ Ra / S →
    (demodulate s Ra S C).length = s.length / (Ra / S) ∧
    ∀ i b, (demodulate s Ra S C)[i]? = some b → (b = true ↔ 0 ≤ correlation s Ra S C i)

/-- R118: DEMODULATE, whole, in the arithmetic of the implementation, with the warning and the degenerate rate of R119. What an
inexact arithmetic may decide is the model's choice (notes/assumptions/3.md): U4's either bit, at exactly zero correlations of
segments that are not silent, those included for which R115 and U16 give the bit 1, and nowhere else. -/
def Obligations.DemodulateWritesTheDecidedBits : Prop :=
  decode 0x06#8 = .ok .demodulate ∧
  ∀ s : State, Legal s →
    let N := s.arate.toNat / s.cfg.symrate.toNat
    (N = 0 → Returns .demodulate s (warned s 0x07#8) s) ∧
    (N ≠ 0 → fits (s.samples.length / N) s.par.capBits = false → Returns .demodulate s (warned s 0x08#8) s) ∧
    (N ≠ 0 → fits (s.samples.length / N) s.par.capBits = true → ∃ T : List Bit,
      Returns .demodulate s (warned s 0x00#8) { s with bits := T } ∧ T.length = s.samples.length / N ∧
      ∀ i b, T[i]? = some b → BitAllowed s.par.num s.samples s.arate.toNat s.cfg.symrate.toNat
        (s.cfg.car.map (·.toNat)) i b)

/-- R112: the number of symbols; trailing samples that do not fill a symbol are discarded; a buffer shorter than a symbol
gives no bit. -/
def Obligations.TrailingSamplesAreDiscarded : Prop :=
  ∀ (s extra : List I16) (Ra S : ℕ) (C : List ℕ), 1 ≤ Ra / S → C ≠ [] →
    (demodulate s Ra S C).length = s.length / (Ra / S) ∧
    (s.length < Ra / S → demodulate s Ra S C = []) ∧
    (s.length % (Ra / S) = 0 → extra.length < Ra / S → demodulate (s ++ extra) Ra S C = demodulate s Ra S C)

/-- R115: the first sample of a segment never influences the result. -/
def Obligations.FirstSampleOfASymbolIsIgnored : Prop :=
  ∀ (s : List I16) (x : I16) (i Ra S : ℕ) (C : List ℕ), 1 ≤ S → C ≠ [] → Ra < 2 ^ 32 → 1 ≤ Ra / S →
    demodulate (s.set (i * (Ra / S)) x) Ra S C = demodulate s Ra S C

/-- R121: silence reads as ones, and 32 symbols of it or more make DECODE raise `UnalignedPayloadError`. -/
def Obligations.SilenceReadsAsOnes : Prop :=
  ∀ s : State, Legal s → (∀ x ∈ s.samples, x = 0#16) →
    let N := s.arate.toNat / s.cfg.symrate.toNat
    let M := s.samples.length / N
    N ≠ 0 → fits M s.par.capBits = true →
      Returns .demodulate s (warned s 0x00#8) { s with bits := List.replicate M true } ∧
      (32 ≤ M → Returns .decode s (warned s 0x02#8) s)

/-- R120: the noiseless round trip in any configuration: a 1 bit is always recovered, a 0 bit exactly when some sample of
its carrier's reference reaches `p / 32767`. -/
def Obligations.NoiselessRoundTripRecoversBits : Prop :=
  ∀ (T : List Bit) (R S : ℕ) (C : List ℕ), 1 ≤ S → C ≠ [] → R < 2 ^ 32 → 1 ≤ R / S →
    let p := peak (signal T R S C) (R / S * T.length)
    p ≠ 0 →
    (demodulate (modulate T R S C) R S C).length = T.length ∧
    ∀ i, i < T.length →
      (T.getD i false = true → (demodulate (modulate T R S C) R S C).getD i false = true) ∧
      (T.getD i false = false → ((demodulate (modulate T R S C) R S C).getD i false = false ↔
        ∃ k < R / S, p / 32767 ≤ |refSample (C.getD (i % C.length) 0) (R / S) S k|))

/-- R120: with the reference constants every bit sequence is recovered, whatever the arithmetic of either end. -/
def Obligations.ReferenceDemodulationInvertsModulation : Prop :=
  ∀ (sender receiver : Numerics) (T : List Bit),
    demodulateNum receiver (modulateNum sender T 19000 50 [1000, 2000, 3000, 4000, 5000, 6000]) 19000 50
      [1000, 2000, 3000, 4000, 5000, 6000] = T

/-! ### Composite commands -/

/-- R131: ENCODE, its tests in the order of the phases and its result bit by bit and sample by sample, the samples as for
MODULATE (notes/assumptions/3.md). -/
def Obligations.EncodeWritesFrameAndSamples : Prop :=
  decode 0x07#8 = .ok .encode ∧
  ∀ s : State, Legal s →
    let n := 8 * s.bytes.length
    let N := s.cfg.srate.toNat / s.cfg.symrate.toNat
    (fits n s.par.capBits = false → Returns .encode s 0x08#8 s) ∧
    (fits n s.par.capBits = true → 2 ^ 32 - 1 < n → Returns .encode s 0x06#8 s) ∧
    (fits n s.par.capBits = true → n ≤ 2 ^ 32 - 1 → fits (32 + n) s.par.capBits = false → Returns .encode s 0x08#8 s) ∧
    (n ≤ 2 ^ 32 - 1 → fits (32 + n) s.par.capBits = true → fits (N * (32 + n)) s.par.capSamples = false →
      Returns .encode s 0x08#8 s) ∧
    (n ≤ 2 ^ 32 - 1 → fits (32 + n) s.par.capBits = true → fits (N * (32 + n)) s.par.capSamples = true →
      ∃ (F : List Bit) (v : List I16),
        Returns .encode s 0x00#8 { s with bits := F, samples := v, arate := s.cfg.srate } ∧
        F.length = 32 + n ∧ (∀ p < 32, F[p]? = some (n.testBit (31 - p))) ∧
        (∀ j b p, s.bytes[j]? = some b → p < 8 → F[32 + 8 * j + p]? = some (b.getLsbD (7 - p))) ∧
        v.length = N * (32 + n) ∧ ∀ j, j < N * (32 + n) → SampleAllowed s.par.num F s.cfg.srate.toNat
          s.cfg.symrate.toNat (s.cfg.car.map (·.toNat)) j (v.getD j 0#16).toInt)

/-- R131, equivalence on success: ENCODE leaves the state that `BYTES2BITS; BUILDFRAME; MODULATE` leaves. -/
def Obligations.EncodeEqualsItsThreePhases : Prop :=
  ∀ s t : State, exec .encode s = .next t → t.shown = s.shown ++ [.status 0x00#8] →
    ∃ t1 t2 t3, exec .bytes2bits s = .next t1 ∧ exec .buildframe t1 = .next t2 ∧ exec .modulate t2 = .next t3 ∧
      t3.shown = s.shown ++ [.status 0x00#8, .status 0x00#8, .status 0x00#8] ∧ { t3 with shown := t.shown } = t

/-- R133, R134: DECODE, its tests in the order of the data flow, the alignment test on the declared length. -/
def Obligations.DecodeTestsInDataFlowOrder : Prop :=
  decode 0x08#8 = .ok .decode ∧
  ∀ s : State, Legal s →
    let N := s.arate.toNat / s.cfg.symrate.toNat
    let T := demodulateNum s.par.num s.samples s.arate.toNat s.cfg.symrate.toNat (s.cfg.car.map (·.toNat))
    let L := ∑ p ∈ Finset.range 32, (T.getD p false).toNat * 2 ^ (31 - p)
    let P := (T.drop 32).take L
    (N = 0 → Returns .decode s (warned s 0x07#8) s) ∧
    (N ≠ 0 → fits (s.samples.length / N) s.par.capBits = false → Returns .decode s (warned s 0x08#8) s) ∧
    (N ≠ 0 → fits (s.samples.length / N) s.par.capBits = true →
      (T.length < 32 → Returns .decode s (warned s 0x01#8) s) ∧
      (32 ≤ T.length → L % 8 ≠ 0 → Returns .decode s (warned s 0x02#8) s) ∧
      (32 ≤ T.length → L % 8 = 0 → P.length % 8 ≠ 0 → Returns .decode s (warned s 0x03#8) s) ∧
      (32 ≤ T.length → L % 8 = 0 → P.length % 8 = 0 → fits (P.length / 8) s.par.capBytes = false →
        Returns .decode s (warned s 0x08#8) s) ∧
      (32 ≤ T.length → L % 8 = 0 → P.length % 8 = 0 → fits (P.length / 8) s.par.capBytes = true →
        ∃ B : List Byte, bytesToBits B = P ∧ Returns .decode s (warned s 0x00#8)
          { s with bits := P, rem := T.drop (32 + L), hlen := BitVec.ofNat 32 L, bytes := B }))

/-- R133, equivalence on success: DECODE leaves the state that `DEMODULATE; PARSEFRAME; BITS2BYTES` leaves, the host's
check `HLEN mod 8 = 0` passing between the second and the third. -/
def Obligations.DecodeEqualsItsThreePhases : Prop :=
  ∀ (s t : State) (w : Byte), exec .decode s = .next t → t.shown = s.shown ++ [.status w] → w.extractLsb' 0 4 = 0#4 →
    ∃ t1 t2 t3, exec .demodulate s = .next t1 ∧ exec .parseframe t1 = .next t2 ∧ t2.hlen.toNat % 8 = 0 ∧
      exec .bits2bytes t2 = .next t3 ∧ t3.shown = s.shown ++ [.status w, .status 0x00#8, .status 0x00#8] ∧
      { t3 with shown := t.shown } = t

/-- R135: the modem round trip with the reference constants, whatever the host leaves in `BYTES` between; the empty
payload; truncated input; the scenario of the source. -/
def Obligations.ModemRoundTripRestoresTheBytes : Prop :=
  (∀ s : State, s.cfg = Cfg.reference → Legal s → 8 * s.bytes.length ≤ 2 ^ 32 - 1 →
    fits (32 + 8 * s.bytes.length) s.par.capBits = true → fits s.bytes.length s.par.capBytes = true →
    fits (380 * (32 + 8 * s.bytes.length)) s.par.capSamples = true →
    ∃ t, exec .encode s = .next t ∧ t.shown = s.shown ++ [.status 0x00#8] ∧
      t.samples.length = 380 * (32 + 8 * s.bytes.length) ∧
      (s.bytes = [] → t.bits = List.replicate 32 false ∧ t.samples.length = 12160) ∧
      (s.bytes = [0x41#8] → t.samples.length = 15200) ∧
      ∀ B, ∃ u, exec .decode { t with bytes := B } = .next u ∧ u.bytes = s.bytes ∧
        u.shown = t.shown ++ [.status 0x00#8]) ∧
  (∀ s : State, s.bits.length < 32 → Returns .parseframe s 0x01#8 s)

/-! ### Errors and status -/

/-- R146: a command that reports an error has changed nothing, an illegal word included; only the status word is shown, and the
block goes on to the host's next action. -/
def Obligations.FailedCommandsChangeNothing : Prop :=
  ∀ (s t : State) (c w : Byte) (rest : List HostAction), s.host = .issue c :: rest → step s = .next t →
    t.shown = s.shown ++ [.status w] → w.extractLsb' 0 4 ≠ 0#4 →
    t = { s with host := rest, shown := s.shown ++ [.status w] }

/-- R147: re-issuing a failed command fails in the same way. -/
def Obligations.ReissuedCommandFailsTheSameWay : Prop :=
  ∀ (i : Instr) (s t : State) (w : Byte), exec i s = .next t → t.shown = s.shown ++ [.status w] →
    w.extractLsb' 0 4 ≠ 0#4 → Returns i t w t

/-- R60: every `ISSUE` that answers returns one status word: bits 7:5 zero, `W` exactly when DEMODULATE or DECODE runs with
`ARATE != CFG_SRATE`; `W` and `ERR` are independent. The codes are those of R141 that the block returns. -/
def Obligations.EveryIssueReturnsOneStatusWord : Prop :=
  (∀ (s t : State) (c : Byte) (rest : List HostAction), s.host = .issue c :: rest → step s = .next t →
    ∃ w : Byte, t.shown = s.shown ++ [.status w] ∧ w.extractLsb' 5 3 = 0#3 ∧
      (w.getLsbD 4 = true ↔ (c = 0x06#8 ∨ c = 0x08#8) ∧ s.arate ≠ s.cfg.srate) ∧
      (w.extractLsb' 0 4).toNat ∈ [0, 1, 2, 3, 6, 7, 8, 9]) ∧
  (∃ s t : State, exec .demodulate s = .next t ∧ t.shown = s.shown ++ [.status 0x10#8]) ∧
  (∃ s t : State, exec .decode s = .next t ∧ t.shown = s.shown ++ [.status 0x11#8])

/-- R141: the error codes each command can report. -/
def Obligations.EachCommandReportsOnlyItsErrors : Prop :=
  ∀ (i : Instr) (s t : State) (w : Byte), exec i s = .next t → t.shown = s.shown ++ [.status w] →
    (w.extractLsb' 0 4).toNat ∈
      (match i with
       | .bytes2bits => [0, 8]
       | .bits2bytes => [0, 3, 8]
       | .buildframe => [0, 6, 8]
       | .parseframe => [0, 1]
       | .modulate => [0, 8]
       | .demodulate => [0, 7, 8]
       | .encode => [0, 6, 8]
       | .decode => [0, 1, 2, 3, 7, 8])

/-- R46: with unbounded capacities `CapacityError` never occurs. -/
def Obligations.UnboundedBuffersNeverRaiseCapacityError : Prop :=
  ∀ (i : Instr) (s t : State) (w : Byte), s.par.capBytes = none → s.par.capBits = none → s.par.capSamples = none →
    exec i s = .next t → t.shown = s.shown ++ [.status w] → w.extractLsb' 0 4 ≠ 8#4

/-! ### The whole machine -/

/-- R10, R57: each command changes only the registers its row of R57 lists as written. -/
def Obligations.CommandsWriteOnlyTheirDestinations : Prop :=
  ∀ (i : Instr) (s t : State), exec i s = .next t →
    t.par = s.par ∧ t.cfg = s.cfg ∧ t.host = s.host ∧
    (i ∉ [.bits2bytes, .decode] → t.bytes = s.bytes) ∧
    (i ∉ [.bytes2bits, .buildframe, .parseframe, .demodulate, .encode, .decode] → t.bits = s.bits) ∧
    (i ∉ [.parseframe, .decode] → t.rem = s.rem ∧ t.hlen = s.hlen) ∧
    (i ∉ [.modulate, .encode] → t.samples = s.samples ∧ t.arate = s.arate)

/-- R37, R10: a command's status and results depend on the configuration and on the registers its row of R57 lists as
read, and on nothing else. -/
def Obligations.CommandResultsDependOnTheirInputsOnly : Prop :=
  ∀ (i : Instr) (s s' t : State), s'.par = s.par → s'.cfg = s.cfg →
    (match i with
     | .bytes2bits | .encode => s'.bytes = s.bytes
     | .bits2bytes | .buildframe | .parseframe | .modulate => s'.bits = s.bits
     | .demodulate | .decode => s'.samples = s.samples ∧ s'.arate = s.arate) →
    exec i s = .next t →
    ∃ (t' : State) (w : Byte), exec i s' = .next t' ∧ t.shown = s.shown ++ [.status w] ∧
      t'.shown = s'.shown ++ [.status w] ∧ (w.extractLsb' 0 4 = 0#4 →
        match i with
        | .bytes2bits | .buildframe | .demodulate => t'.bits = t.bits
        | .bits2bytes => t'.bytes = t.bytes
        | .parseframe => t'.bits = t.bits ∧ t'.rem = t.rem ∧ t'.hlen = t.hlen
        | .modulate => t'.samples = t.samples ∧ t'.arate = t.arate
        | .encode => t'.bits = t.bits ∧ t'.samples = t.samples ∧ t'.arate = t.arate
        | .decode => t'.bits = t.bits ∧ t'.rem = t.rem ∧ t'.hlen = t.hlen ∧ t'.bytes = t.bytes)

/-- R19: the configuration registers are written by reset and by nothing else. -/
def Obligations.OnlyResetWritesTheConfiguration : Prop :=
  (∀ s t : State, step s = .next t → (∀ r rest, s.host ≠ .reset r :: rest) → t.cfg = s.cfg) ∧
  (∀ (s : State) (rest : List HostAction), s.host = .rdCfg :: rest →
    step s = .next { s with host := rest, shown := s.shown ++ [.cfg s.cfg] })

/-- R49: every command ends, with a next state, in every state whose configuration is legal. -/
def Obligations.EveryCommandEnds : Prop :=
  ∀ (i : Instr) (s : State), Legal s → ∃ t, exec i s = .next t

/-- R18, R42: when a step answers no next state, it refuses: a host write that does not fit, a reset with an illegal
configuration, or a command that needs a legal configuration in a state that has none. Nothing faults. -/
def Obligations.StepsStopOnlyOutsideTheRules : Prop :=
  (∀ (s : State) (f : Fault), step s ≠ .fault f) ∧
  (∀ s : State, step s = .refused .notAHostMove →
    ∃ a rest, s.host = a :: rest ∧ a.wf s.par = false ∧ ∀ r, a ≠ .reset r) ∧
  (∀ s : State, step s = .refused .illegalConfiguration →
    (∃ r rest, s.host = .reset r :: rest ∧ resetCfg s.par r = none) ∨
    (∃ c rest, s.host = .issue c :: rest ∧ 5 ≤ c.toNat ∧ c.toNat ≤ 8 ∧ s.cfg.legal s.par = false)) ∧
  (∀ (s : State) (r : Refusal), step s = .refused r → r = .notAHostMove ∨ r = .illegalConfiguration)

/-- R18, R46: every step keeps the invariant: a legal configuration and no buffer longer than its capacity. -/
def Obligations.StepKeepsTheInvariant : Prop :=
  ∀ s t : State, Inv s → step s = .next t → Inv t

/-- R18, R22, R46: every reset state with a legal configuration meets the invariant, the default one included. -/
def Obligations.ResetMeetsTheInvariant : Prop :=
  Inv State.reset ∧ ∀ (p : Params) (c : Cfg), p.wf = true → c.legal p = true → Inv (State.resetWith p c)
end

