-- ==== Sys2Proof/Laws/Operands.lean ====
section
/-! SUPPORT. The operand formats, each described once: lengths, elements, and what a slice or a segment holds. -/

namespace Sys2Proof.Laws

open Sys2Proof.Machine

@[simp] theorem length_byteBits (b : Byte) : (byteBits b).length = 8 := by simp [byteBits]

theorem getElem?_byteBits (b : Byte) {p : ℕ} (hp : p < 8) : (byteBits b)[p]? = some (b.getLsbD (7 - p)) := by
  simp [byteBits, hp]

@[simp] theorem bytesToBits_nil : bytesToBits [] = [] := rfl
@[simp] theorem bytesToBits_cons (b : Byte) (B : List Byte) : bytesToBits (b :: B) = byteBits b ++ bytesToBits B := rfl

@[simp] theorem length_bytesToBits (B : List Byte) : (bytesToBits B).length = 8 * B.length := by
  induction B with
  | nil => rfl
  | cons b B ih => simp [ih]; omega

theorem bitsValue_append (h : List Bit) (b : Bit) : bitsValue (h ++ [b]) = 2 * bitsValue h + b.toNat := by
  simp [bitsValue]

theorem bitsValue_lt (h : List Bit) : bitsValue h < 2 ^ h.length := by
  induction h using List.reverseRecOn with
  | nil => simp [bitsValue]
  | append_singleton h b ih =>
    rw [bitsValue_append, List.length_append, List.length_singleton, pow_succ]
    have : b.toNat ≤ 1 := by cases b <;> decide
    omega

theorem length_bytesOfGroups (T : List Bit) : (bytesOfGroups T).length = T.length / 8 := by
  induction T using bytesOfGroups.induct with
  | case1 b0 b1 b2 b3 b4 b5 b6 b7 rest ih => simp [bytesOfGroups, ih]; omega
  | case2 T h =>
    have : T.length < 8 := by
      by_contra hc
      match T, hc with
      | b0 :: b1 :: b2 :: b3 :: b4 :: b5 :: b6 :: b7 :: rest, _ => exact h b0 b1 b2 b3 b4 b5 b6 b7 rest rfl
      | [], hc | [_], hc | [_, _], hc | [_, _, _], hc | [_, _, _, _], hc | [_, _, _, _, _], hc
      | [_, _, _, _, _, _], hc | [_, _, _, _, _, _, _], hc => simp at hc
    rw [bytesOfGroups]
    · simp; omega
    · exact h

/-- What `bitsToBytes` answers (R72). -/
theorem bitsToBytes_eq (T : List Bit) :
    bitsToBytes T = if T.length % 8 = 0 then .ok (bytesOfGroups T) else .error .invalidLength := by
  unfold bitsToBytes
  split <;> simp_all

@[simp] theorem length_hdr (L : ℕ) : (hdr L).length = 32 := by simp [hdr]

theorem getElem?_hdr (L : ℕ) {p : ℕ} (hp : p < 32) : (hdr L)[p]? = some (L.testBit (31 - p)) := by
  simp [hdr, hp]

@[simp] theorem length_buildFrame (P : List Bit) : (buildFrame P).length = 32 + P.length := by simp [buildFrame]

theorem length_slice {α : Type} (s : List α) (a b : ℕ) : (slice s a b).length = min b s.length - a := by
  simp [slice]

theorem getElem?_slice {α : Type} (s : List α) (a b i : ℕ) :
    (slice s a b)[i]? = if a + i < b then s[a + i]? else none := by
  simp [slice, List.getElem?_drop, List.getElem?_take]

/-- What `parseFrame` answers (R83). -/
theorem parseFrame_eq (F : List Bit) :
    parseFrame F = if F.length < 32 then .error .truncatedHeader else
      .ok { payload := slice F 32 (32 + bitsValue (slice F 0 32)),
            remaining := slice F (32 + bitsValue (slice F 0 32)) F.length,
            declared := BitVec.ofNat 32 (bitsValue (slice F 0 32)) } := rfl

@[simp] theorem length_segments {α : Type} (n : ℕ) : ∀ (m : ℕ) (s : List α), (segments n m s).length = m
  | 0, _ => rfl
  | m + 1, s => by simp [segments, length_segments n m]

/-- Segment `i` is the slice of samples `i*n .. i*n + n - 1` (R113). -/
theorem getElem?_segments {α : Type} (n : ℕ) :
    ∀ (m : ℕ) (s : List α) (i : ℕ), i < m → (segments n m s)[i]? = some (slice s (i * n) (i * n + n))
  | m + 1, s, 0, _ => by simp [segments, slice]
  | m + 1, s, i + 1, h => by
    rw [segments, List.getElem?_cons_succ, getElem?_segments n m _ i (by omega)]
    congr 1
    simp only [slice, List.take_drop, List.drop_drop]
    congr 2 <;> ring

end Sys2Proof.Laws
end

