-- ==== Sys2Proof/Laws/State.lean ====
section
/-! SUPPORT. One lemma per field per named update of `State`, all true by `rfl`, so that no proof unfolds a record update. -/

namespace Sys2Proof.Laws

open Sys2Proof.Machine

@[simp] theorem emit_par (s : State) (o : Obs) : (s.emit o).par = s.par := rfl
@[simp] theorem emit_cfg (s : State) (o : Obs) : (s.emit o).cfg = s.cfg := rfl
@[simp] theorem emit_bytes (s : State) (o : Obs) : (s.emit o).bytes = s.bytes := rfl
@[simp] theorem emit_bits (s : State) (o : Obs) : (s.emit o).bits = s.bits := rfl
@[simp] theorem emit_rem (s : State) (o : Obs) : (s.emit o).rem = s.rem := rfl
@[simp] theorem emit_samples (s : State) (o : Obs) : (s.emit o).samples = s.samples := rfl
@[simp] theorem emit_arate (s : State) (o : Obs) : (s.emit o).arate = s.arate := rfl
@[simp] theorem emit_hlen (s : State) (o : Obs) : (s.emit o).hlen = s.hlen := rfl
@[simp] theorem emit_host (s : State) (o : Obs) : (s.emit o).host = s.host := rfl
@[simp] theorem emit_shown (s : State) (o : Obs) : (s.emit o).shown = s.shown ++ [o] := rfl

@[simp] theorem applyReset_par (s : State) (c : Cfg) : (applyReset s c).par = s.par := rfl
@[simp] theorem applyReset_cfg (s : State) (c : Cfg) : (applyReset s c).cfg = c := rfl
@[simp] theorem applyReset_bytes (s : State) (c : Cfg) : (applyReset s c).bytes = [] := rfl
@[simp] theorem applyReset_bits (s : State) (c : Cfg) : (applyReset s c).bits = [] := rfl
@[simp] theorem applyReset_rem (s : State) (c : Cfg) : (applyReset s c).rem = [] := rfl
@[simp] theorem applyReset_samples (s : State) (c : Cfg) : (applyReset s c).samples = [] := rfl
@[simp] theorem applyReset_arate (s : State) (c : Cfg) : (applyReset s c).arate = c.srate := rfl
@[simp] theorem applyReset_hlen (s : State) (c : Cfg) : (applyReset s c).hlen = 0#32 := rfl
@[simp] theorem applyReset_host (s : State) (c : Cfg) : (applyReset s c).host = s.host := rfl
@[simp] theorem applyReset_shown (s : State) (c : Cfg) : (applyReset s c).shown = s.shown := rfl

end Sys2Proof.Laws
end

