-- ==== Sys2Proof/Laws/SineSeries.lean ====
section
/-! SUPPORT. The real analysis under Machine/Sine.lean: the nested form of the series of `arctan` and `sin`, each tail between 0
and its first term. -/

namespace Sys2Proof.Laws

open Filter Topology Finset

/-- The signed tail of an alternating series: it lies between 0 and its first term, and unfolds one term at a time. -/
theorem alternating_tails {f : ℕ → ℝ} {l : ℝ} (hf : Antitone f)
    (hl : Tendsto (fun n => ∑ i ∈ range n, (-1) ^ i * f i) atTop (𝓝 l)) :
    ∃ t : ℕ → ℝ, t 0 = l ∧ ∀ m, t m = f m - t (m + 1) ∧ 0 ≤ t m ∧ t m ≤ f m := by
  have htail : ∀ m, 0 ≤ (-1) ^ m * (l - ∑ i ∈ range m, (-1) ^ i * f i) := by
    intro m
    rcases Nat.even_or_odd' m with ⟨k, rfl | rfl⟩
    · have := hf.alternating_series_le_tendsto hl k
      simp only [pow_mul, neg_one_sq, one_pow, one_mul, sub_nonneg] at *
      exact this
    · have := hf.tendsto_le_alternating_series hl k
      rw [pow_succ, pow_mul]
      simp only [neg_one_sq, one_pow, one_mul]
      linarith
  refine ⟨fun m => (-1) ^ m * (l - ∑ i ∈ range m, (-1) ^ i * f i), by simp, fun m => ?_⟩
  have hstep : (-1) ^ m * (l - ∑ i ∈ range m, (-1) ^ i * f i) =
      f m - (-1) ^ (m + 1) * (l - ∑ i ∈ range (m + 1), (-1) ^ i * f i) := by
    have hsq : ((-1 : ℝ) ^ m) * (-1) ^ m = 1 := by rw [← mul_pow]; simp
    rw [sum_range_succ, pow_succ]
    linear_combination (f m) * hsq
  refine ⟨hstep, htail m, ?_⟩
  have := htail (m + 1)
  linarith

/-- The nested series of `arctan y`: `arctan y = y A_0`, `A_k = 1/(2k+1) - y² A_{k+1}`. -/
theorem arctan_tails {y : ℝ} (h0 : 0 < y) (h1 : y < 1) :
    ∃ A : ℕ → ℝ, Real.arctan y = y * A 0 ∧
      ∀ k, A k = 1 / (2 * k + 1) - y ^ 2 * A (k + 1) ∧ 0 ≤ A k ∧ A k ≤ 1 / (2 * k + 1) := by
  have hanti : Antitone fun n : ℕ => y ^ (2 * n + 1) / ((2 * n + 1 : ℕ) : ℝ) := by
    refine antitone_nat_of_succ_le fun n => ?_
    refine div_le_div₀ (by positivity) (pow_le_pow_of_le_one h0.le h1.le (by omega)) (by positivity) ?_
    exact_mod_cast (by omega : 2 * n + 1 ≤ 2 * (n + 1) + 1)
  have hlim : Tendsto (fun n => ∑ i ∈ range n, (-1) ^ i * (y ^ (2 * i + 1) / ((2 * i + 1 : ℕ) : ℝ))) atTop
      (𝓝 (Real.arctan y)) := by
    have := (Real.hasSum_arctan (x := y) (by rw [Real.norm_of_nonneg h0.le]; exact h1)).tendsto_sum_nat
    simpa only [mul_div_assoc] using this
  obtain ⟨t, ht0, ht⟩ := alternating_tails hanti hlim
  have hp : ∀ k : ℕ, (0 : ℝ) < y ^ (2 * k + 1) := fun k => by positivity
  refine ⟨fun k => t k / y ^ (2 * k + 1), ?_, fun k => ⟨?_, ?_, ?_⟩⟩
  · beta_reduce
    rw [ht0]
    simp
    field_simp
  · have h := (ht k).1
    have e : y ^ (2 * (k + 1) + 1) = y ^ 2 * y ^ (2 * k + 1) := by ring
    beta_reduce
    rw [e, h]
    push_cast
    have := hp k
    field_simp
  · exact div_nonneg (ht k).2.1 (hp k).le
  · beta_reduce
    rw [div_le_iff₀ (hp k)]
    have := (ht k).2.2
    push_cast at this
    calc t k ≤ _ := this
      _ = _ := by ring

/-- The nested series of `sin x`: `sin x = x T_1`, `T_k = 1 - x²/(2k(2k+1)) T_{k+1}`. -/
theorem sin_tails {x : ℝ} (h0 : 0 ≤ x) (h6 : x ^ 2 ≤ 6) :
    ∃ T : ℕ → ℝ, Real.sin x = x * T 1 ∧
      ∀ k, 1 ≤ k → T k = 1 - x ^ 2 / (2 * k * (2 * k + 1)) * T (k + 1) ∧ 0 ≤ T k ∧ T k ≤ 1 := by
  rcases h0.eq_or_lt with rfl | hx
  · exact ⟨fun _ => 1, by simp, fun k _ => by simp⟩
  have hfac : ∀ n : ℕ, ((2 * (n + 1) + 1).factorial : ℝ) =
      (2 * n + 1).factorial * ((2 * (n + 1 : ℝ)) * (2 * (n + 1 : ℝ) + 1)) := by
    intro n
    rw [show 2 * (n + 1) + 1 = (2 * n + 1) + 1 + 1 by ring, Nat.factorial_succ, Nat.factorial_succ]
    push_cast; ring
  have hfp : ∀ n : ℕ, (0 : ℝ) < (n.factorial : ℝ) := fun n => by exact_mod_cast n.factorial_pos
  have hanti : Antitone fun n : ℕ => x ^ (2 * n + 1) / ((2 * n + 1).factorial : ℝ) := by
    refine antitone_nat_of_succ_le fun n => ?_
    rw [hfac, show x ^ (2 * (n + 1) + 1) = x ^ (2 * n + 1) * x ^ 2 by ring, mul_div_mul_comm]
    refine mul_le_of_le_one_right (by positivity) ?_
    rw [div_le_one (by positivity)]
    nlinarith [(Nat.cast_nonneg n : (0 : ℝ) ≤ n)]
  have hlim : Tendsto (fun n => ∑ i ∈ range n, (-1) ^ i * (x ^ (2 * i + 1) / ((2 * i + 1).factorial : ℝ))) atTop
      (𝓝 (Real.sin x)) := by
    have := (Real.hasSum_sin x).tendsto_sum_nat
    simpa only [mul_div_assoc] using this
  obtain ⟨t, ht0, ht⟩ := alternating_tails hanti hlim
  have hg : ∀ k : ℕ, (0 : ℝ) < x ^ (2 * k + 1) / ((2 * k + 1).factorial : ℝ) := fun k => by
    have := hfp (2 * k + 1); positivity
  refine ⟨fun k => t (k - 1) / (x ^ (2 * (k - 1) + 1) / ((2 * (k - 1) + 1).factorial : ℝ)), ?_, fun k hk => ?_⟩
  · simp only [Nat.sub_self, ht0]
    simp
    field_simp
  obtain ⟨n, rfl⟩ : ∃ n, k = n + 1 := ⟨k - 1, by omega⟩
  simp only [Nat.add_sub_cancel]
  refine ⟨?_, div_nonneg (ht n).2.1 (hg n).le, (div_le_one (hg n)).2 (ht n).2.2⟩
  have h := (ht n).1
  have e := hfac n
  have hn := hfp (2 * n + 1)
  rw [h, e, show x ^ (2 * (n + 1) + 1) = x ^ (2 * n + 1) * x ^ 2 by ring]
  push_cast
  field_simp

end Sys2Proof.Laws
end

