-- ==== Sys2Proof/Laws/SineEnclosure.lean ====
section
/-! SUPPORT. The enclosures of Machine/Sine.lean hold (`pi`, `sin`) and get narrow as the precision grows. -/

namespace Sys2Proof.Laws

open Sys2Proof.Machine

/-- `e` encloses `x` at precision `q`. -/
def Encloses (q : ℕ) (e : Enc) (x : ℝ) : Prop := (e.lo : ℝ) ≤ x * 2 ^ q ∧ x * 2 ^ q ≤ e.hi

/-- The width of an enclosure. -/
noncomputable def width (e : Enc) : ℝ := (e.hi : ℝ) - e.lo

theorem le_cdiv (a : ℕ) {b : ℕ} (hb : 0 < b) : (a : ℝ) / b ≤ (cdiv a b : ℝ) := by
  have h : a ≤ cdiv a b * b := by
    have := Nat.div_add_mod (a + b - 1) b
    have := Nat.mod_lt (a + b - 1) hb
    rw [mul_comm]; unfold cdiv; omega
  rw [div_le_iff₀ (by exact_mod_cast hb)]
  exact_mod_cast h

theorem cdiv_le (a : ℕ) {b : ℕ} (hb : 0 < b) : (cdiv a b : ℝ) ≤ (a : ℝ) / b + 1 := by
  have h : cdiv a b * b ≤ a + b := by
    have := Nat.div_mul_le_self (a + b - 1) b
    unfold cdiv; omega
  have hb' : (0 : ℝ) < b := by exact_mod_cast hb
  rw [div_add_one hb'.ne', le_div_iff₀ hb']
  exact_mod_cast h

theorem fdiv_le (a b : ℕ) : ((a / b : ℕ) : ℝ) ≤ (a : ℝ) / b := Nat.cast_div_le

theorem le_fdiv (a : ℕ) {b : ℕ} (hb : 0 < b) : (a : ℝ) / b - 1 ≤ ((a / b : ℕ) : ℝ) := by
  have h : a ≤ (a / b + 1) * b := by
    have := Nat.div_add_mod a b
    have := Nat.mod_lt a hb
    rw [add_mul, mul_comm]; omega
  have hb' : (0 : ℝ) < b := by exact_mod_cast hb
  rw [sub_le_iff_le_add, div_le_iff₀ hb']
  exact_mod_cast h

theorem natSub_le {a b : ℕ} {x : ℝ} (hx : 0 ≤ x) (h : (a : ℝ) - b ≤ x) : ((a - b : ℕ) : ℝ) ≤ x := by
  rcases le_total b a with hab | hab
  · rwa [Nat.cast_sub hab]
  · rw [Nat.sub_eq_zero_of_le hab]; simpa using hx

theorem le_natSub {a b : ℕ} {x : ℝ} (h : x ≤ (a : ℝ) - b) : x ≤ ((a - b : ℕ) : ℝ) :=
  h.trans (by rw [sub_le_iff_le_add]; exact_mod_cast (by omega : a ≤ a - b + b))

theorem natSub_width {a b c d : ℕ} {W : ℝ} (hW : 0 ≤ W) (h : ((a : ℝ) - b) - (c - d) ≤ W) :
    ((a - b : ℕ) : ℝ) - ((c - d : ℕ) : ℝ) ≤ W := by
  have h1 : (c : ℝ) - d ≤ ((c - d : ℕ) : ℝ) := le_natSub le_rfl
  have h0 : (0 : ℝ) ≤ ((c - d : ℕ) : ℝ) := by positivity
  have := natSub_le (a := a) (b := b) (x := W + ((c - d : ℕ) : ℝ)) (add_nonneg hW h0) (by linarith)
  linarith

/-! ### π -/

theorem atanTail_encloses {q m : ℕ} {A : ℕ → ℝ} (hm : 0 < m)
    (hA : ∀ k, A k = 1 / (2 * k + 1) - (1 / (m : ℝ)) ^ 2 * A (k + 1) ∧ 0 ≤ A k ∧ A k ≤ 1 / (2 * k + 1)) :
    ∀ n k, Encloses q (atanTail q m n k) (A k)
  | 0, k => by
    refine ⟨by simpa [atanTail] using (hA k).2.1, ?_⟩
    refine le_trans ?_ (le_cdiv (2 ^ q) (by omega : 0 < 2 * k + 1))
    push_cast
    rw [div_eq_mul_one_div, mul_comm]
    exact mul_le_mul_of_nonneg_left (hA k).2.2 (by positivity)
  | n + 1, k => by
    obtain ⟨h1, h2⟩ := atanTail_encloses (q := q) hm hA n (k + 1)
    have hm' : (0 : ℝ) < m := by exact_mod_cast hm
    have hmm : 0 < m * m := Nat.mul_pos hm hm
    have e : A k * 2 ^ q = 2 ^ q / ((2 * k + 1 : ℕ) : ℝ) - A (k + 1) * 2 ^ q / ((m * m : ℕ) : ℝ) := by
      conv_lhs => rw [(hA k).1]
      push_cast
      field_simp
    have hp : (0 : ℝ) < ((m * m : ℕ) : ℝ) := by exact_mod_cast hmm
    constructor
    · refine natSub_le (mul_nonneg (hA k).2.1 (by positivity)) ?_
      have := fdiv_le (2 ^ q) (2 * k + 1)
      have := le_cdiv (atanTail q m n (k + 1)).hi hmm
      have := div_le_div_of_nonneg_right h2 hp.le
      rw [e]; push_cast at *; linarith
    · refine le_natSub ?_
      have := le_cdiv (2 ^ q) (by omega : 0 < 2 * k + 1)
      have := fdiv_le (atanTail q m n (k + 1)).lo (m * m)
      have := div_le_div_of_nonneg_right h1 hp.le
      rw [e]; push_cast at *; linarith

theorem atanTail_width {q m : ℕ} (hm : 2 ≤ m) :
    ∀ n k, width (atanTail q m n k) ≤ (2 ^ q + 1) / 2 ^ n + 8
  | 0, k => by
    have h := cdiv_le (2 ^ q) (by omega : 0 < 2 * k + 1)
    have h2 : ((2 ^ q : ℕ) : ℝ) / ((2 * k + 1 : ℕ) : ℝ) ≤ ((2 ^ q : ℕ) : ℝ) :=
      div_le_self (by positivity) (by exact_mod_cast (by omega : 1 ≤ 2 * k + 1))
    simp only [width, atanTail]
    push_cast at *
    linarith
  | n + 1, k => by
    have ih := atanTail_width (q := q) hm n (k + 1)
    have hmm : 0 < m * m := Nat.mul_pos (by omega) (by omega)
    have hp : (2 : ℝ) ≤ ((m * m : ℕ) : ℝ) := by exact_mod_cast (by nlinarith : 2 ≤ m * m)
    refine natSub_width (by positivity) ?_
    have h1 := fdiv_le (2 ^ q) (2 * k + 1)
    have h2 := le_fdiv (2 ^ q) (by omega : 0 < 2 * k + 1)
    have h3 := cdiv_le (2 ^ q) (by omega : 0 < 2 * k + 1)
    have h4 := cdiv_le (atanTail q m n (k + 1)).hi hmm
    have h5 := le_fdiv (atanTail q m n (k + 1)).lo hmm
    have hw : (((atanTail q m n (k + 1)).hi : ℝ) - (atanTail q m n (k + 1)).lo) / ((m * m : ℕ) : ℝ) ≤
        ((2 ^ q + 1) / 2 ^ n + 8) / 2 := by
      refine (div_le_div_of_nonneg_right ih (by positivity)).trans ?_
      exact div_le_div_of_nonneg_left (by positivity) (by positivity) hp
    rw [sub_div] at hw
    have e : ((2 : ℝ) ^ q + 1) / 2 ^ (n + 1) = (2 ^ q + 1) / 2 ^ n / 2 := by rw [pow_succ, div_div]
    rw [e]
    linarith

/-- `π` is enclosed at every precision. -/
theorem piMachin_encloses (q : ℕ) : Encloses q (piMachin q) Real.pi := by
  obtain ⟨A, hA0, hA⟩ := arctan_tails (y := 1 / 5) (by norm_num) (by norm_num)
  obtain ⟨B, hB0, hB⟩ := arctan_tails (y := 1 / 239) (by norm_num) (by norm_num)
  obtain ⟨a1, a2⟩ := atanTail_encloses (q := q) (m := 5) (by norm_num) (by exact_mod_cast hA) (q / 4 + 3) 0
  obtain ⟨b1, b2⟩ := atanTail_encloses (q := q) (m := 239) (by norm_num) (by exact_mod_cast hB) (q / 4 + 3) 0
  have hpi : Real.pi = 16 * (A 0 / 5) - 4 * (B 0 / 239) := by
    have h := Real.four_mul_arctan_inv_5_sub_arctan_inv_239
    rw [← one_div, ← one_div, hA0, hB0] at h
    linarith
  have e : Real.pi * 2 ^ q = 16 * (A 0 * 2 ^ q / 5) - 4 * (B 0 * 2 ^ q / 239) := by rw [hpi]; ring
  have c1 := fdiv_le (atanTail q 5 (q / 4 + 3) 0).lo 5
  have c2 := le_cdiv (atanTail q 5 (q / 4 + 3) 0).hi (b := 5) (by norm_num)
  have c3 := fdiv_le (atanTail q 239 (q / 4 + 3) 0).lo 239
  have c4 := le_cdiv (atanTail q 239 (q / 4 + 3) 0).hi (b := 239) (by norm_num)
  constructor
  · refine natSub_le (by positivity) ?_
    rw [e]; push_cast at *; linarith
  · refine le_natSub ?_
    rw [e]; push_cast at *; linarith

/-- The literal encloses `π` at the first precision. -/
theorem piFirst_encloses : Encloses firstPrecision piFirst Real.pi := by
  have h1 := Real.pi_gt_d20
  have h2 := Real.pi_lt_d20
  constructor <;> simp only [piFirst, firstPrecision] <;> norm_num at * <;> nlinarith

theorem piMachin_width (q : ℕ) : width (piMachin q) ≤ 4 * ((2 ^ q + 1) / 2 ^ (q / 4 + 3) + 8) + 40 := by
  have wa := atanTail_width (q := q) (m := 5) (by norm_num) (q / 4 + 3) 0
  have wb := atanTail_width (q := q) (m := 239) (by norm_num) (q / 4 + 3) 0
  have c1 := le_fdiv (atanTail q 5 (q / 4 + 3) 0).lo (b := 5) (by norm_num)
  have c2 := cdiv_le (atanTail q 5 (q / 4 + 3) 0).hi (b := 5) (by norm_num)
  have c3 := le_fdiv (atanTail q 239 (q / 4 + 3) 0).lo (b := 239) (by norm_num)
  have c4 := cdiv_le (atanTail q 239 (q / 4 + 3) 0).hi (b := 239) (by norm_num)
  have hpos : (0 : ℝ) ≤ (2 ^ q + 1) / 2 ^ (q / 4 + 3) := by positivity
  refine natSub_width (by positivity) ?_
  simp only [width] at wa wb
  push_cast at *
  linarith

/-! ### sin -/

theorem sinTail_encloses {q : ℕ} {x : ℝ} {x2 : Enc} {T : ℕ → ℝ} (hx : Encloses q x2 (x ^ 2))
    (hT : ∀ k, 1 ≤ k → T k = 1 - x ^ 2 / (2 * k * (2 * k + 1)) * T (k + 1) ∧ 0 ≤ T k ∧ T k ≤ 1) :
    ∀ n k, 1 ≤ k → Encloses q (sinTail q x2 n k) (T k)
  | 0, k, hk => by
    refine ⟨by simpa [sinTail] using (hT k hk).2.1, ?_⟩
    simpa [sinTail] using (hT k hk).2.2
  | n + 1, k, hk => by
    obtain ⟨h1, h2⟩ := sinTail_encloses hx hT n (k + 1) (by omega)
    obtain ⟨g1, g2⟩ := hx
    have hd : 0 < 2 ^ q * (2 * k * (2 * k + 1)) := by positivity
    have hd' : (0 : ℝ) < ((2 ^ q * (2 * k * (2 * k + 1)) : ℕ) : ℝ) := by exact_mod_cast hd
    have hk' : (0 : ℝ) < k := by exact_mod_cast hk
    have e : T k * 2 ^ q = 2 ^ q - (x ^ 2 * 2 ^ q) * (T (k + 1) * 2 ^ q) / ((2 ^ q * (2 * k * (2 * k + 1)) : ℕ) : ℝ) := by
      conv_lhs => rw [(hT k hk).1]
      push_cast
      field_simp
    have hT1 : 0 ≤ T (k + 1) * 2 ^ q := mul_nonneg (hT (k + 1) (by omega)).2.1 (by positivity)
    have hx2 : 0 ≤ x ^ 2 * 2 ^ q := by positivity
    constructor
    · refine natSub_le (mul_nonneg (hT k hk).2.1 (by positivity)) ?_
      have c := le_cdiv (x2.hi * (sinTail q x2 n (k + 1)).hi) hd
      have m := div_le_div_of_nonneg_right (mul_le_mul g2 h2 hT1 (by positivity)) hd'.le
      rw [e]; push_cast at *; linarith
    · refine le_natSub ?_
      have c := fdiv_le (x2.lo * (sinTail q x2 n (k + 1)).lo) (2 ^ q * (2 * k * (2 * k + 1)))
      have m := div_le_div_of_nonneg_right (mul_le_mul g1 h1 (by positivity) hx2) hd'.le
      rw [e]; push_cast at *; linarith

theorem sinTail_hi (q : ℕ) (x2 : Enc) : ∀ n k, ((sinTail q x2 n k).hi : ℝ) ≤ 2 ^ q
  | 0, _ => by simp [sinTail]
  | n + 1, k => by
    have : (sinTail q x2 (n + 1) k).hi ≤ 2 ^ q := Nat.sub_le _ _
    exact_mod_cast this

theorem sinTail_width {q : ℕ} {x2 : Enc} (h3 : (x2.hi : ℝ) ≤ 3 * 2 ^ q) (hle : x2.lo ≤ x2.hi) :
    ∀ n k, 1 ≤ k → width (sinTail q x2 n k) ≤ 2 ^ q / 2 ^ n + width x2 + 4
  | 0, k, _ => by
    have : (0 : ℝ) ≤ width x2 := by simp only [width, sub_nonneg]; exact_mod_cast hle
    have e : width (sinTail q x2 0 k) = 2 ^ q := by simp [width, sinTail]
    rw [e, pow_zero, div_one]
    linarith
  | n + 1, k, hk => by
    have ih := sinTail_width h3 hle n (k + 1) (by omega)
    have w2 : (0 : ℝ) ≤ width x2 := by simp only [width, sub_nonneg]; exact_mod_cast hle
    have hd : 0 < 2 ^ q * (2 * k * (2 * k + 1)) := by positivity
    have h6 : (6 : ℝ) * 2 ^ q ≤ ((2 ^ q * (2 * k * (2 * k + 1)) : ℕ) : ℝ) := by
      have : 6 * 2 ^ q ≤ 2 ^ q * (2 * k * (2 * k + 1)) := by
        rw [mul_comm]; exact Nat.mul_le_mul_left _ (by nlinarith)
      exact_mod_cast this
    have hq : (0 : ℝ) < 2 ^ q := by positivity
    have c := cdiv_le (x2.hi * (sinTail q x2 n (k + 1)).hi) hd
    have f := le_fdiv (x2.lo * (sinTail q x2 n (k + 1)).lo) hd
    have hhi := sinTail_hi q x2 n (k + 1)
    have key : (((x2.hi * (sinTail q x2 n (k + 1)).hi : ℕ) : ℝ) - ((x2.lo * (sinTail q x2 n (k + 1)).lo : ℕ) : ℝ)) ≤
        6 * 2 ^ q * ((2 ^ q / 2 ^ n + width x2 + 4) / 2 + width x2 / 6) := by
      have i1 : ((x2.hi * (sinTail q x2 n (k + 1)).hi : ℕ) : ℝ) - ((x2.lo * (sinTail q x2 n (k + 1)).lo : ℕ) : ℝ) =
          x2.hi * width (sinTail q x2 n (k + 1)) + (sinTail q x2 n (k + 1)).lo * width x2 := by
        simp only [width]; push_cast; ring
      have hlo : ((sinTail q x2 n (k + 1)).lo : ℝ) * width x2 ≤ 2 ^ q * width x2 := by
        refine mul_le_mul_of_nonneg_right ?_ w2
        rcases n with _ | n
        · simp [sinTail]
        · have : (sinTail q x2 (n + 1) (k + 1)).lo ≤ 2 ^ q := Nat.sub_le _ _
          exact_mod_cast this
      have hB : (0 : ℝ) ≤ 2 ^ q / 2 ^ n + width x2 + 4 := by positivity
      have hm : (x2.hi : ℝ) * width (sinTail q x2 n (k + 1)) ≤ 3 * 2 ^ q * (2 ^ q / 2 ^ n + width x2 + 4) :=
        (mul_le_mul_of_nonneg_left ih (by positivity)).trans (mul_le_mul_of_nonneg_right h3 hB)
      rw [i1]; linarith
    have hdiv : (((x2.hi * (sinTail q x2 n (k + 1)).hi : ℕ) : ℝ) - ((x2.lo * (sinTail q x2 n (k + 1)).lo : ℕ) : ℝ)) /
        ((2 ^ q * (2 * k * (2 * k + 1)) : ℕ) : ℝ) ≤ (2 ^ q / 2 ^ n + width x2 + 4) / 2 + width x2 / 6 := by
      rw [div_le_iff₀ (by exact_mod_cast hd), mul_comm _ ((2 ^ q * (2 * k * (2 * k + 1)) : ℕ) : ℝ)]
      refine key.trans (mul_le_mul_of_nonneg_right h6 (by positivity))
    rw [sub_div] at hdiv
    refine natSub_width (by positivity) ?_
    have e : (2 : ℝ) ^ q / 2 ^ (n + 1) = 2 ^ q / 2 ^ n / 2 := by rw [pow_succ, div_div]
    rw [e]
    linarith

/-- `sin(πu/D)` is enclosed, whatever enclosure of `π` is used. -/
theorem sinEnc_encloses {q D u : ℕ} {pi : Enc} (hpi : Encloses q pi Real.pi) (hD : 0 < D) (hu : 2 * u ≤ D) :
    Encloses q (sinEnc q pi D u) (Real.sin (Real.pi * u / D)) := by
  have hD' : (0 : ℝ) < D := by exact_mod_cast hD
  have hu' : (2 : ℝ) * u ≤ D := by exact_mod_cast hu
  have hx0 : (0 : ℝ) ≤ Real.pi * u / D := by positivity
  have hx6 : (Real.pi * u / D) ^ 2 ≤ 6 := by
    have h : Real.pi * u / D ≤ 2 := by
      rw [div_le_iff₀ hD']
      nlinarith [Real.pi_le_four, (Nat.cast_nonneg u : (0 : ℝ) ≤ u)]
    nlinarith
  obtain ⟨T, hT1, hT⟩ := sin_tails hx0 hx6
  generalize hxdef : Real.pi * u / D = x at *
  obtain ⟨p1, p2⟩ := hpi
  have hq : (0 : ℝ) < 2 ^ q := by positivity
  have hq' : 0 < 2 ^ q := by positivity
  have hu0 : (0 : ℝ) ≤ u := by positivity
  have ex : x * 2 ^ q = (Real.pi * 2 ^ q) * u / D := by rw [← hxdef]; field_simp
  -- the angle
  have x1 : ((pi.lo * u / D : ℕ) : ℝ) ≤ x * 2 ^ q := by
    refine (fdiv_le _ _).trans ?_
    rw [ex]; push_cast
    exact div_le_div_of_nonneg_right (mul_le_mul_of_nonneg_right p1 hu0) hD'.le
  have x2 : x * 2 ^ q ≤ (cdiv (pi.hi * u) D : ℝ) := by
    refine le_trans ?_ (le_cdiv _ hD)
    rw [ex]; push_cast
    exact div_le_div_of_nonneg_right (mul_le_mul_of_nonneg_right p2 hu0) hD'.le
  have hxq : 0 ≤ x * 2 ^ q := by positivity
  -- its square
  have esq : x ^ 2 * 2 ^ q = (x * 2 ^ q) * (x * 2 ^ q) / 2 ^ q := by field_simp
  have hsq : Encloses q ⟨(pi.lo * u / D) * (pi.lo * u / D) / 2 ^ q,
      cdiv (cdiv (pi.hi * u) D * cdiv (pi.hi * u) D) (2 ^ q)⟩ (x ^ 2) := by
    constructor
    · refine (fdiv_le _ _).trans ?_
      rw [esq]; push_cast
      exact div_le_div_of_nonneg_right (mul_le_mul x1 x1 (by positivity) hxq) hq.le
    · refine le_trans ?_ (le_cdiv _ hq')
      rw [esq]; push_cast
      exact div_le_div_of_nonneg_right (mul_le_mul x2 x2 hxq (by positivity)) hq.le
  obtain ⟨t1, t2⟩ := sinTail_encloses hsq hT (q / 4 + 3) 1 le_rfl
  have hT0 : 0 ≤ T 1 * 2 ^ q := mul_nonneg (hT 1 le_rfl).2.1 hq.le
  have es : Real.sin x * 2 ^ q = (x * 2 ^ q) * (T 1 * 2 ^ q) / 2 ^ q := by rw [hT1]; field_simp
  constructor
  · refine (fdiv_le _ _).trans ?_
    rw [es]; push_cast
    exact div_le_div_of_nonneg_right (mul_le_mul x1 t1 (by positivity) hxq) hq.le
  · refine le_trans ?_ (le_cdiv _ hq')
    rw [es]; push_cast
    exact div_le_div_of_nonneg_right (mul_le_mul x2 t2 hT0 (by positivity)) hq.le

/-- The enclosure of a sine at precision `q` is narrower than `3 * 2^q / 2^(q/4)`. -/
theorem sinEnc_width {q D u : ℕ} (hq64 : 64 ≤ q) (hD : 0 < D) (hu : 2 * u ≤ D) :
    width (sinEnc q (piMachin q) D u) ≤ 3 * (2 ^ q / 2 ^ (q / 4)) := by
  have hD' : (0 : ℝ) < D := by exact_mod_cast hD
  have hu' : (u : ℝ) / D ≤ 1 / 2 := by
    rw [div_le_div_iff₀ hD' (by norm_num)]; exact_mod_cast (by omega : u * 2 ≤ 1 * D)
  have hu0 : (0 : ℝ) ≤ (u : ℝ) / D := by positivity
  obtain ⟨p1, p2⟩ := piMachin_encloses q
  have hwpi := piMachin_width q
  -- the size of the scale
  have hQ0 : (0 : ℝ) < 2 ^ q := by positivity
  have hQ0' : 0 < 2 ^ q := by positivity
  have hP : (65536 : ℝ) ≤ 2 ^ (q / 4) := by
    have h := pow_le_pow_right₀ (by norm_num : (1 : ℝ) ≤ 2) (by omega : 16 ≤ q / 4)
    norm_num at h ⊢; exact h
  have hG : (65536 : ℝ) ≤ 2 ^ q / 2 ^ (q / 4) := by
    rw [le_div_iff₀ (by positivity)]
    have h := pow_le_pow_right₀ (by norm_num : (1 : ℝ) ≤ 2) (by omega : 16 + q / 4 ≤ q)
    rw [pow_add] at h; norm_num at h ⊢; exact h
  have hGQ : 2 ^ q / 2 ^ (q / 4) ≤ (2 : ℝ) ^ q / 65536 :=
    div_le_div_of_nonneg_left hQ0.le (by norm_num) hP
  have e8 : ((2 : ℝ) ^ q + 1) / 2 ^ (q / 4 + 3) ≤ (2 ^ q / 2 ^ (q / 4)) / 8 + 1 := by
    rw [pow_add, add_div, ← div_div]
    have : (1 : ℝ) / (2 ^ (q / 4) * 2 ^ 3) ≤ 1 := by
      rw [div_le_one (by positivity)]; nlinarith
    norm_num at *; linarith
  have e8' : (2 : ℝ) ^ q / 2 ^ (q / 4 + 3) ≤ (2 ^ q / 2 ^ (q / 4)) / 8 := by
    rw [pow_add, ← div_div]; norm_num
  generalize hGdef : (2 : ℝ) ^ q / 2 ^ (q / 4) = G at *
  generalize hpidef : piMachin q = pi at *
  have hwpi' : width pi ≤ G / 2 + 76 := by linarith
  -- the angle
  set xlo := pi.lo * u / D with hxlo
  set xhi := cdiv (pi.hi * u) D with hxhi
  have a1 := le_fdiv (pi.lo * u) hD
  have a2 := cdiv_le (pi.hi * u) hD
  have a3 := fdiv_le (pi.lo * u) D
  have a4 := le_cdiv (pi.hi * u) hD
  rw [← hxlo] at a1 a3
  rw [← hxhi] at a2 a4
  push_cast at a1 a2 a3 a4
  rw [mul_div_assoc] at a1 a2 a3 a4
  have hpi3 : Real.pi ≤ 3.15 := by linarith [Real.pi_lt_d2]
  have hpiQ : Real.pi * 2 ^ q ≤ 3.15 * 2 ^ q := mul_le_mul_of_nonneg_right hpi3 hQ0.le
  have hwpi0 : 0 ≤ width pi := by simp only [width]; linarith
  have hwu : width pi * ((u : ℝ) / D) ≤ (G / 2 + 76) / 2 := by
    have := mul_le_mul hwpi' hu' hu0 (by linarith)
    linarith
  have hwu0 : 0 ≤ width pi * ((u : ℝ) / D) := mul_nonneg hwpi0 hu0
  have hwx : (xhi : ℝ) - xlo ≤ G / 4 + 40 := by
    simp only [width] at hwu; rw [sub_mul] at hwu; linarith
  have hwx0 : (0 : ℝ) ≤ (xhi : ℝ) - xlo := by
    simp only [width] at hwu0; rw [sub_mul] at hwu0; linarith
  have hlo : (xlo : ℝ) ≤ 1.575 * 2 ^ q := by
    have : (pi.lo : ℝ) * ((u : ℝ) / D) ≤ (3.15 * 2 ^ q) * (1 / 2) :=
      mul_le_mul (p1.trans hpiQ) hu' hu0 (by positivity)
    linarith
  have hhi : (xhi : ℝ) ≤ 1.576 * 2 ^ q := by linarith
  have hlo0 : (0 : ℝ) ≤ xlo := by positivity
  have hhi0 : (0 : ℝ) ≤ xhi := by positivity
  -- its square
  set slo := xlo * xlo / 2 ^ q with hslo
  set shi := cdiv (xhi * xhi) (2 ^ q) with hshi
  have b1 := le_fdiv (xlo * xlo) hQ0'
  have b2 := cdiv_le (xhi * xhi) hQ0'
  have b3 := fdiv_le (xlo * xlo) (2 ^ q)
  have b4 := le_cdiv (xhi * xhi) hQ0'
  rw [← hslo] at b1 b3
  rw [← hshi] at b2 b4
  push_cast at b1 b2 b3 b4
  have hsq : ((xhi : ℝ) * xhi - xlo * xlo) / 2 ^ q ≤ 3.2 * (G / 4 + 40) := by
    rw [div_le_iff₀ hQ0]
    have e : (xhi : ℝ) * xhi - xlo * xlo = ((xhi : ℝ) - xlo) * (xhi + xlo) := by ring
    rw [e]
    calc ((xhi : ℝ) - xlo) * (xhi + xlo) ≤ (G / 4 + 40) * (3.2 * 2 ^ q) :=
          mul_le_mul hwx (by linarith) (by linarith) (by linarith)
      _ = 3.2 * (G / 4 + 40) * 2 ^ q := by ring
  have hsq0 : 0 ≤ ((xhi : ℝ) * xhi - xlo * xlo) / 2 ^ q :=
    div_nonneg (by nlinarith) hQ0.le
  rw [sub_div] at hsq hsq0
  have hw2 : (shi : ℝ) - slo ≤ 0.8 * G + 130 := by linarith
  have hs3 : (shi : ℝ) ≤ 3 * 2 ^ q := by
    have : (xhi : ℝ) * xhi / 2 ^ q ≤ 2.6 * 2 ^ q := by
      rw [div_le_iff₀ hQ0]; nlinarith
    linarith
  have hsle : slo ≤ shi := by
    have : (slo : ℝ) ≤ shi := by linarith
    exact_mod_cast this
  -- the tail and the sine
  have hwt := sinTail_width (q := q) (x2 := ⟨slo, shi⟩) hs3 hsle (q / 4 + 3) 1 le_rfl
  have hthi := sinTail_hi q ⟨slo, shi⟩ (q / 4 + 3) 1
  have htlo : ((sinTail q ⟨slo, shi⟩ (q / 4 + 3) 1).lo : ℝ) ≤ 2 ^ q := by
    have : (sinTail q ⟨slo, shi⟩ (q / 4 + 3) 1).lo ≤ 2 ^ q := Nat.sub_le _ _
    exact_mod_cast this
  have hdef : sinEnc q pi D u = ⟨xlo * (sinTail q ⟨slo, shi⟩ (q / 4 + 3) 1).lo / 2 ^ q,
      cdiv (xhi * (sinTail q ⟨slo, shi⟩ (q / 4 + 3) 1).hi) (2 ^ q)⟩ := rfl
  rw [hdef]
  generalize sinTail q ⟨slo, shi⟩ (q / 4 + 3) 1 = t at *
  have c1 := le_fdiv (xlo * t.lo) hQ0'
  have c2 := cdiv_le (xhi * t.hi) hQ0'
  push_cast at c1 c2
  have hwt' : width t ≤ 0.925 * G + 134 := by
    have e : width (⟨slo, shi⟩ : Enc) = (shi : ℝ) - slo := rfl
    rw [e] at hwt; linarith
  have hfin : ((xhi : ℝ) * t.hi - xlo * t.lo) / 2 ^ q ≤ 1.576 * (0.925 * G + 134) + (G / 4 + 40) := by
    rw [div_le_iff₀ hQ0]
    have e : (xhi : ℝ) * t.hi - xlo * t.lo = xhi * width t + t.lo * ((xhi : ℝ) - xlo) := by
      simp only [width]; ring
    have m1 : (xhi : ℝ) * width t ≤ 1.576 * 2 ^ q * (0.925 * G + 134) :=
      (mul_le_mul_of_nonneg_left hwt' hhi0).trans (mul_le_mul_of_nonneg_right hhi (by linarith))
    have m2 : (t.lo : ℝ) * ((xhi : ℝ) - xlo) ≤ 2 ^ q * (G / 4 + 40) :=
      mul_le_mul htlo hwx hwx0 hQ0.le
    rw [e]; linarith
  rw [sub_div] at hfin
  simp only [width]
  linarith

end Sys2Proof.Laws
end

