-- ==== Sys2Proof/Laws/SineSum.lean ====
section
/-! SUPPORT. Weighted sums of sines at rational angles, and the bounds `weigh` computes of them. -/

namespace Sys2Proof.Laws

open Sys2Proof.Machine

/-- `Σ c * x`, over the shorter of the two lists. -/
noncomputable def dot (cs : List ℤ) (xs : List ℝ) : ℝ := (List.zipWith (fun (c : ℤ) x => (c : ℝ) * x) cs xs).sum

/-- `sin(2πj/D)`. -/
noncomputable def turnSin (D j : ℕ) : ℝ := Real.sin (2 * Real.pi * j / D)

/-- `Σ |c|`. -/
def absSum (cs : List ℤ) : ℕ := (cs.map Int.natAbs).sum

@[simp] theorem dot_nil (xs : List ℝ) : dot [] xs = 0 := by simp [dot]
@[simp] theorem dot_nil_right (cs : List ℤ) : dot cs [] = 0 := by simp [dot]
@[simp] theorem dot_cons (c : ℤ) (cs : List ℤ) (x : ℝ) (xs : List ℝ) : dot (c :: cs) (x :: xs) = c * x + dot cs xs := by
  simp [dot]

@[simp] theorem absSum_cons (c : ℤ) (cs : List ℤ) : absSum (c :: cs) = c.natAbs + absSum cs := by simp [absSum]

/-- Folding an angle keeps the magnitude of its sine and records the sign. -/
theorem foldAngle_spec {D j : ℕ} (hj : j < D) :
    2 * (foldAngle D j).2 ≤ D ∧
      turnSin D j = (if (foldAngle D j).1 then -1 else 1) * Real.sin (Real.pi * (foldAngle D j).2 / D) := by
  have hD : (0 : ℝ) < D := by exact_mod_cast (by omega : 0 < D)
  -- reflect at a quarter turn
  have reflect : ∀ u : ℕ, u ≤ D → 2 * (if D < 2 * u then D - u else u) ≤ D ∧
      Real.sin (Real.pi * u / D) = Real.sin (Real.pi * ((if D < 2 * u then D - u else u : ℕ) : ℝ) / D) := by
    intro u hu
    split
    · refine ⟨by omega, ?_⟩
      rw [Nat.cast_sub hu, ← Real.sin_pi_sub]
      congr 1
      field_simp
    · exact ⟨by omega, rfl⟩
  by_cases hneg : D ≤ 2 * j
  · obtain ⟨h1, h2⟩ := reflect (2 * j - D) (by omega)
    have e : foldAngle D j = (true, if D < 2 * (2 * j - D) then D - (2 * j - D) else 2 * j - D) := by
      simp [foldAngle, hneg]
    rw [e]
    refine ⟨h1, ?_⟩
    simp only [if_true, neg_one_mul]
    rw [← h2, Nat.cast_sub hneg, ← Real.sin_add_pi, turnSin]
    push_cast
    congr 1
    field_simp
    ring
  · obtain ⟨h1, h2⟩ := reflect (2 * j) (by omega)
    have e : foldAngle D j = (false, if D < 2 * (2 * j) then D - 2 * j else 2 * j) := by
      simp [foldAngle, hneg]
    rw [e]
    refine ⟨h1, ?_⟩
    simp only [Bool.false_eq_true, if_false, one_mul]
    rw [← h2, turnSin]
    push_cast
    congr 1
    ring

theorem turnSin_mod {D : ℕ} (hD : 0 < D) (j : ℕ) : turnSin D (j % D) = turnSin D j := by
  have hD' : (D : ℝ) ≠ 0 := by exact_mod_cast hD.ne'
  unfold turnSin
  rw [← Real.sin_add_nat_mul_two_pi (2 * Real.pi * ((j % D : ℕ) : ℝ) / D) (j / D)]
  congr 1
  have h : (j : ℝ) = D * ((j / D : ℕ) : ℝ) + ((j % D : ℕ) : ℝ) := by exact_mod_cast (Nat.div_add_mod j D).symm
  rw [h]
  field_simp
  ring

/-- `se` encloses the signed real `x` at precision `q`. -/
def SignedEncloses (q : ℕ) (se : SignedEnc) (x : ℝ) : Prop :=
  ∃ y, Encloses q se.2 y ∧ x = if se.1 then -y else y

theorem sineAt_encloses {q D : ℕ} {pi : Enc} (hpi : Encloses q pi Real.pi) (hD : 0 < D) (j : ℕ) :
    SignedEncloses q (sineAt q pi D j) (turnSin D j) := by
  obtain ⟨h1, h2⟩ := foldAngle_spec (Nat.mod_lt j hD)
  refine ⟨_, sinEnc_encloses hpi hD h1, ?_⟩
  rw [← turnSin_mod hD, h2]
  show _ = if (foldAngle D (j % D)).1 then _ else _
  split <;> simp

/-- `weigh` bounds the weighted sum. -/
theorem weigh_bounds {q : ℕ} {es : List SignedEnc} {xs : List ℝ} (h : List.Forall₂ (SignedEncloses q) es xs) :
    ∀ cs, ((weigh cs es).1 : ℝ) ≤ dot cs xs * 2 ^ q ∧ dot cs xs * 2 ^ q ≤ ((weigh cs es).2 : ℝ) := by
  induction h with
  | nil => intro cs; cases cs <;> simp [weigh]
  | @cons se x es xs hx _ ih =>
    intro cs
    cases cs with
    | nil => simp [weigh]
    | cons c cs =>
      obtain ⟨neg, e⟩ := se
      obtain ⟨y, ⟨y1, y2⟩, rfl⟩ := hx
      obtain ⟨i1, i2⟩ := ih cs
      have hd : (c : ℝ) * (if neg then -y else y) = ((if neg then -c else c : ℤ) : ℝ) * y := by
        cases neg <;> simp
      simp only [dot_cons, hd, add_mul, weigh]
      generalize (if neg then -c else c : ℤ) = d
      simp only at y1 y2
      split
      · rename_i h0
        have h0' : (0 : ℝ) ≤ d := by exact_mod_cast h0
        have m1 := mul_le_mul_of_nonneg_left y1 h0'
        have m2 := mul_le_mul_of_nonneg_left y2 h0'
        push_cast
        constructor <;> linarith
      · rename_i h0
        have h0' : (d : ℝ) ≤ 0 := by exact_mod_cast (not_le.1 h0).le
        have m1 := mul_le_mul_of_nonpos_left y1 h0'
        have m2 := mul_le_mul_of_nonpos_left y2 h0'
        push_cast
        constructor <;> linarith

/-- The bounds are as far apart as the enclosures are wide, weighted. -/
theorem weigh_width {W : ℝ} (hW : 0 ≤ W) :
    ∀ (es : List SignedEnc), (∀ e ∈ es, width e.2 ≤ W) → ∀ cs, ((weigh cs es).2 : ℝ) - (weigh cs es).1 ≤ absSum cs * W
  | [], _, cs => by
    have h0 : (0 : ℝ) ≤ absSum cs * W := mul_nonneg (Nat.cast_nonneg _) hW
    cases cs <;> simpa [weigh] using h0
  | (neg, e) :: es, he, [] => by simp [weigh, absSum]
  | (neg, e) :: es, he, c :: cs => by
    have ih := weigh_width hW es (fun e h => he e (List.mem_cons_of_mem _ h)) cs
    have hw : width e ≤ W := he (neg, e) (List.mem_cons_self ..)
    have hna : ((if neg then -c else c : ℤ)).natAbs = c.natAbs := by cases neg <;> simp
    simp only [weigh, absSum_cons, ← hna]
    generalize (if neg then -c else c : ℤ) = d
    simp only [width] at hw
    split
    · rename_i h0
      have hd : ((d.natAbs : ℕ) : ℝ) = d := by rw [Nat.cast_natAbs, abs_of_nonneg h0]
      have h0' : (0 : ℝ) ≤ d := by exact_mod_cast h0
      have m := mul_le_mul_of_nonneg_left hw h0'
      push_cast [hd]
      linarith
    · rename_i h0
      have hd : ((d.natAbs : ℕ) : ℝ) = -d := by
        rw [Nat.cast_natAbs, abs_of_neg (not_le.1 h0)]; push_cast; rfl
      have h0' : (0 : ℝ) ≤ -d := by
        have : (d : ℝ) ≤ 0 := by exact_mod_cast (not_le.1 h0).le
        linarith
      have m := mul_le_mul_of_nonneg_left hw h0'
      push_cast [hd]
      linarith

/-- A sign read off bounds is the sign. -/
theorem signOf_sound {b : ℤ × ℤ} {x s : ℝ} (hs : 0 < s) (h1 : (b.1 : ℝ) ≤ x * s) (h2 : x * s ≤ b.2) {r : Bool}
    (h : signOf b = some r) : r = true ↔ 0 ≤ x := by
  unfold signOf at h
  split at h
  · rename_i h0
    have h0' : (0 : ℝ) ≤ b.1 := by exact_mod_cast h0
    cases h
    simp only [true_iff]
    exact nonneg_of_mul_nonneg_left (h0'.trans h1) hs
  · split at h
    · rename_i h0
      have h0' : (b.2 : ℝ) < 0 := by exact_mod_cast h0
      cases h
      simp only [Bool.false_eq_true, false_iff, not_le]
      exact neg_of_mul_neg_left (h2.trans_lt h0') hs.le
    · cases h

/-- Bounds nearer together than the number is to 0 decide its sign. -/
theorem signOf_decides {b : ℤ × ℤ} {x s : ℝ} (h1 : (b.1 : ℝ) ≤ x * s) (h2 : x * s ≤ b.2)
    (h : (b.2 : ℝ) - b.1 < |x * s|) : signOf b ≠ none := by
  unfold signOf
  split
  · simp
  · rename_i h0
    have h0' : (b.1 : ℝ) < 0 := by exact_mod_cast not_le.1 h0
    split
    · simp
    · rename_i h3
      have h3' : (0 : ℝ) ≤ b.2 := by exact_mod_cast not_lt.1 h3
      exfalso
      rcases abs_cases (x * s) with ⟨e, _⟩ | ⟨e, _⟩ <;> rw [e] at h <;> linarith

end Sys2Proof.Laws
end

