-- ==== Sys2Proof/Laws/RootsOfUnity.lean ====
section
/-! SUPPORT. Integer combinations of sines at angles `2πj/n` are, up to the factor `2i`, integer combinations of `n`-th roots of
unity. The vanishing test of Machine/Sine.lean is exact, and a sum that does not vanish is not arbitrarily small. -/

namespace Sys2Proof.Laws

open Sys2Proof.Machine Polynomial

/-- `Σ c (w^j - w^(-j))` for `w^n = 1`. -/
def pairSum {R : Type*} [CommRing R] (n : ℕ) (cs : List ℤ) (js : List ℕ) (w : R) : R :=
  ((cs.zip js).map fun t => (t.1 : R) * (w ^ (t.2 % n) - w ^ ((n - t.2 % n) % n))).sum

/-- The value at `w` of the polynomial with the coefficients `l`. -/
def evalList {R : Type*} [CommRing R] (w : R) : List ℤ → R
  | [] => 0
  | a :: l => a + w * evalList w l

/-- The polynomial with the coefficients `l`. -/
noncomputable def polyOf : List ℤ → ℤ[X]
  | [] => 0
  | a :: l => C a + X * polyOf l

theorem aeval_polyOf {R : Type*} [CommRing R] (w : R) (l : List ℤ) : aeval w (polyOf l) = evalList w l := by
  induction l with
  | nil => simp [polyOf, evalList]
  | cons a l ih => simp [polyOf, evalList, ih]

theorem coeff_polyOf (l : List ℤ) (m : ℕ) : (polyOf l).coeff m = l.getD m 0 := by
  induction l generalizing m with
  | nil => simp [polyOf]
  | cons a l ih =>
    cases m with
    | zero => simp [polyOf]
    | succ m => rw [polyOf, coeff_add, coeff_C_succ, coeff_X_mul, ih, zero_add]; rfl

theorem degree_polyOf (l : List ℤ) : (polyOf l).degree < l.length := by
  rw [degree_lt_iff_coeff_zero]
  intro m hm
  rw [coeff_polyOf, List.getD_eq_default _ _ hm]

theorem evalList_append {R : Type*} [CommRing R] (w : R) (l m : List ℤ) :
    evalList w (l ++ m) = evalList w l + w ^ l.length * evalList w m := by
  induction l with
  | nil => simp [evalList]
  | cons a l ih => simp [evalList, ih, pow_succ]; ring

theorem evalList_zipSub {R : Type*} [CommRing R] (w : R) :
    ∀ l m : List ℤ, l.length = m.length → evalList w (List.zipWith (· - ·) l m) = evalList w l - evalList w m
  | [], [], _ => by simp [evalList]
  | a :: l, b :: m, h => by
    have := evalList_zipSub w l m (by simpa using h)
    simp [evalList, this]; ring

theorem length_rootDiff (d : ℕ) (l : List ℤ) : (rootDiff d l).length = l.length := by
  simp [rootDiff]

theorem evalList_rootDiff {R : Type*} [CommRing R] {w : R} {d : ℕ} {l : List ℤ} (hw : w ^ l.length = 1)
    (hd : d ≤ l.length) : evalList w (rootDiff d l) = (w ^ d - 1) * evalList w l := by
  have e := evalList_append w (l.take (l.length - d)) (l.drop (l.length - d))
  rw [List.take_append_drop] at e
  have hl : (l.take (l.length - d)).length = l.length - d := by simp
  have hp : w ^ d * w ^ (l.length - d) = 1 := by rw [← pow_add, Nat.add_sub_of_le hd, hw]
  unfold rootDiff
  rw [evalList_zipSub _ _ _ (by simp), evalList_append, e, hl]
  have : (l.drop (l.length - d)).length = d := by simp; omega
  rw [this]
  linear_combination (-evalList w (l.drop (l.length - d))) * hp

theorem length_foldl_rootDiff (ds : List ℕ) (l : List ℤ) :
    (ds.foldl (fun l d => rootDiff d l) l).length = l.length := by
  induction ds generalizing l with
  | nil => rfl
  | cons d ds ih => rw [List.foldl_cons, ih, length_rootDiff]

theorem evalList_foldl_rootDiff {R : Type*} [CommRing R] {w : R} (ds : List ℕ) :
    ∀ l : List ℤ, w ^ l.length = 1 → (∀ d ∈ ds, d ≤ l.length) →
      evalList w (ds.foldl (fun l d => rootDiff d l) l) = (ds.map fun d => w ^ d - 1).prod * evalList w l := by
  induction ds with
  | nil => intro l _ _; simp
  | cons d ds ih =>
    intro l hw hd
    rw [List.foldl_cons, ih _ (by rw [length_rootDiff]; exact hw)
      (fun e he => by rw [length_rootDiff]; exact hd e (List.mem_cons_of_mem _ he)),
      evalList_rootDiff hw (hd d (List.mem_cons_self ..)), List.map_cons, List.prod_cons]
    ring

theorem evalList_range {R : Type*} [CommRing R] (w : R) (n : ℕ) (f : ℕ → ℤ) :
    evalList w ((List.range n).map f) = ∑ m ∈ Finset.range n, (f m : R) * w ^ m := by
  induction n with
  | zero => simp [evalList]
  | succ n ih =>
    rw [List.range_succ, List.map_append, evalList_append, ih, Finset.sum_range_succ]
    simp [evalList]; ring

/-- The coefficient list of Machine/Sine.lean stands for `pairSum`. -/
theorem evalList_rootCoeffs {R : Type*} [CommRing R] {n : ℕ} (hn : 0 < n) (w : R) (cs : List ℤ) (js : List ℕ) :
    evalList w (rootCoeffs n cs js) = pairSum n cs js w := by
  unfold rootCoeffs pairSum
  rw [evalList_range]
  induction cs.zip js with
  | nil => simp
  | cons t l ih =>
    have h1 := Nat.mod_lt t.2 hn
    have h2 := Nat.mod_lt (n - t.2 % n) hn
    simp only [List.map_cons, List.sum_cons, Int.cast_add, add_mul, Finset.sum_add_distrib, ih]
    congr 1
    push_cast
    simp only [sub_mul, Finset.sum_sub_distrib, ite_mul, zero_mul, Finset.sum_ite_eq, Finset.mem_range, h1, h2,
      if_true]
    ring

/-- `2i` times the weighted sum of sines is `pairSum` at `exp(2πi/n)`. -/
theorem pairSum_exp {n : ℕ} (hn : 0 < n) (cs : List ℤ) (js : List ℕ) :
    pairSum n cs js (Complex.exp (2 * Real.pi * Complex.I / n)) =
      2 * Complex.I * (dot cs (js.map (turnSin n)) : ℝ) := by
  have hn' : (n : ℂ) ≠ 0 := by exact_mod_cast hn.ne'
  have hone : Complex.exp (2 * Real.pi * Complex.I / n) ^ n = 1 := by
    rw [← Complex.exp_nat_mul, mul_div_cancel₀ _ hn', Complex.exp_two_pi_mul_I]
  have hterm : ∀ j : ℕ, Complex.exp (2 * Real.pi * Complex.I / n) ^ (j % n) -
      Complex.exp (2 * Real.pi * Complex.I / n) ^ ((n - j % n) % n) = 2 * Complex.I * (turnSin n j : ℝ) := by
    intro j
    have hj := Nat.mod_lt j hn
    have h2 : Complex.exp (2 * Real.pi * Complex.I / n) ^ ((n - j % n) % n) =
        (Complex.exp (2 * Real.pi * Complex.I / n) ^ (j % n))⁻¹ := by
      refine eq_inv_of_mul_eq_one_left ?_
      rw [← pow_eq_pow_mod _ hone, ← pow_add, Nat.sub_add_cancel hj.le, hone]
    rw [h2, ← turnSin_mod hn, ← Complex.exp_nat_mul, ← Complex.exp_neg]
    have e : ((j % n : ℕ) : ℂ) * (2 * Real.pi * Complex.I / n) =
        ((2 * Real.pi * ((j % n : ℕ) : ℝ) / n : ℝ) : ℂ) * Complex.I := by push_cast; ring
    rw [e, turnSin, Complex.ofReal_sin, Complex.sin]
    rw [← neg_mul]
    have hI := Complex.I_sq
    generalize Complex.exp (((2 * Real.pi * ((j % n : ℕ) : ℝ) / n : ℝ) : ℂ) * Complex.I) = a
    generalize Complex.exp (-((2 * Real.pi * ((j % n : ℕ) : ℝ) / n : ℝ) : ℂ) * Complex.I) = b
    linear_combination (a - b) * hI
  unfold pairSum
  induction cs generalizing js with
  | nil => simp
  | cons c cs ih =>
    cases js with
    | nil => simp
    | cons j js =>
      rw [List.zip_cons_cons, List.map_cons, List.sum_cons, ih, List.map_cons, dot_cons, hterm]
      push_cast
      ring

theorem mem_properDivisors {n d : ℕ} :
    d ∈ (List.range n).filter (fun d => 0 < d ∧ n % d = 0) ↔ d < n ∧ 0 < d ∧ d ∣ n := by
  simp [Nat.dvd_iff_mod_eq_zero]

/-- The vanishing test decides whether the combination of roots of unity is zero. -/
theorem sineSumZeroAt_iff {n : ℕ} (hn : 0 < n) (cs : List ℤ) (js : List ℕ) {w : ℂ} (hw : IsPrimitiveRoot w n) :
    sineSumZeroAt n cs js = true ↔ pairSum n cs js w = 0 := by
  unfold sineSumZeroAt
  set l := rootCoeffs n cs js with hl
  have hlen : l.length = n := by simp [hl, rootCoeffs]
  set ds := (List.range n).filter (fun d => 0 < d ∧ n % d = 0) with hds
  set r := ds.foldl (fun l d => rootDiff d l) l with hr
  have hrlen : r.length = n := by rw [hr, length_foldl_rootDiff, hlen]
  have heval : ∀ v : ℂ, v ^ n = 1 → evalList v r = (ds.map fun d => v ^ d - 1).prod * evalList v l := by
    intro v hv
    refine evalList_foldl_rootDiff ds l (by rw [hlen]; exact hv) fun d hd => ?_
    rw [hlen]; exact (mem_properDivisors.1 hd).1.le
  rw [← evalList_rootCoeffs hn, ← hl]
  constructor
  · intro h
    have hz : ∀ a ∈ r, a = 0 := by simpa using h
    have h0 : evalList w r = 0 := by
      have : ∀ m : List ℤ, (∀ a ∈ m, a = 0) → evalList w m = 0 := by
        intro m
        induction m with
        | nil => intro _; rfl
        | cons a m ih =>
          intro hm
          simp [evalList, hm a (List.mem_cons_self ..), ih fun b hb => hm b (List.mem_cons_of_mem _ hb)]
      exact this r hz
    rw [heval w hw.pow_eq_one, mul_eq_zero] at h0
    refine h0.resolve_left ?_
    rw [List.prod_eq_zero_iff, List.mem_map]
    rintro ⟨d, hd, hd0⟩
    obtain ⟨h1, h2, -⟩ := mem_properDivisors.1 hd
    exact hw.pow_ne_one_of_pos_of_lt h2.ne' h1 (sub_eq_zero.1 hd0)
  · intro h
    have hroot : ∀ v : ℂ, v ^ n = 1 → evalList v r = 0 := by
      intro v hv
      rw [heval v hv, mul_eq_zero]
      by_cases hp : IsPrimitiveRoot v n
      · right
        have hdvd : cyclotomic n ℤ ∣ polyOf l := by
          rw [cyclotomic_eq_minpoly hw hn]
          exact minpoly.isIntegrallyClosed_dvd (hw.isIntegral hn) (by rw [aeval_polyOf, h])
        obtain ⟨Q, hQ⟩ := hdvd
        rw [← aeval_polyOf, hQ, map_mul, cyclotomic_eq_minpoly hp hn, minpoly.aeval, zero_mul]
      · left
        have hfin : orderOf v ∣ n := orderOf_dvd_of_pow_eq_one hv
        have hpos : 0 < orderOf v := Nat.pos_of_dvd_of_pos hfin hn
        have hlt : orderOf v < n := by
          refine lt_of_le_of_ne (Nat.le_of_dvd hn hfin) fun e => hp ?_
          rw [← e]; exact IsPrimitiveRoot.orderOf v
        rw [List.prod_eq_zero_iff, List.mem_map]
        exact ⟨orderOf v, mem_properDivisors.2 ⟨hlt, hpos, hfin⟩, by rw [pow_orderOf_eq_one, sub_self]⟩
    have hzero : (polyOf r).map (Int.castRingHom ℂ) = 0 := by
      refine eq_zero_of_degree_lt_of_eval_finset_eq_zero (nthRootsFinset n (1 : ℂ)) ?_ fun v hv => ?_
      · rw [hw.card_nthRootsFinset, ← hrlen]
        exact lt_of_le_of_lt degree_map_le (degree_polyOf r)
      · have := hroot v ((mem_nthRootsFinset hn 1).1 hv)
        rw [← aeval_polyOf, aeval_def, ← eval_map] at this
        exact this
    have hpoly : polyOf r = 0 := by
      rwa [Polynomial.map_eq_zero_iff (RingHom.injective_int _)] at hzero
    have hz : ∀ m, r.getD m 0 = 0 := fun m => by rw [← coeff_polyOf, hpoly, coeff_zero]
    simp only [List.all_eq_true, beq_iff_eq]
    intro a ha
    obtain ⟨m, hm, rfl⟩ := List.getElem_of_mem ha
    rw [← List.getD_eq_getElem r 0 hm, hz m]

end Sys2Proof.Laws
end

