-- ==== Sys2Proof/Laws/SineSign.lean ====
section
/-! SUPPORT. `sineSumNonneg` of Machine/Sine.lean answers exactly whether `Σ c sin(2πj/D) >= 0`. -/

namespace Sys2Proof.Laws

open Sys2Proof.Machine Polynomial

theorem map_pairSum {R S : Type*} [CommRing R] [CommRing S] (f : R →+* S) (n : ℕ) (cs : List ℤ) (js : List ℕ) (w : R) :
    f (pairSum n cs js w) = pairSum n cs js (f w) := by
  unfold pairSum
  rw [map_list_sum, List.map_map]
  congr 1
  refine List.map_congr_left fun t _ => ?_
  simp

theorem isIntegral_pairSum {R : Type*} [CommRing R] {n : ℕ} {w : R} (hw : IsIntegral ℤ w) (cs : List ℤ) (js : List ℕ) :
    IsIntegral ℤ (pairSum n cs js w) := by
  unfold pairSum
  induction cs.zip js with
  | nil => simpa using isIntegral_zero
  | cons t l ih =>
    rw [List.map_cons, List.sum_cons]
    refine IsIntegral.add (IsIntegral.mul ?_ ((hw.pow _).sub (hw.pow _))) ih
    exact isIntegral_algebraMap (R := ℤ) (A := R) (x := t.1)

theorem norm_pairSum_le {n : ℕ} {v : ℂ} (hv : ‖v‖ = 1) (cs : List ℤ) (js : List ℕ) :
    ‖pairSum n cs js v‖ ≤ 2 * absSum cs := by
  unfold pairSum
  induction cs generalizing js with
  | nil => simp [absSum]
  | cons c cs ih =>
    cases js with
    | nil => simp; positivity
    | cons j js =>
      rw [List.zip_cons_cons, List.map_cons, List.sum_cons, absSum_cons]
      refine (norm_add_le _ _).trans ?_
      have h2 : ‖v ^ (j % n) - v ^ ((n - j % n) % n)‖ ≤ 2 := by
        refine (norm_sub_le _ _).trans ?_
        rw [norm_pow, norm_pow, hv, one_pow, one_pow]; norm_num
      have hc : ‖((c : ℤ) : ℂ)‖ = (c.natAbs : ℝ) := by
        rw [Complex.norm_intCast, Nat.cast_natAbs]; push_cast; rfl
      have h3 : ‖((c : ℤ) : ℂ) * (v ^ (j % n) - v ^ ((n - j % n) % n))‖ ≤ (c.natAbs : ℝ) * 2 := by
        rw [norm_mul, hc]; exact mul_le_mul_of_nonneg_left h2 (by positivity)
      have := ih js
      push_cast
      linarith

/-- An integer combination of `n`-th roots of unity that is not zero is not small: its norm is a nonzero integer. -/
theorem pairSum_lower_of_field (K : Type) [Field K] [NumberField K] {n : ℕ} [NeZero n] [IsCyclotomicExtension {n} ℚ K]
    (hn : 0 < n) (cs : List ℤ) (js : List ℕ) {w : ℂ} (hw : IsPrimitiveRoot w n)
    (h0 : pairSum n cs js w ≠ 0) : 1 ≤ ‖pairSum n cs js w‖ * (2 * absSum cs : ℝ) ^ n := by
  classical
  obtain ⟨ζ, hζ⟩ : ∃ ζ : K, IsPrimitiveRoot ζ n := ⟨_, IsCyclotomicExtension.zeta_spec n ℚ K⟩
  have hirr := cyclotomic.irreducible_rat hn
  obtain ⟨e, he⟩ : ∃ e : (K →ₐ[ℚ] ℂ) ≃ primitiveRoots n ℂ, ∀ σ, (e σ : ℂ) = σ ζ :=
    ⟨hζ.embeddingsEquivPrimitiveRoots ℂ hirr, hζ.embeddingsEquivPrimitiveRoots_apply_coe ℂ hirr⟩
  obtain ⟨σ0, hs⟩ := e.surjective ⟨w, (mem_primitiveRoots hn).2 hw⟩
  have hσ0 : σ0 ζ = w := by rw [← he, hs]
  obtain ⟨x, hxdef⟩ : ∃ x : K, x = pairSum n cs js ζ := ⟨_, rfl⟩
  have hσ : ∀ σ : K →ₐ[ℚ] ℂ, σ x = pairSum n cs js (σ ζ) := fun σ => by
    rw [hxdef]; exact map_pairSum σ.toRingHom n cs js ζ
  have hx : x ≠ 0 := by
    intro hx
    apply h0
    rw [← hσ0, ← hσ, hx, map_zero]
  have hint : IsIntegral ℤ (Algebra.norm ℚ x) :=
    Algebra.isIntegral_norm ℚ (hxdef ▸ isIntegral_pairSum (hζ.isIntegral hn) cs js)
  obtain ⟨N, hN⟩ := IsIntegrallyClosed.isIntegral_iff.1 hint
  have hN0 : N ≠ 0 := by
    rintro rfl
    rw [map_zero] at hN
    exact hx (Algebra.norm_eq_zero_iff.1 hN.symm)
  have hN1 : (1 : ℝ) ≤ |(N : ℝ)| := by exact_mod_cast Int.one_le_abs hN0
  have hprod := Algebra.norm_eq_prod_embeddings ℚ ℂ x
  have hle : ∀ σ : K →ₐ[ℚ] ℂ, ‖σ x‖ ≤ 2 * absSum cs := by
    intro σ
    rw [hσ]
    refine norm_pairSum_le ?_ cs js
    refine Complex.norm_eq_one_of_pow_eq_one (n := n) ?_ hn.ne'
    rw [← map_pow, hζ.pow_eq_one, map_one]
  have hA : (1 : ℝ) ≤ 2 * absSum cs := by
    have : absSum cs ≠ 0 := by
      intro hz
      apply h0
      have := hle σ0
      rw [hσ, hσ0, hz] at this
      simpa using this
    have : (1 : ℝ) ≤ absSum cs := by exact_mod_cast Nat.one_le_iff_ne_zero.2 this
    linarith
  have hnorm : |(N : ℝ)| = ∏ σ : K →ₐ[ℚ] ℂ, ‖σ x‖ := by
    rw [← norm_prod, ← hprod, ← hN]
    simp
  have hcard : (Finset.univ.erase σ0).card ≤ n := by
    refine (Finset.card_le_univ _).trans ?_
    rw [Fintype.card_congr e, Fintype.card_coe, IsPrimitiveRoot.card_primitiveRoots hw]
    exact Nat.totient_le n
  calc (1 : ℝ) ≤ ∏ σ : K →ₐ[ℚ] ℂ, ‖σ x‖ := hnorm ▸ hN1
    _ = ‖σ0 x‖ * ∏ σ ∈ Finset.univ.erase σ0, ‖σ x‖ := (Finset.mul_prod_erase _ _ (Finset.mem_univ σ0)).symm
    _ ≤ ‖σ0 x‖ * (2 * absSum cs : ℝ) ^ (Finset.univ.erase σ0).card := by
        refine mul_le_mul_of_nonneg_left ?_ (norm_nonneg _)
        refine (Finset.prod_le_prod (fun σ _ => norm_nonneg (σ x)) (fun σ _ => hle σ)).trans ?_
        rw [Finset.prod_const]
    _ ≤ ‖pairSum n cs js w‖ * (2 * absSum cs : ℝ) ^ n := by
        rw [hσ, hσ0]
        exact mul_le_mul_of_nonneg_left (pow_le_pow_right₀ hA hcard) (norm_nonneg _)

theorem pairSum_lower {n : ℕ} (hn : 0 < n) (cs : List ℤ) (js : List ℕ) {w : ℂ} (hw : IsPrimitiveRoot w n)
    (h0 : pairSum n cs js w ≠ 0) : 1 ≤ ‖pairSum n cs js w‖ * (2 * absSum cs : ℝ) ^ n := by
  have : NeZero n := ⟨hn.ne'⟩
  have : IsCyclotomicExtension {n} ℚ (CyclotomicField n ℚ) := by
    have h := CyclotomicField.isCyclotomicExtension n ℚ
    convert h
    · rfl
    · exact Subsingleton.elim _ _
  exact pairSum_lower_of_field (CyclotomicField n ℚ) hn cs js hw h0

/-! ### The vanishing test over reals -/

/-- The combination of roots of unity vanishes exactly when the sum of sines does. -/
theorem norm_pairSum_exp {n : ℕ} (hn : 0 < n) (cs : List ℤ) (js : List ℕ) :
    ‖pairSum n cs js (Complex.exp (2 * Real.pi * Complex.I / n))‖ = 2 * |dot cs (js.map (turnSin n))| := by
  rw [pairSum_exp hn, norm_mul, norm_mul, Complex.norm_I, Complex.norm_real, Real.norm_eq_abs]
  norm_num

theorem sineSumZeroAt_iff_dot {n : ℕ} (hn : 0 < n) (cs : List ℤ) (js : List ℕ) :
    sineSumZeroAt n cs js = true ↔ dot cs (js.map (turnSin n)) = 0 := by
  rw [sineSumZeroAt_iff hn cs js (Complex.isPrimitiveRoot_exp n hn.ne'), ← norm_eq_zero, norm_pairSum_exp hn]
  simp

theorem foldl_gcd_dvd (js : List ℕ) : ∀ D : ℕ, js.foldl Nat.gcd D ∣ D ∧ ∀ j ∈ js, js.foldl Nat.gcd D ∣ j := by
  induction js with
  | nil => intro D; simp
  | cons j js ih =>
    intro D
    obtain ⟨h1, h2⟩ := ih (Nat.gcd D j)
    refine ⟨h1.trans (Nat.gcd_dvd_left _ _), fun k hk => ?_⟩
    rcases List.mem_cons.1 hk with rfl | hk
    · exact h1.trans (Nat.gcd_dvd_right _ _)
    · exact h2 k hk

/-- `sineSumZero` decides whether the weighted sum of sines is zero. -/
theorem sineSumZero_iff {D : ℕ} (hD : 0 < D) (cs : List ℤ) (js : List ℕ) :
    sineSumZero D cs js = true ↔ dot cs (js.map (turnSin D)) = 0 := by
  obtain ⟨h1, h2⟩ := foldl_gcd_dvd js D
  unfold sineSumZero
  set g := js.foldl Nat.gcd D with hg
  have hg0 : 0 < g := Nat.pos_of_dvd_of_pos h1 hD
  have hn : 0 < D / g := Nat.div_pos (Nat.le_of_dvd hD h1) hg0
  have hg' : (g : ℝ) ≠ 0 := by exact_mod_cast hg0.ne'
  have hmap : (js.map (· / g)).map (turnSin (D / g)) = js.map (turnSin D) := by
    rw [List.map_map]
    refine List.map_congr_left fun j hj => ?_
    show turnSin (D / g) (j / g) = turnSin D j
    unfold turnSin
    rw [Nat.cast_div h1 hg', Nat.cast_div (h2 j hj) hg']
    congr 1
    have : (D : ℝ) ≠ 0 := by exact_mod_cast hD.ne'
    field_simp
  show sineSumZeroAt (D / g) cs (js.map (· / g)) = true ↔ _
  rw [sineSumZeroAt_iff_dot hn, hmap]

/-! ### The refinement loop -/

theorem sineAt_forall₂ {q D : ℕ} {pi : Enc} (hpi : Encloses q pi Real.pi) (hD : 0 < D) (js : List ℕ) :
    List.Forall₂ (SignedEncloses q) (js.map (sineAt q pi D)) (js.map (turnSin D)) := by
  rw [List.forall₂_map_left_iff, List.forall₂_map_right_iff, List.forall₂_same]
  exact fun j _ => sineAt_encloses hpi hD j

/-- A sign the loop reads off at some precision is the sign of the sum. -/
theorem level_sound {q D : ℕ} {pi : Enc} (hpi : Encloses q pi Real.pi) (hD : 0 < D) (cs : List ℤ) (js : List ℕ) {b : Bool}
    (h : signOf (weigh cs (js.map (sineAt q pi D))) = some b) : b = true ↔ 0 ≤ dot cs (js.map (turnSin D)) := by
  obtain ⟨h1, h2⟩ := weigh_bounds (sineAt_forall₂ hpi hD js) cs
  exact signOf_sound (by positivity) h1 h2 h

/-- At a precision beyond the lower bound of a nonzero sum, the sign is read off. -/
theorem level_decides {q D a : ℕ} (hq : 64 ≤ q) (hD : 0 < D) (cs : List ℤ) (js : List ℕ)
    (ha : 2 * absSum cs ≤ 2 ^ a) (hqa : a * (D + 1) + 2 ≤ q / 4) (hX : dot cs (js.map (turnSin D)) ≠ 0) :
    signOf (weigh cs (js.map (sineAt q (piMachin q) D))) ≠ none := by
  obtain ⟨h1, h2⟩ := weigh_bounds (sineAt_forall₂ (piMachin_encloses q) hD js) cs
  refine signOf_decides h1 h2 ?_
  have hw := weigh_width (W := 3 * (2 ^ q / 2 ^ (q / 4))) (by positivity) (js.map (sineAt q (piMachin q) D))
    (fun e he => by
      obtain ⟨j, _, rfl⟩ := List.mem_map.1 he
      exact sinEnc_width hq hD (foldAngle_spec (Nat.mod_lt j hD)).1) cs
  refine hw.trans_lt ?_
  -- the lower bound
  have hlow := pairSum_lower hD cs js (Complex.isPrimitiveRoot_exp D hD.ne') (by
    rw [← norm_pos_iff, norm_pairSum_exp hD]; positivity)
  rw [norm_pairSum_exp hD] at hlow
  set X := dot cs (js.map (turnSin D))
  have hA : (2 * absSum cs : ℝ) ≤ 2 ^ a := by exact_mod_cast ha
  have hA0 : (0 : ℝ) ≤ absSum cs := by positivity
  have hAD : (2 * absSum cs : ℝ) ^ D ≤ (2 ^ a) ^ D := pow_le_pow_left₀ (by positivity) hA D
  have hbig : (2 : ℝ) ^ a * (2 ^ a) ^ D * 4 ≤ 2 ^ (q / 4) := by
    have e : (2 : ℝ) ^ a * (2 ^ a) ^ D * 4 = 2 ^ (a * (D + 1) + 2) := by
      rw [← pow_mul, ← pow_add, pow_add 2 (a * (D + 1)) 2]; norm_num; ring
    rw [e]
    exact pow_le_pow_right₀ (by norm_num) hqa
  have hP : (0 : ℝ) < 2 ^ (q / 4) := by positivity
  have hQ : (0 : ℝ) < 2 ^ q := by positivity
  have hXp : 0 < |X| := abs_pos.2 hX
  have hlow2 : 1 ≤ 2 * |X| * (2 ^ a) ^ D :=
    hlow.trans (mul_le_mul_of_nonneg_left hAD (by positivity))
  have ha1 : (0 : ℝ) < 2 ^ a := by positivity
  -- 3 A < |X| 2^(q/4)
  have key : 3 * (absSum cs : ℝ) < |X| * 2 ^ (q / 4) := by
    have k1 : |X| * (2 ^ a * (2 ^ a) ^ D * 4) ≤ |X| * 2 ^ (q / 4) := mul_le_mul_of_nonneg_left hbig hXp.le
    have k2 : 2 * (2 : ℝ) ^ a ≤ |X| * (2 ^ a * (2 ^ a) ^ D * 4) := by
      have := mul_le_mul_of_nonneg_left hlow2 (by positivity : (0 : ℝ) ≤ 2 * 2 ^ a)
      calc 2 * (2 : ℝ) ^ a = 2 * 2 ^ a * 1 := by ring
        _ ≤ _ := this
        _ = _ := by ring
    linarith
  rw [abs_mul, abs_of_pos hQ]
  have e : (absSum cs : ℝ) * (3 * (2 ^ q / 2 ^ (q / 4))) = (3 * absSum cs) * 2 ^ q / 2 ^ (q / 4) := by ring
  rw [e, div_lt_iff₀ hP]
  have := mul_lt_mul_of_pos_right key hQ
  linarith

/-- The loop answers the sign of a nonzero sum when the last precision it may try is fine enough. -/
theorem refineSign_iff {D a : ℕ} (hD : 0 < D) (cs : List ℤ) (js : List ℕ) (ha : 2 * absSum cs ≤ 2 ^ a)
    (hX : dot cs (js.map (turnSin D)) ≠ 0) :
    ∀ fuel q, 64 ≤ q → 4 * (a * (D + 1) + 3) ≤ q * 2 ^ fuel →
      (refineSign D cs js (fuel + 1) q = true ↔ 0 ≤ dot cs (js.map (turnSin D)))
  | fuel, q, hq, hqf => by
    unfold refineSign
    cases hb : signOf (weigh cs (js.map (sineAt q (piMachin q) D))) with
    | some b => exact level_sound (piMachin_encloses q) hD cs js hb
    | none =>
      cases fuel with
      | zero =>
        exact absurd hb (level_decides hq hD cs js ha (by omega) hX)
      | succ fuel =>
        refine refineSign_iff hD cs js ha hX fuel (2 * q) (by omega) ?_
        rw [pow_succ] at hqf
        linarith

/-- `sineSumNonneg` is exact (spec rules R9, R116): for every modulus and every weights that a command can present, it says
whether the real sum of sines is `>= 0`. -/
theorem sineSumNonneg_iff {D : ℕ} (hD : 0 < D) (hD33 : D ≤ 2 ^ 33) (cs : List ℤ) (js : List ℕ)
    (hcs : absSum cs ≤ 2 ^ 48) : sineSumNonneg D cs js = true ↔ 0 ≤ dot cs (js.map (turnSin D)) := by
  unfold sineSumNonneg
  rw [Bool.or_eq_true, sineSumZero_iff hD]
  by_cases hX : dot cs (js.map (turnSin D)) = 0
  · simp [hX]
  · rw [show refineFuel = 39 + 1 from rfl, show firstPrecision = 64 from rfl,
      refineSign_iff hD cs js (a := 49) (by rw [pow_succ]; omega) hX 39 64 le_rfl (by norm_num at hD33 ⊢; omega)]
    simp [hX]

end Sys2Proof.Laws
end

