-- ==== Sys2Proof/Laws/Ratio.lean ====
section
/-! SUPPORT. `scaledRatio` of Machine/Sine.lean is `floor(32767 sin(πu/D) / sin(πp/D))`, exactly. -/

namespace Sys2Proof.Laws

open Sys2Proof.Machine

theorem turnSin_double (D u : ℕ) : turnSin (2 * D) u = Real.sin (Real.pi * u / D) := by
  unfold turnSin
  congr 1
  push_cast
  rw [mul_assoc, mul_div_mul_left _ _ (by norm_num : (2 : ℝ) ≠ 0)]

/-- The exact comparison behind the search. -/
theorem atMost_iff {D p u m : ℕ} (hD : 0 < D) (hD32 : D ≤ 2 ^ 32) (hm : m ≤ 32767) :
    atMost D p u m = true ↔ m * Real.sin (Real.pi * p / D) ≤ 32767 * Real.sin (Real.pi * u / D) := by
  unfold atMost
  rw [sineSumNonneg_iff (by omega) (by omega) _ _ (by simp [absSum]; omega)]
  simp only [List.map_cons, List.map_nil, dot_cons, dot_nil, turnSin_double]
  push_cast
  constructor <;> intro h <;> linarith

/-- What the binary search finds. -/
theorem bisect_spec (ok : ℕ → Bool) :
    ∀ n lo, lo ≤ bisect ok n lo ∧ bisect ok n lo < lo + 2 ^ n ∧ (bisect ok n lo = lo ∨ ok (bisect ok n lo) = true) ∧
      (bisect ok n lo + 1 < lo + 2 ^ n → ok (bisect ok n lo + 1) = false)
  | 0, lo => by simp [bisect]
  | n + 1, lo => by
    unfold bisect
    have e : lo + 2 ^ (n + 1) = lo + 2 ^ n + 2 ^ n := by rw [pow_succ]; omega
    split
    · rename_i hok
      obtain ⟨h1, h2, h3, h4⟩ := bisect_spec ok n (lo + 2 ^ n)
      refine ⟨by omega, by omega, .inr ?_, fun h => h4 (by omega)⟩
      rcases h3 with h3 | h3
      · rw [h3]; exact hok
      · exact h3
    · rename_i hok
      obtain ⟨h1, h2, h3, h4⟩ := bisect_spec ok n lo
      refine ⟨h1, by omega, h3, fun h => ?_⟩
      by_cases hlt : bisect ok n lo + 1 < lo + 2 ^ n
      · exact h4 hlt
      · have : bisect ok n lo + 1 = lo + 2 ^ n := by omega
        rw [this]
        simpa using hok

/-- Folded angles: the sine is positive off 0 and grows with the angle. -/
theorem sin_fold_pos {D p : ℕ} (hp : 0 < p) (h2p : 2 * p ≤ D) : 0 < Real.sin (Real.pi * p / D) := by
  have hD : (0 : ℝ) < D := by exact_mod_cast (by omega : 0 < D)
  have hp' : (0 : ℝ) < p := by exact_mod_cast hp
  refine Real.sin_pos_of_pos_of_lt_pi (by positivity) ?_
  rw [div_lt_iff₀ hD]
  have : (p : ℝ) < D := by exact_mod_cast (by omega : p < D)
  exact mul_lt_mul_of_pos_left this Real.pi_pos

theorem sin_fold_mono {D u p : ℕ} (hup : u ≤ p) (h2p : 2 * p ≤ D) :
    Real.sin (Real.pi * u / D) ≤ Real.sin (Real.pi * p / D) := by
  rcases Nat.eq_zero_or_pos D with rfl | hD0
  · simp
  have hD : (0 : ℝ) < D := by exact_mod_cast hD0
  have h1 : (u : ℝ) ≤ p := by exact_mod_cast hup
  have h2 : (2 : ℝ) * p ≤ D := by exact_mod_cast h2p
  refine Real.sin_le_sin_of_le_of_le_pi_div_two ?_ ?_ ?_
  · have : 0 ≤ Real.pi * u / D := by positivity
    linarith [Real.pi_pos]
  · rw [div_le_div_iff₀ hD (by norm_num)]
    nlinarith [Real.pi_pos]
  · exact div_le_div_of_nonneg_right (mul_le_mul_of_nonneg_left h1 Real.pi_pos.le) hD.le

/-- `scaledRatio` is exact (spec rules R95, R96). -/
theorem scaledRatio_eq {D p u : ℕ} (hup : u ≤ p) (hp : 0 < p) (h2p : 2 * p ≤ D) (hD32 : D ≤ 2 ^ 32) :
    (scaledRatio D p u : ℤ) = ⌊32767 * Real.sin (Real.pi * u / D) / Real.sin (Real.pi * p / D)⌋ := by
  have hD : 0 < D := by omega
  have hP := sin_fold_pos hp h2p
  have hle := sin_fold_mono hup h2p
  have hU0 : 0 ≤ Real.sin (Real.pi * u / D) := by
    have := sin_fold_mono (Nat.zero_le u) (by omega : 2 * u ≤ D)
    simpa using this
  -- the floor, cleared of its division
  suffices h : (scaledRatio D p u : ℝ) * Real.sin (Real.pi * p / D) ≤ 32767 * Real.sin (Real.pi * u / D) ∧
      32767 * Real.sin (Real.pi * u / D) < (scaledRatio D p u + 1) * Real.sin (Real.pi * p / D) by
    symm
    rw [Int.floor_eq_iff, le_div_iff₀ hP, div_lt_iff₀ hP]
    exact_mod_cast h
  unfold scaledRatio
  split
  · rename_i h
    subst h
    push_cast
    exact ⟨le_rfl, by nlinarith⟩
  simp only
  obtain ⟨a1, a2⟩ := sinEnc_encloses piFirst_encloses hD (by omega : 2 * u ≤ D)
  obtain ⟨b1, b2⟩ := sinEnc_encloses piFirst_encloses hD h2p
  have hs : (0 : ℝ) < 2 ^ firstPrecision := by positivity
  have hat := fun m => atMost_iff (p := p) (u := u) (m := m) hD hD32
  generalize sinEnc firstPrecision piFirst D u = a at *
  generalize sinEnc firstPrecision piFirst D p = b at *
  generalize Real.sin (Real.pi * u / D) = U at *
  generalize Real.sin (Real.pi * p / D) = P at *
  split
  · rename_i hfast
    have hfast' : 32767 * (a.hi : ℝ) < ((32767 * a.lo / b.hi : ℕ) + 1) * b.lo := by exact_mod_cast hfast
    set g := 32767 * a.lo / b.hi with hg
    have hgb : (g : ℝ) * b.hi ≤ 32767 * a.lo := by
      have := Nat.div_mul_le_self (32767 * a.lo) b.hi
      rw [hg]; exact_mod_cast this
    constructor
    · refine le_of_mul_le_mul_right ?_ hs
      have : (g : ℝ) * (P * 2 ^ firstPrecision) ≤ g * b.hi := mul_le_mul_of_nonneg_left b2 (by positivity)
      nlinarith
    · refine lt_of_mul_lt_mul_right ?_ hs.le
      have : ((g : ℝ) + 1) * b.lo ≤ (g + 1) * (P * 2 ^ firstPrecision) :=
        mul_le_mul_of_nonneg_left b1 (by positivity)
      nlinarith
  · obtain ⟨-, h2, h3, h4⟩ := bisect_spec (atMost D p u) 15 0
    generalize bisect (atMost D p u) 15 0 = r at *
    rw [zero_add, show 2 ^ 15 = 32768 by norm_num] at h2 h4
    constructor
    · rcases h3 with h3 | h3
      · rw [h3]; push_cast; linarith
      · exact (hat r (by omega)).1 h3
    · by_cases hr : r + 1 < 32768
      · have := (hat (r + 1) (by omega)).not.1 (by rw [h4 hr]; decide)
        push_cast at this
        linarith
      · have hr' : r = 32767 := by omega
        rw [hr']; push_cast; linarith

end Sys2Proof.Laws
end

