-- ==== Sys2Proof/Laws/Waveform.lean ====
section
/-! SUPPORT. The modulator's and the demodulator's building blocks against the formulas over the reals: reference samples,
the peak, one quantised sample, one decision, and where each stands in the result. -/

namespace Sys2Proof.Laws

open Sys2Proof.Machine Sys2Proof.Safety

/-! ### Reference samples and the peak -/

/-- A reference sample (R91) is the sine of `f*k` parts in `N*S` of a turn. -/
theorem refSample_eq_turnSin (f N S k : ℕ) : refSample f N S k = turnSin (N * S) (f * k) := by
  unfold refSample turnSin
  push_cast
  congr 1
  ring

/-- The folded angle of a reference sample. -/
theorem refAngle_spec {N S : ℕ} (hD : 0 < N * S) (f k : ℕ) :
    2 * (refAngle (N * S) f k).2 ≤ N * S ∧ refSample f N S k =
      (if (refAngle (N * S) f k).1 then -1 else 1) * Real.sin (Real.pi * (refAngle (N * S) f k).2 / (N * S : ℕ)) := by
  rw [refSample_eq_turnSin, ← turnSin_mod hD]
  exact foldAngle_spec (Nat.mod_lt _ hD)

theorem foldl_max_bounds (l : List ℕ) : ∀ a : ℕ,
    a ≤ l.foldl max a ∧ (∀ x ∈ l, x ≤ l.foldl max a) ∧ (l.foldl max a = a ∨ l.foldl max a ∈ l) := by
  induction l with
  | nil => intro a; simp
  | cons b l ih =>
    intro a
    obtain ⟨h1, h2, h3⟩ := ih (max a b)
    rw [List.foldl_cons]
    refine ⟨le_trans (le_max_left _ _) h1, fun x hx => ?_, ?_⟩
    · rcases List.mem_cons.1 hx with rfl | hx
      · exact le_trans (le_max_right _ _) h1
      · exact h2 x hx
    · rcases h3 with h3 | h3
      · rcases max_choice a b with h | h
        · exact .inl (h3.trans h)
        · exact .inr (List.mem_cons.2 (.inl (h3.trans h)))
      · exact .inr (List.mem_cons_of_mem _ h3)

/-- Every sample's folded angle is at most the peak angle. -/
theorem refAngle_le_peakAngle {D N f k : ℕ} {fs : List ℕ} (hf : f ∈ fs) (hk : k < N) :
    (refAngle D f k).2 ≤ peakAngle D N fs := by
  have h1 := (foldl_max_bounds ((List.range N).map fun k => (refAngle D f k).2) 0).2.1 _
    (List.mem_map.2 ⟨k, List.mem_range.2 hk, rfl⟩)
  exact h1.trans ((foldl_max_bounds _ 0).2.1 _ (List.mem_map.2 ⟨f, hf, rfl⟩))

/-- The peak angle is 0 or some sample's folded angle. -/
theorem peakAngle_attained {D N : ℕ} {fs : List ℕ} (h : peakAngle D N fs ≠ 0) :
    ∃ f ∈ fs, ∃ k < N, (refAngle D f k).2 = peakAngle D N fs := by
  unfold peakAngle at h ⊢
  rcases (foldl_max_bounds (fs.map fun f => ((List.range N).map fun k => (refAngle D f k).2).foldl max 0) 0).2.2 with
    h0 | h1
  · exact absurd h0 h
  · obtain ⟨f, hf, he⟩ := List.mem_map.1 h1
    rw [← he] at h ⊢
    rcases (foldl_max_bounds ((List.range N).map fun k => (refAngle D f k).2) 0).2.2 with h0 | h2
    · exact absurd h0 h
    · obtain ⟨k, hk, hk2⟩ := List.mem_map.1 h2
      exact ⟨f, hf, k, List.mem_range.1 hk, hk2⟩

theorem two_mul_peakAngle_le {N S : ℕ} (hD : 0 < N * S) (fs : List ℕ) : 2 * peakAngle (N * S) N fs ≤ N * S := by
  by_cases h : peakAngle (N * S) N fs = 0
  · omega
  · obtain ⟨f, _, k, _, e⟩ := peakAngle_attained h
    rw [← e]
    exact (refAngle_spec hD f k).1

/-! ### The peak over the reals -/

theorem foldl_max_real (g : ℕ → ℝ) (l : List ℕ) : ∀ a : ℝ, a ≤ l.foldl (fun m j => max m (g j)) a ∧
    (∀ j ∈ l, g j ≤ l.foldl (fun m j => max m (g j)) a) ∧
    (l.foldl (fun m j => max m (g j)) a = a ∨ ∃ j ∈ l, l.foldl (fun m j => max m (g j)) a = g j) := by
  induction l with
  | nil => intro a; simp
  | cons b l ih =>
    intro a
    obtain ⟨h1, h2, h3⟩ := ih (max a (g b))
    rw [List.foldl_cons]
    refine ⟨le_trans (le_max_left _ _) h1, fun j hj => ?_, ?_⟩
    · rcases List.mem_cons.1 hj with rfl | hj
      · exact le_trans (le_max_right _ _) h1
      · exact h2 j hj
    · rcases h3 with h3 | ⟨j, hj, h3⟩
      · rcases max_choice a (g b) with h | h
        · exact .inl (h3.trans h)
        · exact .inr ⟨b, List.mem_cons_self .., h3.trans h⟩
      · exact .inr ⟨j, List.mem_cons_of_mem _ hj, h3⟩

theorem peak_nonneg (x : ℕ → ℝ) (n : ℕ) : 0 ≤ peak x n := (foldl_max_real (fun j => |x j|) _ 0).1

/-- No sample exceeds the peak (R95). -/
theorem abs_le_peak {x : ℕ → ℝ} {n j : ℕ} (hj : j < n) : |x j| ≤ peak x n :=
  (foldl_max_real (fun j => |x j|) _ 0).2.1 j (List.mem_range.2 hj)

/-- A peak that is not zero is some sample's magnitude (R95). -/
theorem peak_attained {x : ℕ → ℝ} {n : ℕ} (h : peak x n ≠ 0) : ∃ j < n, peak x n = |x j| := by
  rcases (foldl_max_real (fun j => |x j|) (List.range n) 0).2.2 with h0 | ⟨j, hj, h1⟩
  · exact absurd h0 h
  · exact ⟨j, List.mem_range.1 hj, h1⟩

/-! ### One sample of the modulator -/

theorem truncReal_neg (x : ℝ) : truncReal (-x) = -truncReal x := by
  unfold truncReal
  rcases lt_trichotomy x 0 with h | rfl | h
  · rw [if_pos (by linarith), if_neg (by linarith), neg_neg]
  · simp
  · rw [if_neg (by linarith), if_pos h.le, neg_neg]

theorem truncReal_of_nonneg {x : ℝ} (h : 0 ≤ x) : truncReal x = ⌊x⌋ := if_pos h

/-- One sample of a 1 bit (R95, R96): `trunc(32767 ref[k] / p)`, `p` the sine at the peak angle, or 0 when the peak is. -/
theorem quantSample_eq {N S pk f k : ℕ} (hD : 0 < N * S) (hD32 : N * S ≤ 2 ^ 32) (h2pk : 2 * pk ≤ N * S)
    (hle : (refAngle (N * S) f k).2 ≤ pk) :
    quantSample (N * S) pk f k = truncReal (32767 *
      (if Real.sin (Real.pi * pk / (N * S : ℕ)) = 0 then refSample f N S k
        else refSample f N S k / Real.sin (Real.pi * pk / (N * S : ℕ)))) := by
  obtain ⟨-, href⟩ := refAngle_spec hD f k
  unfold quantSample
  by_cases hpk : pk = 0
  · have hu : (refAngle (N * S) f k).2 = 0 := by omega
    rw [hu] at href
    simp [hpk, href, truncReal]
  · have hP := sin_fold_pos (Nat.pos_of_ne_zero hpk) h2pk
    have hs := scaledRatio_eq hle (Nat.pos_of_ne_zero hpk) h2pk hD32
    have hU : 0 ≤ Real.sin (Real.pi * (refAngle (N * S) f k).2 / (N * S : ℕ)) := by
      have := sin_fold_mono (D := N * S) (Nat.zero_le (refAngle (N * S) f k).2) (by omega)
      simpa using this
    rw [if_neg hpk, if_neg hP.ne', href]
    simp only
    generalize refAngle (N * S) f k = a at *
    have hnn : 0 ≤ 32767 * Real.sin (Real.pi * a.2 / (N * S : ℕ)) / Real.sin (Real.pi * pk / (N * S : ℕ)) := by
      positivity
    cases a.1
    · rw [if_neg (by simp), if_neg (by simp), one_mul, hs, ← mul_div_assoc, truncReal_of_nonneg hnn]
    · rw [if_pos rfl, if_pos rfl, neg_one_mul, neg_div, mul_neg, truncReal_neg, hs, ← mul_div_assoc,
        truncReal_of_nonneg hnn]

/-! ### Where the samples stand -/

@[simp] theorem length_quantSymbol (D N pk f : ℕ) : (quantSymbol D N pk f).length = N := by simp [quantSymbol]

theorem length_modulateFrom {tables : List (List ℤ)} {nc N : ℕ} :
    ∀ (T : List Bit) (i : ℕ), (∀ j, i ≤ j → j < i + T.length → (tables.getD (j % nc) []).length = N) →
      (modulateFrom tables nc T i).length = N * T.length
  | [], _, _ => by simp [modulateFrom]
  | b :: T, i, h => by
    have h0 := h i le_rfl (by simp)
    have := length_modulateFrom T (i + 1) (fun j h1 h2 => h j (by omega) (by simp at h2 ⊢; omega))
    simp only [modulateFrom, List.length_append, List.length_map, h0, this, List.length_cons]
    ring

theorem getElem?_modulateFrom {tables : List (List ℤ)} {nc N : ℕ} (hN : 0 < N) :
    ∀ (T : List Bit) (i j : ℕ), (∀ m, i ≤ m → m < i + T.length → (tables.getD (m % nc) []).length = N) →
      j < N * T.length →
      (modulateFrom tables nc T i)[j]? =
        ((tables.getD ((i + j / N) % nc) [])[j % N]?).map fun m => BitVec.ofInt 16 (if T.getD (j / N) false then m else -m)
  | [], _, j, _, hj => by simp at hj
  | b :: T, i, j, h, hj => by
    have h0 := h i le_rfl (by simp)
    unfold modulateFrom
    by_cases hlt : j < N
    · rw [List.getElem?_append_left (by rw [List.length_map, h0]; exact hlt), List.getElem?_map, Nat.div_eq_of_lt hlt,
        Nat.mod_eq_of_lt hlt]
      rfl
    · have ih := getElem?_modulateFrom hN T (i + 1) (j - N)
        (fun m h1 h2 => h m (by omega) (by simp at h2 ⊢; omega))
        (by rw [List.length_cons, mul_add, mul_one] at hj; omega)
      have hq : j / N = (j - N) / N + 1 := by
        rw [← Nat.add_div_right _ hN, Nat.sub_add_cancel (not_lt.1 hlt)]
      have hr : j % N = (j - N) % N := by
        rw [← Nat.add_mod_right (j - N) N, Nat.sub_add_cancel (not_lt.1 hlt)]
      rw [List.getElem?_append_right (by rw [List.length_map, h0]; exact not_lt.1 hlt), List.length_map, h0, ih, hq, hr]
      rw [show i + 1 + (j - N) / N = i + ((j - N) / N + 1) by omega]
      rfl

/-- The table of carrier `i mod NC` as `modulate` keeps it: only the first `len(T)` carriers are kept, and no other is used. -/
theorem usedTable {C : List ℕ} (hC : C ≠ []) (g : ℕ → List ℤ) {M i : ℕ} (hi : i < M) :
    ((C.take M).map g).getD (i % C.length) [] = g (C.getD (i % C.length) 0) := by
  have hlt : i % C.length < C.length := Nat.mod_lt _ (List.length_pos_iff.2 hC)
  have hle : i % C.length < M := lt_of_le_of_lt (Nat.mod_le _ _) hi
  rw [List.getD_eq_getElem?_getD, List.getD_eq_getElem?_getD, List.getElem?_map,
    List.getElem?_take_of_lt hle, List.getElem?_eq_getElem hlt]
  rfl

theorem length_modulate {C : List ℕ} (hC : C ≠ []) (T : List Bit) (R S : ℕ) :
    (modulate T R S C).length = R / S * T.length := by
  unfold modulate
  refine length_modulateFrom T 0 fun j _ hj => ?_
  rw [usedTable hC _ (by omega), length_quantSymbol]
  rfl

/-- Sample `j` of the modulated buffer: position `j mod N` of symbol `j / N` (R92 to R94). -/
theorem getElem?_modulate {C : List ℕ} (hC : C ≠ []) {T : List Bit} {R S j : ℕ} (hj : j < R / S * T.length) :
    (modulate T R S C)[j]? = some (BitVec.ofInt 16
      (let q := quantSample (R / S * S) (peakAngle (R / S * S) (R / S) (C.take T.length))
        (C.getD (j / (R / S) % C.length) 0) (j % (R / S))
       if T.getD (j / (R / S)) false then q else -q)) := by
  have hN : 0 < R / S := Nat.pos_of_ne_zero fun h => by simp [h] at hj
  have hi : j / (R / S) < T.length := by
    rw [Nat.div_lt_iff_lt_mul hN, mul_comm]; exact hj
  unfold modulate
  rw [getElem?_modulateFrom (N := R / S) hN T 0 j _ hj]
  · simp only [Nat.zero_add]
    rw [usedTable hC _ hi]
    simp [quantSymbol, samplesPerSymbol, Nat.mod_lt _ hN]
  · intro m _ hm
    rw [usedTable hC _ (by omega), length_quantSymbol]
    rfl

/-! ### The peak of the signal -/

/-- The magnitude of a reference sample. -/
theorem abs_refSample {N S : ℕ} (hD : 0 < N * S) (f k : ℕ) :
    |refSample f N S k| = Real.sin (Real.pi * (refAngle (N * S) f k).2 / (N * S : ℕ)) := by
  obtain ⟨h2, href⟩ := refAngle_spec hD f k
  have hU : 0 ≤ Real.sin (Real.pi * (refAngle (N * S) f k).2 / (N * S : ℕ)) := by
    have := sin_fold_mono (D := N * S) (Nat.zero_le (refAngle (N * S) f k).2) (by omega)
    simpa using this
  rw [href, abs_mul, abs_of_nonneg hU]
  split <;> simp

/-- The polarity does not change a magnitude (R93). -/
theorem abs_signal (T : List Bit) (R S : ℕ) (C : List ℕ) (j : ℕ) :
    |signal T R S C j| = |refSample (C.getD (j / (R / S) % C.length) 0) (R / S) S (j % (R / S))| := by
  unfold signal
  simp only
  rw [abs_mul]
  have : |((pol (T.getD (j / (R / S)) false) : ℤ) : ℝ)| = 1 := by
    unfold pol; split <;> simp
  rw [this, one_mul]

/-- The carrier of symbol `i` is among the first carriers kept. -/
theorem carrier_mem {C : List ℕ} (hC : C ≠ []) {M i : ℕ} (hi : i < M) : C.getD (i % C.length) 0 ∈ C.take M := by
  have hlt : i % C.length < C.length := Nat.mod_lt _ (List.length_pos_iff.2 hC)
  have hle : i % C.length < M := lt_of_le_of_lt (Nat.mod_le _ _) hi
  rw [List.getD_eq_getElem _ _ hlt]
  exact List.mem_take_iff_getElem.2 ⟨i % C.length, by omega, rfl⟩

/-- The peak over the reals is the sine at the peak angle. -/
theorem peak_signal {C : List ℕ} (hC : C ≠ []) {T : List Bit} {R S : ℕ} (hD : 0 < R / S * S) :
    peak (signal T R S C) (R / S * T.length) =
      Real.sin (Real.pi * peakAngle (R / S * S) (R / S) (C.take T.length) / (R / S * S : ℕ)) := by
  have hN : 0 < R / S := Nat.pos_of_mul_pos_right hD
  have h2 := two_mul_peakAngle_le hD (C.take T.length)
  apply le_antisymm
  · by_contra hcon
    have hne : peak (signal T R S C) (R / S * T.length) ≠ 0 := by
      have : 0 ≤ Real.sin (Real.pi * peakAngle (R / S * S) (R / S) (C.take T.length) / (R / S * S : ℕ)) := by
        have := sin_fold_mono (D := R / S * S) (Nat.zero_le (peakAngle (R / S * S) (R / S) (C.take T.length))) h2
        simpa using this
      intro h0; rw [h0] at hcon; exact hcon this
    obtain ⟨j, hj, e⟩ := peak_attained hne
    have hi : j / (R / S) < T.length := by
      rw [Nat.div_lt_iff_lt_mul hN, mul_comm]; exact hj
    have hle := refAngle_le_peakAngle (D := R / S * S) (carrier_mem hC hi) (Nat.mod_lt j hN)
    apply hcon
    rw [e, abs_signal, abs_refSample hD]
    exact sin_fold_mono hle h2
  · by_cases h0 : peakAngle (R / S * S) (R / S) (C.take T.length) = 0
    · rw [h0]; simpa using peak_nonneg _ _
    · obtain ⟨f, hf, k, hk, e⟩ := peakAngle_attained h0
      obtain ⟨i, hi, rfl⟩ := List.mem_take_iff_getElem.1 hf
      have hiT : i < T.length := by omega
      have hiC : i < C.length := by omega
      have hj : i * (R / S) + k < R / S * T.length := by
        calc i * (R / S) + k < (i + 1) * (R / S) := by rw [add_mul, one_mul]; omega
          _ ≤ T.length * (R / S) := Nat.mul_le_mul_right _ hiT
          _ = _ := mul_comm _ _
      have hle := abs_le_peak (x := signal T R S C) hj
      have hdiv : (i * (R / S) + k) / (R / S) = i := by
        rw [mul_comm, Nat.mul_add_div hN, Nat.div_eq_of_lt hk, add_zero]
      have hmod : (i * (R / S) + k) % (R / S) = k := by
        rw [mul_comm, Nat.mul_add_mod, Nat.mod_eq_of_lt hk]
      rw [abs_signal, hdiv, hmod, Nat.mod_eq_of_lt hiC, List.getD_eq_getElem _ _ hiC, abs_refSample hD, e] at hle
      exact hle

/-! ### One decision of the demodulator -/

theorem dot_map_range (c : ℕ → ℤ) (x : ℕ → ℝ) (n : ℕ) :
    dot ((List.range n).map c) ((List.range n).map x) = ∑ k ∈ Finset.range n, (c k : ℝ) * x k := by
  induction n with
  | zero => simp
  | succ n ih =>
    have e : ∀ (l : List ℤ) (m : List ℝ) (c : ℤ) (x : ℝ), l.length = m.length → dot (l ++ [c]) (m ++ [x]) = dot l m + c * x := by
      intro l m c x h
      unfold dot
      rw [List.zipWith_append h]
      simp
    rw [List.range_succ, List.map_append, List.map_append, List.map_singleton, List.map_singleton,
      e _ _ _ _ (by simp), ih, Finset.sum_range_succ]

theorem absSum_le {l : List ℤ} {b : ℕ} (h : ∀ c ∈ l, c.natAbs ≤ b) : absSum l ≤ l.length * b := by
  induction l with
  | nil => simp [absSum]
  | cons c l ih =>
    have h1 := h c (List.mem_cons_self ..)
    have h2 := ih fun d hd => h d (List.mem_cons_of_mem _ hd)
    rw [absSum_cons, List.length_cons, add_mul, one_mul]
    omega

theorem natAbs_toInt_le (x : I16) : x.toInt.natAbs ≤ 32768 := by
  have h1 := BitVec.toInt_lt (x := x)
  have h2 := BitVec.le_toInt (x := x)
  norm_num at h1 h2
  omega

/-- The correlation of a segment as a weighted sum of sines. -/
theorem dot_segment {N S f D : ℕ} {seg : List I16} (hseg : seg.length = N) {js : List ℕ}
    (hjs : js.map (turnSin D) = (List.range N).map (fun k => refSample f N S k)) :
    dot (seg.map (·.toInt)) (js.map (turnSin D)) =
      ∑ k ∈ Finset.range N, ((seg.getD k 0#16).toInt : ℝ) * refSample f N S k := by
  have hcs : seg.map (·.toInt) = (List.range N).map fun k => (seg.getD k 0#16).toInt := by
    refine List.ext_getElem (by simp [hseg]) fun k h1 _ => ?_
    have hk : k < seg.length := by simpa using h1
    rw [List.getElem_map, List.getElem_map, List.getElem_range, List.getD_eq_getElem _ _ hk]
  rw [hjs, hcs, dot_map_range]

/-- The decision (R115, R116): the bit is 1 exactly when the correlation over the reals is `>= 0`. -/
theorem decideBit_iff {N S f : ℕ} (hD : 0 < N * S) (hD32 : N * S ≤ 2 ^ 32) {seg : List I16} (hseg : seg.length = N) :
    decideBit (N * S) f (refTable (N * S) N f) seg = true ↔
      0 ≤ ∑ k ∈ Finset.range N, ((seg.getD k 0#16).toInt : ℝ) * refSample f N S k := by
  unfold decideBit
  simp only
  have htab : refTable (N * S) N f = ((List.range N).map fun k => f * k).map (sineAt firstPrecision piFirst (N * S)) := by
    simp [refTable]
  rw [htab]
  cases hb : signOf (weigh (seg.map (·.toInt))
      (((List.range N).map fun k => f * k).map (sineAt firstPrecision piFirst (N * S)))) with
  | some b =>
    rw [← dot_segment hseg (D := N * S) (js := (List.range N).map fun k => f * k) (by simp [refSample_eq_turnSin])]
    exact level_sound piFirst_encloses hD _ _ hb
  | none =>
    simp only
    have hN : N ≤ 2 ^ 32 := le_trans (Nat.le_mul_of_pos_right N (Nat.pos_of_mul_pos_left hD)) hD32
    have hA : absSum (seg.map (·.toInt)) ≤ 2 ^ 48 := by
      refine (absSum_le (b := 32768) ?_).trans ?_
      · intro c hc
        obtain ⟨x, _, rfl⟩ := List.mem_map.1 hc
        exact natAbs_toInt_le x
      · rw [List.length_map, hseg]; omega
    rw [sineSumNonneg_iff hD (by omega) _ _ hA, dot_segment hseg]
    rw [List.map_map, hseg]
    refine List.map_congr_left fun k _ => ?_
    show turnSin (N * S) (f * k % (N * S)) = _
    rw [turnSin_mod hD, refSample_eq_turnSin]

@[simp] theorem length_demodulateFrom (D : ℕ) (C : List ℕ) (tables : List (List SignedEnc)) :
    ∀ (segs : List (List I16)) (i : ℕ), (demodulateFrom D C tables segs i).length = segs.length
  | [], _ => rfl
  | seg :: segs, i => by simp [demodulateFrom, length_demodulateFrom D C tables segs]

theorem getElem?_demodulateFrom (D : ℕ) (C : List ℕ) (tables : List (List SignedEnc)) :
    ∀ (segs : List (List I16)) (i m : ℕ), (demodulateFrom D C tables segs i)[m]? =
      (segs[m]?).map fun seg =>
        decideBit D (C.getD ((i + m) % C.length) 0) (tables.getD ((i + m) % C.length) []) seg
  | [], _, _ => by simp [demodulateFrom]
  | seg :: segs, i, 0 => by simp [demodulateFrom]
  | seg :: segs, i, m + 1 => by
    rw [demodulateFrom, List.getElem?_cons_succ, getElem?_demodulateFrom D C tables segs, List.getElem?_cons_succ,
      show i + 1 + m = i + (m + 1) by omega]

theorem length_demodulate (s : List I16) (Ra S : ℕ) (C : List ℕ) :
    (demodulate s Ra S C).length = s.length / (Ra / S) := by
  simp [demodulate, samplesPerSymbol]

/-- Bit `i` of the demodulated buffer is the decision on segment `i` with carrier `i mod NC` (R113). -/
theorem getElem?_demodulate {C : List ℕ} (hC : C ≠ []) {s : List I16} {Ra S i : ℕ} (hi : i < s.length / (Ra / S)) :
    (demodulate s Ra S C)[i]? = some (decideBit (Ra / S * S) (C.getD (i % C.length) 0)
      (refTable (Ra / S * S) (Ra / S) (C.getD (i % C.length) 0)) (slice s (i * (Ra / S)) (i * (Ra / S) + Ra / S))) := by
  have htab : ∀ g : ℕ → List SignedEnc, ((C.take (s.length / (Ra / S))).map g).getD (i % C.length) [] =
      g (C.getD (i % C.length) 0) := by
    intro g
    have hlt : i % C.length < C.length := Nat.mod_lt _ (List.length_pos_iff.2 hC)
    rw [List.getD_eq_getElem?_getD, List.getD_eq_getElem?_getD, List.getElem?_map,
      List.getElem?_take_of_lt (lt_of_le_of_lt (Nat.mod_le _ _) hi), List.getElem?_eq_getElem hlt]
    rfl
  unfold demodulate
  simp only [samplesPerSymbol]
  rw [getElem?_demodulateFrom, getElem?_segments _ _ _ _ hi]
  simp only [Option.map_some, Nat.zero_add, htab]

/-! ### The arithmetic `NUM` -/

@[simp] theorem modulateNum_exact (T : List Bit) (R S : ℕ) (C : List ℕ) :
    modulateNum .exact T R S C = modulate T R S C := rfl
@[simp] theorem demodulateNum_exact (s : List I16) (Ra S : ℕ) (C : List ℕ) :
    demodulateNum .exact s Ra S C = demodulate s Ra S C := rfl

theorem length_modulateNum {C : List ℕ} (hC : C ≠ []) (num : Numerics) (T : List Bit) (R S : ℕ) :
    (modulateNum num T R S C).length = R / S * T.length := by
  cases num <;> simp [modulateNum, modulateInexact, length_modulate hC]

@[simp] theorem length_demodulateNum (num : Numerics) (s : List I16) (Ra S : ℕ) (C : List ℕ) :
    (demodulateNum num s Ra S C).length = s.length / (Ra / S) := by
  cases num <;> simp [demodulateNum, demodulateInexact, length_demodulate]

/-- The test of R101: the value before `trunc` is a nonzero integer. -/
theorem wholeBeforeTrunc_iff {D pk u : ℕ} (hD : 0 < D) (hD32 : D ≤ 2 ^ 32) (h2 : 2 * pk ≤ D) :
    wholeBeforeTrunc D pk u = true ↔ pk ≠ 0 ∧ scaledRatio D pk u ≠ 0 ∧
      32767 * Real.sin (Real.pi * u / D) / Real.sin (Real.pi * pk / D) = scaledRatio D pk u := by
  unfold wholeBeforeTrunc
  simp only [Bool.and_eq_true, bne_iff_ne, sineSumZero_iff (D := 2 * D) (by omega), List.map_cons, List.map_nil, dot_cons,
    dot_nil, turnSin_double, and_assoc]
  refine and_congr_right fun hpk => and_congr_right fun _ => ?_
  rw [div_eq_iff (sin_fold_pos (Nat.pos_of_ne_zero hpk) h2).ne']
  push_cast
  constructor <;> intro h <;> linarith

/-- A sample of the modulated buffer in either arithmetic: the exact one, or, in an inexact arithmetic and only where the value
before `trunc` is a nonzero integer, one unit lower in magnitude. -/
theorem getElem?_modulateNum {C : List ℕ} (num : Numerics) (T : List Bit) (R S j : ℕ) :
    (modulateNum num T R S C)[j]? = (modulate T R S C)[j]? ∨
      num = .inexact ∧ wholeBeforeTrunc (R / S * S) (peakAngle (R / S * S) (R / S) (C.take T.length))
          (refAngle (R / S * S) (C.getD (j / (R / S) % C.length) 0) (j % (R / S))).2 = true ∧
        (modulateNum num T R S C)[j]? = (modulate T R S C)[j]?.map oneTowardZero := by
  cases num with
  | exact => exact .inl rfl
  | inexact =>
    simp only [modulateNum, modulateInexact, samplesPerSymbol, List.getElem?_mapIdx]
    by_cases h : wholeBeforeTrunc (R / S * S) (peakAngle (R / S * S) (R / S) (C.take T.length))
        (refAngle (R / S * S) (C.getD (j / (R / S) % C.length) 0) (j % (R / S))).2 = true
    · by_cases g : Config.oneUnitLower T R S C j = true
      · exact .inr ⟨trivial, h, by simp only [h, g, Bool.and_self, if_true]⟩
      · exact .inl (by simp only [g, Bool.and_false, Bool.false_eq_true, if_false, Option.map_id'])
    · exact .inl (by simp only [h, Bool.false_and, Bool.false_eq_true, if_false, Option.map_id'])

/-- A decided bit in either arithmetic: the exact one, unless the arithmetic is inexact and the segment is tied. -/
theorem getElem?_demodulateNum {C : List ℕ} (num : Numerics) (s : List I16) (Ra S i : ℕ)
    (h : num = .exact ∨ tied (Ra / S * S) (C.getD (i % C.length) 0) (slice s (i * (Ra / S)) (i * (Ra / S) + Ra / S)) = false) :
    (demodulateNum num s Ra S C)[i]? = (demodulate s Ra S C)[i]? := by
  cases num with
  | exact => rfl
  | inexact =>
    have h := h.resolve_left (by decide)
    simp only [demodulateNum, demodulateInexact, samplesPerSymbol, List.getElem?_mapIdx]
    simp only [h, Bool.false_eq_true, if_false, Option.map_id']

/-- The test of U4: the correlation is exactly zero and some sample is not. -/
theorem tied_iff {N S f : ℕ} (hD : 0 < N * S) {seg : List I16} (hseg : seg.length = N) :
    tied (N * S) f seg = true ↔ (∃ x ∈ seg, x ≠ 0#16) ∧
      ∑ k ∈ Finset.range N, ((seg.getD k 0#16).toInt : ℝ) * refSample f N S k = 0 := by
  unfold tied
  rw [Bool.and_eq_true, sineSumZero_iff hD, List.any_eq_true]
  simp only [bne_iff_ne]
  rw [dot_segment hseg]
  rw [List.map_map, hseg]
  refine List.map_congr_left fun k _ => ?_
  show turnSin (N * S) (f * k % (N * S)) = _
  rw [turnSin_mod hD, refSample_eq_turnSin]

end Sys2Proof.Laws
end

