-- ==== Sys2Proof/Laws/Memory.lean ====
section
/-! SUPPORT. The buffers keep their form (spec/20_memory.md R46): every phase answers a result that fits its destination, so every
write of a buffer keeps `Memory.wf`. -/

namespace Sys2Proof.Laws

open Sys2Proof.Machine

theorem memory_wf_iff (s : State) :
    Memory.wf s = true ↔ fits s.bytes.length s.par.capBytes = true ∧ fits s.bits.length s.par.capBits = true ∧
      fits s.rem.length s.par.capBits = true ∧ fits s.samples.length s.par.capSamples = true := by
  simp [Memory.wf, and_assoc]

/-- A shorter sequence fits where a longer one does. -/
theorem fits_mono {m n : ℕ} {cap : Option ℕ} (h : m ≤ n) (hn : fits n cap = true) : fits m cap = true := by
  cases cap with
  | none => rfl
  | some c => simp only [fits, decide_eq_true_eq] at *; omega

theorem fits_zero (cap : Option ℕ) : fits 0 cap = true := by cases cap <;> simp [fits]

/-! ### What each phase answers -/

theorem unpackPhase_ok {p : Params} {B : List Byte} {T : List Bit} (h : unpackPhase p B = .ok T) :
    fits (8 * B.length) p.capBits = true ∧ T = bytesToBits B := by
  unfold unpackPhase at h
  split at h
  · exact ⟨‹_›, by cases h; rfl⟩
  · cases h

theorem packPhase_ok {p : Params} {T : List Bit} {B : List Byte} (h : packPhase p T = .ok B) :
    T.length % 8 = 0 ∧ fits (T.length / 8) p.capBytes = true ∧ B = bytesOfGroups T := by
  unfold packPhase at h
  rw [bitsToBytes_eq] at h
  by_cases h8 : T.length % 8 = 0
  · rw [if_pos h8] at h
    simp only at h
    split at h
    · exact ⟨h8, ‹_›, by cases h; rfl⟩
    · cases h
  · rw [if_neg h8] at h
    cases h

theorem framePhase_ok {p : Params} {P F : List Bit} (h : framePhase p P = .ok F) :
    P.length ≤ 2 ^ 32 - 1 ∧ fits (32 + P.length) p.capBits = true ∧ F = buildFrame P := by
  unfold framePhase at h
  split at h
  · cases h
  · split at h
    · exact ⟨by omega, ‹_›, by cases h; rfl⟩
    · cases h

theorem parseFrame_ok {F : List Bit} {f : Parsed} (h : parseFrame F = .ok f) :
    32 ≤ F.length ∧ f.payload = slice F 32 (32 + bitsValue (slice F 0 32)) ∧
      f.remaining = slice F (32 + bitsValue (slice F 0 32)) F.length ∧
      f.declared = BitVec.ofNat 32 (bitsValue (slice F 0 32)) := by
  rw [parseFrame_eq] at h
  split at h
  · cases h
  · cases h; exact ⟨by omega, rfl, rfl, rfl⟩

theorem modulatePhase_ok {p : Params} {c : Cfg} {T : List Bit} {v : List I16} (h : modulatePhase p c T = .ok v) :
    fits (c.srate.toNat / c.symrate.toNat * T.length) p.capSamples = true ∧
      v = modulateNum p.num T c.srate.toNat c.symrate.toNat (carriers c) := by
  unfold modulatePhase at h
  split at h
  · exact ⟨‹_›, by cases h; rfl⟩
  · cases h

theorem demodulatePhase_ok {p : Params} {c : Cfg} {Ra : U32} {v : List I16} {T : List Bit}
    (h : demodulatePhase p c Ra v = .ok T) :
    Ra.toNat / c.symrate.toNat ≠ 0 ∧ fits (v.length / (Ra.toNat / c.symrate.toNat)) p.capBits = true ∧
      T = demodulateNum p.num v Ra.toNat c.symrate.toNat (carriers c) := by
  change (if Ra.toNat / c.symrate.toNat = 0 then Except.error Err.degenerateRate
    else if fits (v.length / (Ra.toNat / c.symrate.toNat)) p.capBits then
      .ok (demodulateNum p.num v Ra.toNat c.symrate.toNat (carriers c))
    else Except.error Err.capacity) = Except.ok T at h
  split at h
  · cases h
  · split at h
    · exact ⟨‹_›, ‹_›, by cases h; rfl⟩
    · cases h

/-- The carrier list of a legal configuration is not empty. -/
theorem carriers_ne_nil {c : Cfg} {p : Params} (h : c.legal p = true) : carriers c ≠ [] := by
  simp only [Cfg.legal, Bool.and_eq_true, decide_eq_true_eq, beq_iff_eq] at h
  intro h0
  have := congrArg List.length h0
  rw [carriers, List.length_map, List.length_take, List.length_nil] at this
  omega

/-! ### Every result fits its destination -/

theorem unpackPhase_fits {p : Params} {B : List Byte} {T : List Bit} (h : unpackPhase p B = .ok T) :
    fits T.length p.capBits = true := by
  obtain ⟨h1, rfl⟩ := unpackPhase_ok h
  rwa [length_bytesToBits]

theorem packPhase_fits {p : Params} {T : List Bit} {B : List Byte} (h : packPhase p T = .ok B) :
    fits B.length p.capBytes = true := by
  obtain ⟨-, h1, rfl⟩ := packPhase_ok h
  rwa [length_bytesOfGroups]

theorem framePhase_fits {p : Params} {P F : List Bit} (h : framePhase p P = .ok F) : fits F.length p.capBits = true := by
  obtain ⟨-, h1, rfl⟩ := framePhase_ok h
  rwa [length_buildFrame]

theorem parseFrame_fits {cap : Option ℕ} {F : List Bit} {f : Parsed} (h : parseFrame F = .ok f)
    (hF : fits F.length cap = true) : fits f.payload.length cap = true ∧ fits f.remaining.length cap = true := by
  obtain ⟨-, h1, h2, -⟩ := parseFrame_ok h
  rw [h1, h2, length_slice, length_slice]
  exact ⟨fits_mono (by omega) hF, fits_mono (by omega) hF⟩

theorem modulatePhase_fits {p : Params} {c : Cfg} {T : List Bit} {v : List I16} (hc : c.legal p = true)
    (h : modulatePhase p c T = .ok v) : fits v.length p.capSamples = true := by
  obtain ⟨h1, rfl⟩ := modulatePhase_ok h
  rwa [length_modulateNum (carriers_ne_nil hc)]

theorem demodulatePhase_fits {p : Params} {c : Cfg} {Ra : U32} {v : List I16} {T : List Bit}
    (h : demodulatePhase p c Ra v = .ok T) : fits T.length p.capBits = true := by
  obtain ⟨-, h1, rfl⟩ := demodulatePhase_ok h
  rwa [length_demodulateNum]

/-! ### Every write keeps the form -/

theorem emit_wf (s : State) (o : Obs) : Memory.wf (s.emit o) = Memory.wf s := rfl

theorem setBytes_wf {s : State} {v : List Byte} (h : Memory.wf s = true) (hv : fits v.length s.par.capBytes = true) :
    Memory.wf { s with bytes := v } = true := by
  rw [memory_wf_iff] at *; exact ⟨hv, h.2⟩

theorem setBits_wf {s : State} {v : List Bit} (h : Memory.wf s = true) (hv : fits v.length s.par.capBits = true) :
    Memory.wf { s with bits := v } = true := by
  rw [memory_wf_iff] at *; exact ⟨h.1, hv, h.2.2⟩

theorem setRem_wf {s : State} {v : List Bit} (h : Memory.wf s = true) (hv : fits v.length s.par.capBits = true) :
    Memory.wf { s with rem := v } = true := by
  rw [memory_wf_iff] at *; exact ⟨h.1, h.2.1, hv, h.2.2.2⟩

theorem setSamples_wf {s : State} {v : List I16} (h : Memory.wf s = true) (hv : fits v.length s.par.capSamples = true) :
    Memory.wf { s with samples := v } = true := by
  rw [memory_wf_iff] at *; exact ⟨h.1, h.2.1, h.2.2.1, hv⟩

theorem setScalars_wf (s : State) (a h' : U32) : Memory.wf { s with arate := a, hlen := h' } = Memory.wf s := rfl

theorem applyReset_wf (s : State) (c : Cfg) : Memory.wf (applyReset s c) = true := by
  rw [memory_wf_iff]; exact ⟨fits_zero _, fits_zero _, fits_zero _, fits_zero _⟩

theorem reset_wf : Memory.wf State.reset = true := by decide

end Sys2Proof.Laws
end

