-- ==== Sys2Proof/Laws/Ops.lean ====
section
/-! SUPPORT. Everything the shared operations can do, said once: raising an error, success, `report`, the legality guard, the
reset parameter, the write ports. -/

namespace Sys2Proof.Laws

open Sys2Proof.Machine

@[simp] theorem raise_eq (e : Err) (w : Bool) (s : State) :
    raise e w s = .next { s with shown := s.shown ++ [.status (statusWord w (some e))] } := rfl

@[simp] theorem succeed_eq (w : Bool) (t : State) :
    succeed w t = .next { t with shown := t.shown ++ [.status (statusWord w none)] } := rfl

@[simp] theorem report_ok (w : Bool) (s t : State) : report w s (.ok t) = succeed w t := rfl
@[simp] theorem report_error (w : Bool) (s : State) (e : Err) : report w s (.error e) = raise e w s := rfl

/-- What `report` answers: the new state with `ERR = 0`, or the old one with the error. -/
theorem report_cases {w : Bool} {s t' : State} {r : Except Err State} (h : report w s r = .next t') :
    (∃ t, r = .ok t ∧ t' = t.emit (.status (statusWord w none))) ∨
      (∃ e, r = .error e ∧ t' = s.emit (.status (statusWord w (some e)))) := by
  cases r with
  | ok t => exact .inl ⟨t, rfl, by cases h; rfl⟩
  | error e => exact .inr ⟨e, rfl, by cases h; rfl⟩

/-- `report` always answers a next state. -/
theorem report_next (w : Bool) (s : State) (r : Except Err State) : ∃ t, report w s r = .next t := by
  cases r <;> exact ⟨_, rfl⟩

theorem requireLegal_legal {s : State} (h : s.cfg.legal s.par = true) (r) : requireLegal s r = r := by
  simp [requireLegal, h]

theorem requireLegal_illegal {s : State} (h : s.cfg.legal s.par = false) (r) :
    requireLegal s r = .refused .illegalConfiguration := by
  simp [requireLegal, h]

/-- A guarded command that answers a next state had a legal configuration. -/
theorem requireLegal_cases {s t : State} {r} (h : requireLegal s r = .next t) :
    s.cfg.legal s.par = true ∧ r = .next t := by
  unfold requireLegal at h
  split at h
  · exact ⟨‹_›, h⟩
  · cases h

/-- A status word read back: bits 7:5, bit 4, bits 3:0 (R60). -/
theorem statusWord_fields (w : Bool) (e : Option Err) :
    (statusWord w e).extractLsb' 5 3 = 0#3 ∧ (statusWord w e).getLsbD 4 = w ∧
      (statusWord w e).extractLsb' 0 4 = errField e := by
  cases w <;> cases e <;> (try rename_i e; cases e) <;> decide

/-- The error code is 0 exactly on success (R141). -/
theorem errField_eq_zero {e : Option Err} : errField e = 0#4 ↔ e = none := by
  cases e with
  | none => simp [errField]
  | some e => cases e <;> simp [errField, Err.code]

/-- What a reset parameter that is accepted gives (R22, R170). -/
theorem resetCfg_some {p : Params} {r : ResetParam} {c : Cfg} (h : resetCfg p r = some c) :
    r.wf p = true ∧ c.legal p = true ∧ c.srate = r.srate.getD 19000#32 ∧ c.symrate = r.symrate.getD 50#32 ∧
      c.ncar = r.ncar.getD 6 ∧ resetCarriers r (r.ncar.getD 6) 0 = some c.car := by
  unfold resetCfg at h
  split at h
  · rename_i hw
    split at h
    · rename_i car hc
      simp only at h
      split at h
      · rename_i hl
        cases h
        exact ⟨hw, hl, rfl, rfl, rfl, hc⟩
      · cases h
    · cases h
  · cases h

/-- The carriers a reset parameter gives, one by one. -/
theorem resetCarriers_some {r : ResetParam} :
    ∀ {n j : ℕ} {car : List U32}, resetCarriers r n j = some car →
      car.length = n ∧ ∀ i < n, car[i]? = resetCarrier r (j + i)
  | 0, j, car, h => by cases h; simp
  | n + 1, j, car, h => by
    unfold resetCarriers at h
    split at h
    · rename_i f fs hf hfs
      cases h
      obtain ⟨h1, h2⟩ := resetCarriers_some hfs
      refine ⟨by simp [h1], fun i hi => ?_⟩
      cases i with
      | zero => simpa using hf.symm
      | succ i =>
        rw [List.getElem?_cons_succ, h2 i (by omega)]
        congr 1; omega
    · cases h

/-- The carriers of a reset parameter, entry by entry (R22). -/
theorem resetCarriers_eq_some {r : ResetParam} : ∀ {n j : ℕ} {l : List U32}, l.length = n →
    (∀ m f, l[m]? = some f → resetCarrier r (j + m) = some f) → resetCarriers r n j = some l
  | 0, _, l, hl, _ => by rw [List.length_eq_zero_iff.1 hl]; rfl
  | n + 1, _, [], hl, _ => by simp at hl
  | n + 1, j, x :: l, hl, h => by
    have h0 := h 0 x rfl
    have ht := resetCarriers_eq_some (j := j + 1) (Nat.succ.inj hl) fun m f hm => by
      rw [Nat.add_assoc, Nat.add_comm 1 m]
      exact h (m + 1) f hm
    simp only [resetCarriers, Nat.add_zero] at h0 ⊢
    rw [h0, ht]

/-- One entry without a value leaves the table without one (R22). -/
theorem resetCarriers_eq_none {r : ResetParam} : ∀ {n j m : ℕ}, m < n → resetCarrier r (j + m) = none →
    resetCarriers r n j = none
  | n + 1, j, 0, _, h => by
    rw [Nat.add_zero] at h
    simp [resetCarriers, h]
  | n + 1, j, m + 1, hm, h => by
    have ht := resetCarriers_eq_none (r := r) (n := n) (j := j + 1) (m := m) (by omega) (by
      rwa [Nat.add_assoc, Nat.add_comm 1 m])
    simp only [resetCarriers, ht]
    split <;> simp_all

theorem writePort_fits {a : HostAction} {s t : State} (h : a.wf s.par = true) : writePort a s t = .next t := by
  simp [writePort, h]

theorem writePort_cases {a : HostAction} {s t t' : State} (h : writePort a s t = .next t') :
    a.wf s.par = true ∧ t' = t := by
  unfold writePort at h
  split at h
  · exact ⟨‹_›, by cases h; rfl⟩
  · cases h

end Sys2Proof.Laws
end

