-- ==== Sys2Proof/Laws/Exec.lean ====
section
/-! SUPPORT. What each command can answer, said once: an error with nothing changed, or its whole new state. -/

namespace Sys2Proof.Laws

open Sys2Proof.Machine

/-- The errors of each phase (R71, R73, R82, R84, R99, R118, R134). -/
theorem unpackPhase_error {p : Params} {B : List Byte} {e : Err} (h : unpackPhase p B = .error e) : e = .capacity := by
  unfold unpackPhase at h
  split at h <;> cases h; rfl

theorem packPhase_error {p : Params} {T : List Bit} {e : Err} (h : packPhase p T = .error e) :
    e = .invalidLength ∨ e = .capacity := by
  unfold packPhase at h
  rw [bitsToBytes_eq] at h
  by_cases h8 : T.length % 8 = 0
  · rw [if_pos h8] at h
    simp only at h
    split at h <;> cases h
    exact .inr rfl
  · rw [if_neg h8] at h
    cases h
    exact .inl rfl

theorem framePhase_error {p : Params} {P : List Bit} {e : Err} (h : framePhase p P = .error e) :
    e = .lengthOverflow ∨ e = .capacity := by
  unfold framePhase at h
  split at h
  · cases h; exact .inl rfl
  · split at h <;> cases h
    exact .inr rfl

theorem parseFrame_error {F : List Bit} {e : Err} (h : parseFrame F = .error e) : e = .truncatedHeader := by
  rw [parseFrame_eq] at h
  split at h <;> cases h; rfl

theorem modulatePhase_error {p : Params} {c : Cfg} {T : List Bit} {e : Err} (h : modulatePhase p c T = .error e) :
    e = .capacity := by
  unfold modulatePhase at h
  split at h <;> cases h; rfl

theorem demodulatePhase_error {p : Params} {c : Cfg} {Ra : U32} {v : List I16} {e : Err}
    (h : demodulatePhase p c Ra v = .error e) : e = .degenerateRate ∨ e = .capacity := by
  unfold demodulatePhase at h
  simp only at h
  split at h
  · cases h; exact .inl rfl
  · split at h <;> cases h
    exact .inr rfl

theorem encodeFrame_ok {p : Params} {B : List Byte} {F : List Bit} (h : encodeFrame p B = .ok F) :
    ∃ P, unpackPhase p B = .ok P ∧ framePhase p P = .ok F := by
  unfold encodeFrame at h
  split at h
  · cases h
  · exact ⟨_, ‹_›, h⟩

theorem encodeFrame_error {p : Params} {B : List Byte} {e : Err} (h : encodeFrame p B = .error e) :
    e = .lengthOverflow ∨ e = .capacity := by
  unfold encodeFrame at h
  split at h
  · cases h
    exact .inr (unpackPhase_error ‹_›)
  · exact framePhase_error h

theorem decodeBits_ok {p : Params} {T : List Bit} {d : Decoded} (h : decodeBits p T = .ok d) :
    parseFrame T = .ok d.frame ∧ d.frame.declared.toNat % 8 = 0 ∧ packPhase p d.frame.payload = .ok d.bytes := by
  unfold decodeBits at h
  split at h
  · cases h
  · rename_i f hf
    split at h
    · cases h
    · rename_i h8
      split at h
      · cases h
      · rename_i B hB
        cases h
        exact ⟨hf, by simpa using h8, hB⟩

theorem decodeBits_error {p : Params} {T : List Bit} {e : Err} (h : decodeBits p T = .error e) :
    e = .truncatedHeader ∨ e = .unalignedPayload ∨ e = .invalidLength ∨ e = .capacity := by
  unfold decodeBits at h
  split at h
  · cases h
    exact .inl (parseFrame_error ‹_›)
  · split at h
    · cases h; exact .inr (.inl rfl)
    · split at h
      · cases h
        exact .inr (.inr (packPhase_error ‹_›))
      · cases h

/-- The status word of a command that can warn, as the statements write it (R60, R143). -/
theorem statusWord_rateMismatch (s : State) (e : Option Err) :
    statusWord (rateMismatch s) e = Safety.warned s (statusWord false e) := by
  unfold Safety.warned rateMismatch
  by_cases h : s.arate = s.cfg.srate
  · simp [h]
  · rw [if_neg h, show (s.arate != s.cfg.srate) = true by simpa using h]
    cases e <;> (try rename_i e; cases e) <;> decide

/-- The error kinds each command can report (R141). -/
def errorsOf : Instr → List Err
  | .bytes2bits => [.capacity]
  | .bits2bytes => [.invalidLength, .capacity]
  | .buildframe => [.lengthOverflow, .capacity]
  | .parseframe => [.truncatedHeader]
  | .modulate => [.capacity]
  | .demodulate => [.degenerateRate, .capacity]
  | .encode => [.lengthOverflow, .capacity]
  | .decode => [.truncatedHeader, .unalignedPayload, .invalidLength, .degenerateRate, .capacity]

/-- The whole effect of a command that succeeds, from `s` to `t`. -/
def Effect (s t : State) : Instr → Prop
  | .bytes2bits => ∃ T, unpackPhase s.par s.bytes = .ok T ∧ t = { s with bits := T }
  | .bits2bytes => ∃ B, packPhase s.par s.bits = .ok B ∧ t = { s with bytes := B }
  | .buildframe => ∃ F, framePhase s.par s.bits = .ok F ∧ t = { s with bits := F }
  | .parseframe => ∃ f, parseFrame s.bits = .ok f ∧
      t = { s with bits := f.payload, rem := f.remaining, hlen := f.declared }
  | .modulate => ∃ v, modulatePhase s.par s.cfg s.bits = .ok v ∧ t = { s with samples := v, arate := s.cfg.srate }
  | .demodulate => ∃ T, demodulatePhase s.par s.cfg s.arate s.samples = .ok T ∧ t = { s with bits := T }
  | .encode => ∃ F v, encodeFrame s.par s.bytes = .ok F ∧ modulatePhase s.par s.cfg F = .ok v ∧
      t = { s with bits := F, samples := v, arate := s.cfg.srate }
  | .decode => ∃ T d, demodulatePhase s.par s.cfg s.arate s.samples = .ok T ∧ decodeBits s.par T = .ok d ∧
      t = { s with bits := d.frame.payload, rem := d.frame.remaining, hlen := d.frame.declared, bytes := d.bytes }

/-- The warning bit of a command's status word (R111, R143). -/
def warns (s : State) : Instr → Bool
  | .demodulate | .decode => rateMismatch s
  | _ => false

/-- Whether a command asks for a legal configuration. -/
def needsLegal : Instr → Bool
  | .modulate | .demodulate | .encode | .decode => true
  | _ => false

/-- What a command can answer, everything: a refusal where the configuration is not legal and the command needs it; an error of
its own with nothing changed; or its effect. -/
theorem exec_cases (i : Instr) (s : State) :
    (needsLegal i = true ∧ s.cfg.legal s.par = false ∧ exec i s = .refused .illegalConfiguration) ∨
    (needsLegal i = true → s.cfg.legal s.par = true) ∧
      ((∃ e ∈ errorsOf i, exec i s = raise e (warns s i) s) ∨ ∃ t, Effect s t i ∧ exec i s = succeed (warns s i) t) := by
  by_cases hl : needsLegal i = true ∧ s.cfg.legal s.par = false
  · refine .inl ⟨hl.1, hl.2, ?_⟩
    cases i <;> first | exact absurd hl.1 (by decide) | exact requireLegal_illegal hl.2 _
  · have hl' : needsLegal i = true → s.cfg.legal s.par = true := fun h => by simpa [h] using hl
    refine .inr ⟨hl', ?_⟩
    cases i with
    | bytes2bits =>
      cases h : unpackPhase s.par s.bytes with
      | ok T => exact .inr ⟨_, ⟨T, h, rfl⟩, by simp only [exec, execBytes2Bits, h]; rfl⟩
      | error e => exact .inl ⟨e, by simp [errorsOf, unpackPhase_error h], by simp only [exec, execBytes2Bits, h]; rfl⟩
    | bits2bytes =>
      cases h : packPhase s.par s.bits with
      | ok B => exact .inr ⟨_, ⟨B, h, rfl⟩, by simp only [exec, execBits2Bytes, h]; rfl⟩
      | error e => exact .inl ⟨e, by simpa [errorsOf] using packPhase_error h, by simp only [exec, execBits2Bytes, h]; rfl⟩
    | buildframe =>
      cases h : framePhase s.par s.bits with
      | ok F => exact .inr ⟨_, ⟨F, h, rfl⟩, by simp only [exec, execBuildFrame, h]; rfl⟩
      | error e => exact .inl ⟨e, by simpa [errorsOf] using framePhase_error h, by simp only [exec, execBuildFrame, h]; rfl⟩
    | parseframe =>
      cases h : parseFrame s.bits with
      | ok f => exact .inr ⟨_, ⟨f, h, rfl⟩, by simp only [exec, execParseFrame, h]; rfl⟩
      | error e => exact .inl ⟨e, by simp [errorsOf, parseFrame_error h], by simp only [exec, execParseFrame, h]; rfl⟩
    | modulate =>
      have hr := requireLegal_legal (hl' rfl)
      cases h : modulatePhase s.par s.cfg s.bits with
      | ok v => exact .inr ⟨_, ⟨v, h, rfl⟩, by simp only [exec, execModulate, h, hr]; rfl⟩
      | error e => exact .inl ⟨e, by simp [errorsOf, modulatePhase_error h], by simp only [exec, execModulate, h, hr]; rfl⟩
    | demodulate =>
      have hr := requireLegal_legal (hl' rfl)
      cases h : demodulatePhase s.par s.cfg s.arate s.samples with
      | ok T => exact .inr ⟨_, ⟨T, h, rfl⟩, by simp only [exec, execDemodulate, h, hr]; rfl⟩
      | error e =>
        exact .inl ⟨e, by simpa [errorsOf] using demodulatePhase_error h, by simp only [exec, execDemodulate, h, hr]; rfl⟩
    | encode =>
      have hr := requireLegal_legal (hl' rfl)
      cases h : encodeFrame s.par s.bytes with
      | error e => exact .inl ⟨e, by simpa [errorsOf] using encodeFrame_error h, by simp only [exec, execEncode, h, hr]; rfl⟩
      | ok F =>
        cases h2 : modulatePhase s.par s.cfg F with
        | ok v => exact .inr ⟨_, ⟨F, v, h, h2, rfl⟩, by simp only [exec, execEncode, h, h2, hr]; rfl⟩
        | error e =>
          exact .inl ⟨e, by simp [errorsOf, modulatePhase_error h2], by simp only [exec, execEncode, h, h2, hr]; rfl⟩
    | decode =>
      have hr := requireLegal_legal (hl' rfl)
      cases h : demodulatePhase s.par s.cfg s.arate s.samples with
      | error e =>
        refine .inl ⟨e, ?_, by simp only [exec, execDecode, h, hr]; rfl⟩
        rcases demodulatePhase_error h with rfl | rfl <;> simp [errorsOf]
      | ok T =>
        cases h2 : decodeBits s.par T with
        | ok d => exact .inr ⟨_, ⟨T, d, h, h2, rfl⟩, by simp only [exec, execDecode, h, h2, hr]; rfl⟩
        | error e =>
          refine .inl ⟨e, ?_, by simp only [exec, execDecode, h, h2, hr]; rfl⟩
          rcases decodeBits_error h2 with rfl | rfl | rfl | rfl <;> simp [errorsOf]

end Sys2Proof.Laws
end

