-- ==== Sys2Proof/Laws/Listing.lean ====
section
/-! SUPPORT. How a listing line falls into words, and how its words read (spec/30_encoding.md R61). -/

namespace Sys2Proof.Laws

open Sys2Proof.Machine Sys2Proof.Safety

/-! ### Words -/

/-- What may stand in a word: no space and no comment sign. -/
abbrev WordChars (w : List Char) : Prop := ∀ c ∈ w, c ≠ ' ' ∧ c ≠ ';'

theorem cutSpaces_ne_nil : ∀ l, cutSpaces l ≠ []
  | [] => by simp [cutSpaces]
  | c :: cs => by
    unfold cutSpaces
    split
    · simp
    · split <;> simp

theorem cutSpaces_word : ∀ {w : List Char}, (∀ c ∈ w, c ≠ ' ') → cutSpaces w = [w]
  | [], _ => rfl
  | c :: w, h => by
    rw [cutSpaces, if_neg (h c (List.mem_cons_self ..)), cutSpaces_word fun d hd => h d (List.mem_cons_of_mem _ hd)]

theorem cutSpaces_append (l : List Char) : ∀ {w : List Char}, (∀ c ∈ w, c ≠ ' ') →
    cutSpaces (w ++ ' ' :: l) = w :: cutSpaces l
  | [], _ => rfl
  | c :: w, h => by
    rw [List.cons_append, cutSpaces, if_neg (h c (List.mem_cons_self ..)),
      cutSpaces_append l fun d hd => h d (List.mem_cons_of_mem _ hd)]

/-- A comment does not change the words of a line. -/
theorem lineWords_comment (line comment : List Char) : lineWords (line ++ ';' :: comment) = lineWords line := by
  have h : (line ++ ';' :: comment).takeWhile (· != ';') = line.takeWhile (· != ';') := by
    induction line with
    | nil => simp
    | cons c l ih => simp only [List.cons_append, List.takeWhile_cons, ih]
  rw [lineWords, h, lineWords]

theorem takeWhile_word (l : List Char) {w : List Char} (h : WordChars w) :
    (w ++ l).takeWhile (· != ';') = w ++ l.takeWhile (· != ';') :=
  List.takeWhile_append_of_pos fun c hc => by simpa using (h c hc).2

@[simp] theorem lineWords_nil : lineWords [] = [] := rfl

/-- A word and a space in front of a line. -/
theorem lineWords_cons {w : List Char} (hw : w ≠ []) (h : WordChars w) (l : List Char) :
    lineWords (w ++ ' ' :: l) = w :: lineWords l := by
  rw [lineWords, takeWhile_word _ h, List.takeWhile_cons_of_pos (by decide), cutSpaces_append _ fun c hc => (h c hc).1,
    List.filter_cons_of_pos (by simpa using hw), lineWords]

/-- A space in front of a line adds no word. -/
theorem lineWords_space (l : List Char) : lineWords (' ' :: l) = lineWords l := by
  rw [lineWords, List.takeWhile_cons_of_pos (by decide), cutSpaces, if_pos rfl, List.filter_cons_of_neg (by simp), lineWords]

theorem lineWords_word {w : List Char} (hw : w ≠ []) (h : WordChars w) : lineWords w = [w] := by
  have e : w.takeWhile (· != ';') = w := by simpa using takeWhile_word [] h
  rw [lineWords, e, cutSpaces_word fun c hc => (h c hc).1, List.filter_cons_of_pos (by simpa using hw), List.filter_nil]

/-- A word followed by words, a space before each. -/
theorem lineWords_flatMap {α : Type} {f : α → List Char} : ∀ {w : List Char} {l : List α}, w ≠ [] → WordChars w →
    (∀ x ∈ l, f x ≠ [] ∧ WordChars (f x)) → lineWords (w ++ l.flatMap fun x => ' ' :: f x) = w :: l.map f
  | w, [], hw, h, _ => by simpa using lineWords_word hw h
  | w, x :: l, hw, h, hl => by
    have hx := hl x (List.mem_cons_self ..)
    rw [List.flatMap_cons, List.cons_append, lineWords_cons hw h,
      lineWords_flatMap hx.1 hx.2 fun y hy => hl y (List.mem_cons_of_mem _ hy), List.map_cons]

/-- A trailing space adds no word. -/
theorem lineWords_append_space (line : List Char) : lineWords (line ++ [' ']) = lineWords line := by
  have key : ∀ l : List Char, (cutSpaces (l ++ [' '])).filter (· != []) = (cutSpaces l).filter (· != []) := by
    intro l
    have cut : ∀ l : List Char, cutSpaces (l ++ [' ']) = cutSpaces l ++ [[]] := by
      intro l
      induction l with
      | nil => rfl
      | cons c l ih =>
        rw [List.cons_append, cutSpaces, cutSpaces, ih]
        split
        · rfl
        · cases hc : cutSpaces l with
          | nil => exact absurd hc (cutSpaces_ne_nil l)
          | cons w ws => rfl
    rw [cut, List.filter_append]
    simp
  by_cases h : ∃ c ∈ line, c = ';'
  · have e : (line ++ [' ']).takeWhile (· != ';') = line.takeWhile (· != ';') := by
      induction line with
      | nil => simp at h
      | cons c l ih =>
        by_cases hc : c = ';'
        · simp [hc]
        · rw [List.cons_append, List.takeWhile_cons_of_pos (by simpa using hc), List.takeWhile_cons_of_pos (by simpa using hc), ih]
          obtain ⟨d, hd, rfl⟩ := h
          rcases List.mem_cons.1 hd with rfl | hd
          · exact absurd rfl hc
          · exact ⟨_, hd, rfl⟩
    rw [lineWords, e, lineWords]
  · have hall : ∀ c ∈ line, (c != ';') = true := fun c hc => by simpa using fun e => h ⟨c, hc, e⟩
    rw [lineWords, List.takeWhile_append_of_pos hall, lineWords, List.takeWhile_eq_self_iff.2 hall]
    exact key line

/-! ### Numbers -/

theorem readAll_map {α β γ : Type} {f : β → Option γ} {g : α → β} {h : α → γ} :
    ∀ {l : List α}, (∀ x ∈ l, f (g x) = some (h x)) → readAll f (l.map g) = some (l.map h)
  | [], _ => rfl
  | x :: l, hl => by
    rw [List.map_cons, readAll, hl x (List.mem_cons_self ..), readAll_map fun y hy => hl y (List.mem_cons_of_mem _ hy)]
    rfl

/-- Which character is which hexadecimal digit. -/
theorem hexDigit_iff (a : Char) {x : ℕ} (hx : x < 16) :
    (hexUpper[x]? = some a ∨ hexLower[x]? = some a) → hexDigit a = some x := by
  intro h
  interval_cases x <;> rcases h with h | h <;> cases h <;> decide

theorem hexByte_spells {a b : Char} {c : Byte} (h : SpellsByte a b c) : hexByte [a, b] = some c := by
  have hc := c.isLt
  simp only [hexByte, hexDigit_iff a (by omega) h.1, hexDigit_iff b (by omega) h.2]
  congr 1
  apply BitVec.eq_of_toNat_eq
  rw [BitVec.toNat_ofNat]
  omega

theorem wordChars_hex {a b : Char} {c : Byte} (h : SpellsByte a b c) : WordChars [a, b] := by
  have key : ∀ {a : Char} {x : ℕ}, x < 16 → (hexUpper[x]? = some a ∨ hexLower[x]? = some a) → a ≠ ' ' ∧ a ≠ ';' := by
    intro a x hx h
    interval_cases x <;> rcases h with h | h <;> cases h <;> decide
  have hc := c.isLt
  intro d hd
  simp only [List.mem_cons, List.not_mem_nil, or_false] at hd
  rcases hd with rfl | rfl
  · exact key (by omega) h.1
  · exact key (by omega) h.2

theorem wordChars_decimal (ds : List (Fin 10)) : WordChars (ds.map decimalDigit) := by
  intro c hc
  obtain ⟨d, _, rfl⟩ := List.mem_map.1 hc
  fin_cases d <;> decide

theorem decimalFrom_digits : ∀ (ds : List (Fin 10)) (n : ℕ),
    decimalFrom (ds.map decimalDigit) n = some (ds.foldl (fun n d => 10 * n + d.val) n)
  | [], _ => rfl
  | d :: ds, n => by
    have h : 48 ≤ (decimalDigit d).toNat ∧ (decimalDigit d).toNat ≤ 57 ∧ (decimalDigit d).toNat - 48 = d.val := by
      fin_cases d <;> decide
    rw [List.map_cons, decimalFrom, if_pos ⟨h.1, h.2.1⟩, h.2.2, decimalFrom_digits ds, List.foldl_cons]

theorem decimal_digits {ds : List (Fin 10)} (h : ds ≠ []) : decimal (ds.map decimalDigit) = some (decimalValue ds) := by
  rw [decimal, if_neg (by simpa using h), decimalFrom_digits, decimalValue]

theorem signedDecimal_text {v : SignedDigits} (h0 : v.2 ≠ []) (h1 : -32768 ≤ v.value) (h2 : v.value ≤ 32767) :
    signedDecimal v.text = some (BitVec.ofInt 16 v.value) := by
  obtain ⟨neg, ds⟩ := v
  cases neg with
  | true =>
    simp only [SignedDigits.value, if_true] at h1
    simp only [SignedDigits.text, SignedDigits.value, if_true, List.singleton_append, signedDecimal, decimal_digits h0,
      Option.bind_some]
    rw [if_pos (by omega)]
  | false =>
    simp only [SignedDigits.value, Bool.false_eq_true, if_false] at h1 h2
    cases ds with
    | nil => exact absurd rfl h0
    | cons d ds =>
      have hd : decimalDigit d ≠ '-' := by fin_cases d <;> decide
      have e : signedDecimal ((d :: ds).map decimalDigit) = (decimal ((d :: ds).map decimalDigit)).bind fun n =>
          if n ≤ 32767 then some (BitVec.ofNat 16 n) else none := by
        rw [List.map_cons, signedDecimal]
        intro w hw
        exact hd (List.cons.inj hw).1
      simp only [SignedDigits.text, SignedDigits.value, Bool.false_eq_true, if_false, List.nil_append]
      rw [e, decimal_digits h0, Option.bind_some, if_pos (by exact_mod_cast h2)]
      simp

theorem wordChars_text (v : SignedDigits) : WordChars v.text := by
  intro c hc
  rcases List.mem_append.1 hc with hc | hc
  · split at hc
    · rw [List.mem_singleton.1 hc]; decide
    · simp at hc
  · exact wordChars_decimal v.2 c hc

theorem rateWord_digits {ds : List (Fin 10)} (h : ds ≠ []) (hv : decimalValue ds < 2 ^ 32) :
    rateWord (ds.map decimalDigit ++ [':']) = some (BitVec.ofNat 32 (decimalValue ds)) := by
  have e : (ds.map decimalDigit ++ [':']).reverse = ':' :: (ds.map decimalDigit).reverse := by simp
  rw [rateWord, e]
  simp only [List.reverse_reverse, decimal_digits h, Option.bind_some]
  rw [if_pos hv]

/-! ### Bits -/

theorem bitsWord_chars : ∀ {w : List Char}, (∀ c ∈ w, c = '0' ∨ c = '1' ∨ c = '_') → bitsWord w = some (w.filterMap charBit)
  | [], _ => rfl
  | c :: w, h => by
    rw [bitsWord, bitsWord_chars fun d hd => h d (List.mem_cons_of_mem _ hd), Option.bind_some]
    rcases h c (List.mem_cons_self ..) with rfl | rfl | rfl <;> rfl

/-- Words of bits read one after another, wherever the spaces stand. -/
theorem readAll_bitsWord : ∀ {t : List Char}, (∀ c ∈ t, c = '0' ∨ c = '1' ∨ c = '_' ∨ c = ' ') →
    (readAll bitsWord ((cutSpaces t).filter (· != []))).map List.flatten = some (t.filterMap charBit) := by
  have drop : ∀ ws : List (List Char), (readAll bitsWord (ws.filter (· != []))).map List.flatten =
      (readAll bitsWord ws).map List.flatten := by
    intro ws
    induction ws with
    | nil => rfl
    | cons w ws ih =>
      by_cases hw : w = []
      · subst hw
        rw [List.filter_cons_of_neg (by simp), ih, readAll, bitsWord, Option.bind_some, Option.map_map]
        rfl
      · rw [List.filter_cons_of_pos (by simpa using hw), readAll, readAll]
        cases bitsWord w with
        | none => rfl
        | some v =>
          have := congrArg (Option.map (v ++ ·)) ih
          simpa [Option.map_map, Function.comp_def] using this
  intro t h
  rw [drop]
  induction t with
  | nil => rfl
  | cons c t ih =>
    have ih := ih fun d hd => h d (List.mem_cons_of_mem _ hd)
    by_cases hc : c = ' '
    · subst hc
      rw [cutSpaces, if_pos rfl, readAll, bitsWord, Option.bind_some, Option.map_map]
      exact ih
    · rw [cutSpaces, if_neg hc]
      cases hcut : cutSpaces t with
      | nil => exact absurd hcut (cutSpaces_ne_nil t)
      | cons w ws =>
        rw [hcut] at ih
        simp only [readAll, bitsWord] at ih ⊢
        cases hw : bitsWord w with
        | none => rw [hw] at ih; cases ih
        | some v =>
          rw [hw] at ih
          rcases h c (List.mem_cons_self ..) with rfl | rfl | rfl | rfl
          · have := congrArg (Option.map (false :: ·)) ih
            simpa [Option.map_map, Function.comp_def, charBit] using this
          · have := congrArg (Option.map (true :: ·)) ih
            simpa [Option.map_map, Function.comp_def, charBit] using this
          · simpa [charBit] using ih
          · exact absurd rfl hc

end Sys2Proof.Laws
end

