-- ==== Sys2Proof/Laws/PerInstr.lean ====
section
/-! SUPPORT. Facts about commands as syntax, made command by command. -/

namespace Sys2Proof.Laws.WordOf

/-- The family: the command is well formed, its word has `RSV = 0000` (R56), and decoding that word at the front of any
bytes gives the command back and leaves the rest. -/
def Statement (i : Instr) : Prop :=
  i.wf = true ∧ rsvField (encode i) = 0#4 ∧ ∀ rest, decodeBytes (encode i :: rest) = .ok (i, rest)

theorem bytes2bits : Statement .bytes2bits := ⟨rfl, by decide, fun _ => rfl⟩
theorem bits2bytes : Statement .bits2bytes := ⟨rfl, by decide, fun _ => rfl⟩
theorem buildframe : Statement .buildframe := ⟨rfl, by decide, fun _ => rfl⟩
theorem parseframe : Statement .parseframe := ⟨rfl, by decide, fun _ => rfl⟩
theorem modulate : Statement .modulate := ⟨rfl, by decide, fun _ => rfl⟩
theorem demodulate : Statement .demodulate := ⟨rfl, by decide, fun _ => rfl⟩
theorem encode : Statement .encode := ⟨rfl, by decide, fun _ => rfl⟩
theorem decode : Statement .decode := ⟨rfl, by decide, fun _ => rfl⟩

end Sys2Proof.Laws.WordOf
end

