-- ==== Sys2Proof/Laws/Ports.lean ====
section
/-! SUPPORT. What a step with a host action is, and what the decoder answers on one word. -/

namespace Sys2Proof.Laws

open Sys2Proof.Machine

theorem decodeBytes_word (c : Byte) (rest : List Byte) :
    decodeBytes (c :: rest) = match decode c with
      | .ok i => .ok (i, rest)
      | .error e => .error e := rfl

/-- What the decoder reads from a word, as a command (R56 to R58). -/
theorem decodeBytes_ok {c : Byte} {i : Instr} {rest l : List Byte} (h : decodeBytes (c :: rest) = .ok (i, l)) :
    decode c = .ok i ∧ l = rest := by
  rw [decodeBytes_word] at h
  split at h
  · rename_i j hj
    cases h
    exact ⟨hj, rfl⟩
  · cases h

/-- A step with a host action left does that action, taken off the list (R49). -/
theorem step_cons {s : State} {a : HostAction} {rest : List HostAction} (h : s.host = a :: rest) :
    step s = act a { s with host := rest } := by
  unfold step nextAction
  rw [h]

/-- `ISSUE` of a word either runs the command the word decodes to, or raises `IllegalCommandError` (R42, R58). -/
theorem issueWord_cases (c : Byte) (s : State) :
    (∃ i, decode c = .ok i ∧ issueWord c s = exec i s) ∨
      (∃ e, decode c = .error e) ∧ issueWord c s = raise .illegalCommand false s := by
  unfold issueWord
  rw [decodeBytes_word]
  cases decode c with
  | ok i => exact .inl ⟨i, rfl, rfl⟩
  | error e => exact .inr ⟨⟨e, rfl⟩, rfl⟩

end Sys2Proof.Laws
end

