-- ==== Sys2Proof/Tests/Slice0.lean ====
section
/-! SUPPORT. The model's own tests. Expected values come from spec/95_test_vectors.md (the vector is named in each comment) or
from the spec's printed tables, never from the model. Then, for every statement with hypotheses, a concrete state and operands
that meet them. -/

namespace Sys2Proof.Tests

open Sys2Proof.Machine Sys2Proof.Safety Sys2Proof.Laws

/-! ### Helpers -/

/-- The configuration TINY of spec/95_test_vectors.md. -/
def tinyCfg : Cfg := { srate := 8#32, symrate := 1#32, ncar := 2, car := [1#32, 2#32] }

/-- The block after a reset to TINY. -/
def tiny : State := State.resetWith Params.default tinyCfg

/-- The same with finite capacities. -/
def tinyCapped (bytes bits samples : Nat) : State :=
  State.resetWith { Params.default with capBytes := some bytes, capBits := some bits, capSamples := some samples } tinyCfg

/-- The next state's view `f`, and the last item it shows. -/
def view {α : Type} (o : Host.Outcome State Fault Refusal) (f : State → α) : Option (α × Option Obs) :=
  match o with
  | .next t => some (f t, t.shown.getLast?)
  | .fault _ => none
  | .refused _ => none

/-- The refusal of an outcome. -/
def refusal (o : Host.Outcome State Fault Refusal) : Option Refusal :=
  match o with
  | .refused r => some r
  | .next _ => none
  | .fault _ => none

def stat (w : Byte) : Option Obs := some (.status w)

/-- A bit sequence from a numeral, most significant bit first. -/
def bitsOf (w v : Nat) : List Bit := (List.range w).map fun p => v.testBit (w - 1 - p)

/-- The quantised TINY symbols `A` and `B` as the spec prints them, one per bit. -/
def tinySymbols (T : List Bit) : List I16 :=
  (T.zipIdx.map fun t =>
    let sym : List Int := if t.2 % 2 = 0 then [0, 23169, 32767, 23169, 0, -23169, -32767, -23169]
      else [0, 32767, 0, -32767, 0, 32767, 0, -32767]
    sym.map fun m => BitVec.ofInt 16 (if t.1 then m else -m)).flatten

/-! ### Well-formedness: one ill-formed term per check -/

theorem test_wf_legal : tinyCfg.legal Params.default = true ∧ Cfg.reference.legal Params.default = true := by decide
theorem test_wf_symrate_zero : ({ tinyCfg with symrate := 0#32 } : Cfg).legal Params.default = false := by decide
theorem test_wf_srate_below_symrate : ({ tinyCfg with symrate := 9#32 } : Cfg).legal Params.default = false := by decide
theorem test_wf_ncar_zero : ({ tinyCfg with ncar := 0, car := [] } : Cfg).legal Params.default = false := by decide
theorem test_wf_ncar_above_max : tinyCfg.legal { Params.default with ncarMax := 1 } = false := by decide
theorem test_wf_table_length : ({ tinyCfg with car := [1#32] } : Cfg).legal Params.default = false := by decide
theorem test_wf_ncar_max : ({ Params.default with ncarMax := 5 } : Params).wf = false ∧ Params.default.wf = true := by decide
theorem test_wf_reset_table_too_long :
    (ResetParam.mk none none (some 257) []).wf Params.default = false := by decide
theorem test_wf_reset_carrier_beyond_table :
    (ResetParam.mk none none (some 1) [some 1#32, some 2#32]).wf Params.default = false ∧
      (HostAction.reset (ResetParam.mk none none (some 1) [some 1#32, some 2#32])).wf Params.default = false := by decide
theorem test_wf_write_too_long :
    (HostAction.wrBytes [0#8, 0#8]).wf (tinyCapped 1 9 9).par = false ∧
      (HostAction.wrBits [true, true]).wf (tinyCapped 9 1 9).par = false ∧
      (HostAction.wrSamples 8#32 [0#16, 0#16]).wf (tinyCapped 9 9 1).par = false := by decide
theorem test_wf_instr : ∀ i ∈ [Instr.bytes2bits, .bits2bytes, .buildframe, .parseframe, .modulate, .demodulate, .encode, .decode],
    i.wf = true := by decide

/-! ### Decoding: the words of R57 written out, and illegal words of R58 -/

theorem test_decode_words :
    [0b00000001#8, 0b00000010#8, 0b00000011#8, 0b00000100#8, 0b00000101#8, 0b00000110#8, 0b00000111#8, 0b00001000#8].map
        (fun w => (decodeBytes [w]).toOption) =
      [some (.bytes2bits, []), some (.bits2bytes, []), some (.buildframe, []), some (.parseframe, []),
        some (.modulate, []), some (.demodulate, []), some (.encode, []), some (.decode, [])] := by decide

/-- X9: `0x00`, `0x09`, `0x11`, `0xFF`. -/
theorem test_decode_illegal_words :
    (match decode 0x00#8 with | .error e => some e | .ok _ => none) = some .unassignedOp ∧
      (match decode 0x09#8 with | .error e => some e | .ok _ => none) = some .unassignedOp ∧
      (match decode 0x11#8 with | .error e => some e | .ok _ => none) = some .reservedNonzero ∧
      (match decode 0xFF#8 with | .error e => some e | .ok _ => none) = some .reservedNonzero ∧
      (match decodeBytes [] with | .error e => some e | .ok _ => none) = some .noWord := by decide

theorem test_decode_table_word :
    decodeTableWord 8 0x05 = some .modulate ∧ decodeTableWord 8 0x00 = none ∧ decodeTableWord 8 0x105 = some .modulate := by
  decide

/-! ### One step per test -/

/-- B6. -/
theorem test_bytes2bits_b6 :
    view (exec .bytes2bits { tiny with bytes := [0xA5#8, 0x3C#8] }) (·.bits) =
      some (bitsOf 16 0b1010010100111100, stat 0x00#8) := by decide
/-- B8: the result does not fit. -/
theorem test_bytes2bits_b8 :
    view (exec .bytes2bits { tinyCapped 9 15 9 with bytes := [0x41#8, 0x42#8], bits := [true] }) (·.bits) =
      some ([true], stat 0x08#8) := by decide
/-- B9. -/
theorem test_bits2bytes_b9 :
    view (exec .bits2bytes { tiny with bits := bitsOf 16 0b1010010100111100 }) (·.bytes) =
      some ([0xA5#8, 0x3C#8], stat 0x00#8) := by decide
/-- B11. -/
theorem test_bits2bytes_b11 :
    view (exec .bits2bytes { tiny with bits := bitsOf 7 0b0100000, bytes := [0x55#8] }) (·.bytes) =
      some ([0x55#8], stat 0x03#8) := by decide
/-- F3: a payload that is not a multiple of 8. -/
theorem test_buildframe_f3 :
    view (exec .buildframe { tiny with bits := bitsOf 3 0b101 }) (·.bits) = some (bitsOf 35 0b11101, stat 0x00#8) := by decide
/-- F14. -/
theorem test_buildframe_f14 :
    view (exec .buildframe { tinyCapped 9 41 9 with bits := bitsOf 10 0 }) (·.bits) = some (bitsOf 10 0, stat 0x08#8) := by
  decide
/-- F6: bits are left over. -/
theorem test_parseframe_f6 :
    view (exec .parseframe { tiny with bits := hdr 3 ++ bitsOf 5 0b10111 }) (fun t => (t.bits, t.rem, t.hlen)) =
      some ((bitsOf 3 0b101, bitsOf 2 0b11, 3#32), stat 0x00#8) := by decide
/-- F12: the declared length is not wrapped. -/
theorem test_parseframe_f12 :
    view (exec .parseframe { tiny with bits := bitsOf 40 0xFFFFFFFF33 }) (fun t => (t.bits, t.rem, t.hlen)) =
      some ((bitsOf 8 0x33, [], 4294967295#32), stat 0x00#8) := by decide
/-- M1. -/
theorem test_modulate_m1 :
    view (exec .modulate { tiny with bits := bitsOf 3 0b101, arate := 0#32 })
        (fun t => (t.samples.map (·.toInt), t.arate)) =
      some (([0, 23169, 32767, 23169, 0, -23169, -32767, -23169, 0, -32767, 0, 32767, 0, -32767, 0, 32767,
        0, 23169, 32767, 23169, 0, -23169, -32767, -23169], 8#32), stat 0x00#8) := by decide +kernel
/-- M5: the sampling instants are `k / (N S)`, and the peak is not 1. -/
theorem test_modulate_m5 :
    ((List.range 12).map fun k => quantSample (316 * 60) (peakAngle (316 * 60) 316 [1000]) 1000 k) =
      [0, 10661, 20162, 27469, 31787, 32646, 29952, 23999, 15434, 5190, -5618, -15816] := by decide +kernel
/-- DM2: a constant offset is exactly orthogonal to the reference, and a tie decides 1; the last row but one is silence. -/
theorem test_demodulate_dm2 :
    [[0, 1, 0, 0, 0, 0, 0, 0], [0, -1, 0, 0, 0, 0, 0, 0], [0, 0, 0, 0, 0, 0, 0, -1], [5, 0, 0, 0, 0, 0, 0, 0],
      [0, 0, 0, 0, 0, 0, 0, 0], List.replicate 8 (-32768)].map (fun v : List Int =>
        view (exec .demodulate { tiny with samples := v.map (BitVec.ofInt 16) }) (·.bits)) =
      [some ([true], stat 0x00#8), some ([false], stat 0x00#8), some ([true], stat 0x00#8), some ([true], stat 0x00#8),
        some ([true], stat 0x00#8), some ([true], stat 0x00#8)] := by decide +kernel
/-- DM9: rate 0. -/
theorem test_demodulate_dm9 :
    view (exec .demodulate { tiny with samples := [1#16], arate := 0#32, bits := [false] }) (·.bits) =
      some ([false], stat 0x17#8) := by decide
/-- W4 and P5 in TINY: an empty payload; the first two symbols are `-A ++ -B`. -/
theorem test_encode_empty :
    view (exec .encode tiny) (fun t => (t.bits, t.samples.length, (t.samples.take 16).map (·.toInt))) =
      some ((bitsOf 32 0, 256, [0, -23169, -32767, -23169, 0, 23169, 32767, 23169, 0, -32767, 0, 32767, 0, -32767, 0, 32767]),
        stat 0x00#8) := by decide +kernel
/-- R131: the capacity of `BITS` is tested before anything is written. -/
theorem test_encode_capacity :
    view (exec .encode { tinyCapped 9 39 9 with bytes := [0x41#8] }) (fun t => (t.bits, t.samples)) =
      some (([], []), stat 0x08#8) := by decide
/-- X8: bits after the payload go to `REM`. -/
theorem test_decode_x8 :
    view (exec .decode { tiny with samples := tinySymbols (hdr 8 ++ bitsOf 11 0b10100101110) })
        (fun t => (t.bytes, t.bits, t.rem, t.hlen)) =
      some (([0xA5#8], bitsOf 8 0xA5, bitsOf 3 0b110, 8#32), stat 0x00#8) := by decide +kernel
/-- X5 and X6: an unaligned declared length; an aligned one whose truncated payload does not reassemble. -/
theorem test_decode_x5_x6 :
    view (exec .decode { tiny with samples := tinySymbols (hdr 3 ++ bitsOf 3 0b101) }) (fun t => (t.bytes, t.bits)) =
        some (([], []), stat 0x02#8) ∧
      view (exec .decode { tiny with samples := tinySymbols (hdr 16 ++ bitsOf 13 0b1010010111001) })
        (fun t => (t.bytes, t.bits)) = some (([], []), stat 0x03#8) := by decide +kernel

/-! ### Ports, reset, the step -/

/-- R40: `SAMPLES` and `ARATE` together. -/
theorem test_step_write_samples :
    view (step { tiny with host := [.wrSamples 19001#32 [7#16], .rdHlen] }) (fun t => (t.samples, t.arate, t.host)) =
      some (([7#16], 19001#32, [.rdHlen]), none) := by decide
/-- R41: `RD_SAMPLES` returns the pair. -/
theorem test_step_read_samples :
    view (step { tiny with samples := [7#16], host := [.rdSamples] }) (·.samples) =
      some ([7#16], some (.samples 8#32 [7#16])) := by decide
/-- R22, R170: a partly supplied reset parameter. -/
theorem test_step_reset :
    view (step { tiny with
        bytes := [1#8], hlen := 5#32, host := [.reset (ResetParam.mk (some 8000#32) none (some 3) [none, some 7#32])] })
        (fun t => (t.cfg, t.bytes, t.hlen, t.arate)) =
      some ((Cfg.mk 8000#32 50#32 3 [1000#32, 7#32, 3000#32], [], 0#32, 8000#32), none) := by decide
/-- R18: an illegal configuration is refused. -/
theorem test_step_reset_illegal :
    refusal (step { tiny with host := [.reset (ResetParam.mk (some 49#32) none none [])] }) = some .illegalConfiguration := by
  decide
/-- The word of a table row runs as the first command after reset. -/
theorem test_step_first_command :
    view (step (State.reset.withFetchWord 8 0x03)) (fun t => (t.bits.length, t.host)) = some ((32, []), stat 0x00#8) := by
  decide

/-- R61, program P4: four of its lines. -/
theorem test_listing_p4 :
    listing [['P', 'A', 'R', 'S', 'E', 'F', 'R', 'A', 'M', 'E', ' ', ' ', ';', ' ', '0', '4'], [' ', ';', 'x'],
        ['.', 'w', 'o', 'r', 'd', ' ', '0', '0', ' ', ';'], ['.', 'b', 'i', 't', 's', ' ', '0', '0', '_', '1', ' ', '1', '0', '1']] =
      some [.issue 0x04#8, .issue 0x00#8, .wrBits [false, false, true, true, false, true]] := by decide
/-- R61: `.samples`, `.bytes`, `.expect`, and a line that is not in the syntax. -/
theorem test_listing_lines :
    listingLine ['.', 's', 'a', 'm', 'p', 'l', 'e', 's', ' ', '8', ':', ' ', '7', ' ', '-', '1'] =
        some [.wrSamples 8#32 [7#16, 0xFFFF#16]] ∧
      listingLine ['.', 'b', 'y', 't', 'e', 's', ' ', '4', 'a', ' ', 'F', '0'] = some [.wrBytes [0x4A#8, 0xF0#8]] ∧
      listingLine ['.', 'b', 'y', 't', 'e', 's'] = some [.wrBytes []] ∧
      listingLine ['.', 'e', 'x', 'p', 'e', 'c', 't', ' ', '0'] = some [] ∧ listingLine ['e', 'n', 'c', 'o', 'd', 'e'] = none := by
  decide

/-! ### An inexact arithmetic (R101, U3, U4) -/

/-- R100, R101: at the reference constants the value before `trunc` is a nonzero integer at residues 5 and 14 only. -/
theorem test_inexact_residues :
    ((List.range 19).filter fun r =>
      wholeBeforeTrunc 19000 (peakAngle 19000 19 [1000]) (refAngle 19000 1000 r).2) = [5, 14] := by decide +kernel
/-- Away from those samples the arithmetic does not matter. -/
theorem test_inexact_elsewhere :
    (modulateNum .inexact [true] 8 1 [1, 2])[1]? = some 23169#16 ∧
      demodulateNum .inexact (tinySymbols [true, false]) 8 1 [1, 2] = [true, false] := by decide +kernel

/-! ### Witnesses: for every statement with hypotheses, a state and operands that meet them, clause by clause -/

theorem witness_DecodeAndEncodeAgree : Instr.decode.wf = true ∧ (decode 0x08#8).toOption = some .decode := by decide

/-- The words at the ends of the legal range and just outside it. -/
theorem witness_IllegalWordsRaiseAndChangeNothing :
    (∀ c ∈ [0x00#8, 0x09#8, 0x10#8, 0xFF#8], ({ tiny with host := [.issue c] } : State).host = [.issue c] ∧
      ¬(1 ≤ c.toNat ∧ c.toNat ≤ 8)) ∧
    (∀ c ∈ [0x01#8, 0x08#8], ({ tiny with host := [.issue c] } : State).host = [.issue c] ∧
      1 ≤ c.toNat ∧ c.toNat ≤ 8) := by decide

theorem witness_StepRunsTheDecodedCommand :
    ({ tiny with host := [.issue 0x08#8] } : State).host = [.issue 0x08#8] ∧ (decode 0x08#8).toOption = some .decode := by
  decide

/-- The ends of each range: bytes `00` and `FF` (`ff`), samples -32768 and 32767, the largest rate; separators; two lines. -/
theorem witness_ListingLinesReadAsHostActions :
    (SpellsByte '0' '0' 0x00#8 ∧ SpellsByte 'F' 'F' 0xFF#8 ∧ SpellsByte 'f' 'f' 0xFF#8 ∧ SpellsByte '4' 'A' 0x4A#8) ∧
    (∀ c ∈ ['0', '_', '1', ' ', '1'], c = '0' ∨ c = '1' ∨ c = '_' ∨ c = ' ') ∧
    (decimalValue [4, 2, 9, 4, 9, 6, 7, 2, 9, 5] < 2 ^ 32) ∧
    (∀ v ∈ ([(true, [3, 2, 7, 6, 8]), (false, [3, 2, 7, 6, 7]), (false, [0])] : List SignedDigits),
      v.2 ≠ [] ∧ -32768 ≤ v.value ∧ v.value ≤ 32767) ∧
    (listingLine (mnemonic .encode) = some [.issue 0x07#8] ∧ listing [mnemonic .decode] = some [.issue 0x08#8]) := by
  refine ⟨?_, by simp, by decide, by decide, by decide⟩
  simp [SpellsByte, hexUpper, hexLower]

theorem witness_IdleWithoutAHostAction : State.reset.host = [] := rfl

/-- A write at the capacity, for each port. -/
theorem witness_WritePortsSetOnlyTheirBuffers :
    fits [0#8].length (tinyCapped 1 1 1).par.capBytes = true ∧ fits [true].length (tinyCapped 1 1 1).par.capBits = true ∧
    fits [0#16].length (tinyCapped 1 1 1).par.capSamples = true ∧
    ({ tinyCapped 1 1 1 with host := [.wrBytes [0#8]] } : State).host = [.wrBytes [0#8]] ∧
    ({ tinyCapped 1 1 1 with host := [.wrBits [true]] } : State).host = [.wrBits [true]] ∧
    ({ tinyCapped 1 1 1 with host := [.wrSamples 0#32 [0#16]] } : State).host = [.wrSamples 0#32 [0#16]] := by decide

/-- One element over the capacity, for each port. -/
theorem witness_OverlongWritesAreRefused :
    fits [0#8, 0#8].length (tinyCapped 1 1 1).par.capBytes = false ∧
    fits [true, true].length (tinyCapped 1 1 1).par.capBits = false ∧
    fits [0#16, 0#16].length (tinyCapped 1 1 1).par.capSamples = false ∧
    ({ tinyCapped 1 1 1 with host := [.wrBytes [0#8, 0#8]] } : State).host = [.wrBytes [0#8, 0#8]] ∧
    ({ tinyCapped 1 1 1 with host := [.wrBits [true, true]] } : State).host = [.wrBits [true, true]] ∧
    ({ tinyCapped 1 1 1 with host := [.wrSamples 0#32 [0#16, 0#16]] } : State).host = [.wrSamples 0#32 [0#16, 0#16]] := by
  decide

theorem witness_ReadPortsReturnTheValueAndChangeNothing :
    ∀ a ∈ [HostAction.rdBytes, .rdBits, .rdRem, .rdSamples, .rdHlen, .rdCfg],
      ({ tiny with host := [a] } : State).host = [a] := by decide

/-- Capacities that are just large enough. -/
theorem witness_ResetLeavesEmptyOperandsThatEveryCommandAccepts :
    tinyCfg.legal (tinyCapped 0 32 256).par = true ∧ fits 32 (tinyCapped 0 32 256).par.capBits = true ∧
      fits (tinyCfg.srate.toNat / tinyCfg.symrate.toNat * 32) (tinyCapped 0 32 256).par.capSamples = true := by decide

/-- A partly supplied parameter with a legal result, and (its sample rate below the symbol rate) one with an illegal result. -/
theorem witness_ResetEventLatchesTheConfiguration (legal : Bool) :
    let rate : U32 := if legal then 8000#32 else 49#32
    let r : ResetParam := ResetParam.mk (some rate) none (some 3) [none, some 7#32]
    let c : Cfg := Cfg.mk rate 50#32 3 [1000#32, 7#32, 3000#32]
    ({ tiny with host := [.reset r] } : State).host = [.reset r] ∧ r.car.length ≤ c.ncar ∧
      c.srate = r.srate.getD 19000#32 ∧ c.symrate = r.symrate.getD 50#32 ∧ c.ncar = r.ncar.getD 6 ∧
      c.car.length = c.ncar ∧
      (∀ j f, c.car[j]? = some f → r.car[j]? = some (some f) ∨
        (∀ g, r.car[j]? ≠ some (some g)) ∧ j < 6 ∧ f = BitVec.ofNat 32 (1000 * (j + 1))) ∧
      c.legal tiny.par = legal := by
  refine ⟨rfl, Nat.le_succ 2, rfl, rfl, rfl, rfl, ?_, by cases legal <;> decide⟩
  intro j f h
  rcases j with _ | _ | _ | j <;> simp at h <;> subst h <;> simp

/-- `CFG_NCAR` one above `NCAR_MAX`; one carrier too many; no value for the seventh carrier. -/
theorem witness_ResetEventLatchesTheConfiguration_refusals :
    (let r := ResetParam.mk none none (some 257) (List.replicate 257 (some 1#32))
     ({ tiny with host := [.reset r] } : State).host = [.reset r] ∧ tiny.par.ncarMax < r.ncar.getD 6) ∧
    (let r := ResetParam.mk none none (some 1) [none, none]
     ({ tiny with host := [.reset r] } : State).host = [.reset r] ∧ r.ncar.getD 6 < r.car.length) ∧
    (let r := ResetParam.mk none none (some 7) []
     ({ tiny with host := [.reset r] } : State).host = [.reset r] ∧
       ∃ j, 6 ≤ j ∧ j < r.ncar.getD 6 ∧ ∀ g, r.car[j]? ≠ some (some g)) :=
  ⟨⟨rfl, by decide⟩, ⟨rfl, by decide⟩, rfl, 6, by decide, by decide, by simp⟩

theorem witness_Bytes2BitsUnpacksMostSignificantBitFirst :
    fits (8 * [0x41#8, 0x42#8].length) (tinyCapped 9 16 9).par.capBits = true ∧
      fits (8 * [0x41#8, 0x42#8].length) (tinyCapped 9 15 9).par.capBits = false := by decide

theorem witness_Bits2BytesPacksWholeBytesOnly :
    (bitsOf 7 0).length % 8 ≠ 0 ∧
    ((bitsOf 16 0).length % 8 = 0 ∧ fits ((bitsOf 16 0).length / 8) (tinyCapped 1 16 9).par.capBytes = false) ∧
    ((bitsOf 16 0).length % 8 = 0 ∧ fits ((bitsOf 16 0).length / 8) (tinyCapped 2 16 9).par.capBytes = true) := by decide

theorem witness_BytePackingRoundTrips :
    (bitsOf 8 0x41).length % 8 = 0 ∧ fits (8 * [0x41#8].length) (tinyCapped 1 8 9).par.capBits = true ∧
      fits [0x41#8].length (tinyCapped 1 8 9).par.capBytes = true := by decide

theorem witness_HeaderFieldIsBigEndian : (bitsOf 32 0).length = 32 ∧ 2 ^ 32 - 1 < 2 ^ 32 := by decide

/-- A payload one bit too long, and the longest one, with and without the capacity for it. -/
theorem witness_BuildFramePrependsTheLength :
    (∃ T : List Bit, 2 ^ 32 - 1 < T.length) ∧
    ∃ T : List Bit, T.length ≤ 2 ^ 32 - 1 ∧ fits (32 + T.length) (some (2 ^ 32 + 30)) = false ∧
      fits (32 + T.length) (some (2 ^ 32 + 31)) = true := by
  refine ⟨⟨List.replicate (2 ^ 32) false, ?_⟩, List.replicate (2 ^ 32 - 1) false, ?_⟩ <;> rw [List.length_replicate] <;> decide

theorem witness_ParseFrameSplitsAtTheDeclaredLength : (bitsOf 31 0).length < 32 ∧ 32 ≤ (bitsOf 32 0).length := by decide

theorem witness_FramesRoundTrip :
    (bitsOf 3 0b101).length ≤ 2 ^ 32 - 1 ∧ fits (32 + (bitsOf 3 0b101).length) (tinyCapped 9 35 9).par.capBits = true := by
  decide

theorem witness_SecondBuildFrameFramesTheFrame :
    32 + [true].length ≤ 2 ^ 32 - 1 ∧ fits (64 + [true].length) (tinyCapped 9 65 9).par.capBits = true := by decide

/-- The largest sample rate; an index inside the buffer. -/
theorem witness_ModulateMatchesTheRealFormulas :
    1 ≤ 1 ∧ [1, 2] ≠ ([] : List ℕ) ∧ 2 ^ 32 - 1 < 2 ^ 32 ∧ 7 < 8 / 1 * [true].length := by decide

theorem witness_ModulateWritesTheModulatedBits :
    Legal (tinyCapped 9 9 24) ∧ fits (8 * (bitsOf 3 0b101).length) (tinyCapped 9 9 24).par.capSamples = true ∧
      Legal (tinyCapped 9 9 23) ∧ fits (8 * (bitsOf 3 0b101).length) (tinyCapped 9 9 23).par.capSamples = false := by decide

/-- The peak of one symbol of TINY is not zero, whatever its bit: sample 2 is `sin(π/2)` in magnitude. -/
theorem tiny_peak_ne_zero (b : Bit) : peak (signal [b] 8 1 [1, 2]) (8 / 1 * [b].length) ≠ 0 := by
  have h := abs_le_peak (x := signal [b] 8 1 [1, 2]) (n := 8 / 1 * [b].length) (j := 2) (by simp)
  have h2 : signal [b] 8 1 [1, 2] 2 = pol b := by
    have e : (2 * Real.pi * ((1 : ℕ) : ℝ) * (((2 : ℕ) : ℝ) / (((8 : ℕ) : ℝ) * ((1 : ℕ) : ℝ)))) = Real.pi / 2 := by
      push_cast
      ring
    show ((pol b : ℤ) : ℝ) * Real.sin (2 * Real.pi * ((1 : ℕ) : ℝ) * (((2 : ℕ) : ℝ) / (((8 : ℕ) : ℝ) * ((1 : ℕ) : ℝ)))) = pol b
    rw [e, Real.sin_pi_div_two, mul_one]
  intro h0
  rw [h2, h0] at h
  cases b <;> norm_num [pol] at h

theorem witness_ModulatorOutputIsFullScale :
    (1 ≤ 1 ∧ [1, 2] ≠ ([] : List ℕ) ∧ 8 < 2 ^ 32) ∧
      peak (signal [false] 8 1 [1, 2]) (8 / 1 * [false].length) ≠ 0 ∧ 0 < [false].length ∧ 1 ≤ 8 / 1 :=
  ⟨by decide, tiny_peak_ne_zero false, by decide, by decide⟩

theorem witness_ReferenceSamplesFollowTheClosedForm :
    [true, false][1]? = some false ∧ 379 < 380 := by decide

theorem witness_InexactReferenceSamplesMoveOnlyAtThePeaks : [true][0]? = some true ∧ 5 < 380 ∧ (0 % 6 + 1) * 5 % 19 = 5 := by
  decide

/-- The last bit differs; the first and the last bit of `NC + 1` agree. -/
theorem witness_ModulatorPolarityCyclingAndLength :
    (1 ≤ 1 ∧ [1, 2] ≠ ([] : List ℕ) ∧ 8 < 2 ^ 32 ∧ [true, false].length = [true, true].length ∧ 1 < [true, true].length ∧
      [true, false].getD 1 false = !([true, true].getD 1 false) ∧
      (∀ i, i ≠ 1 → [true, false].getD i false = [true, true].getD i false) ∧ 15 < 8 / 1 * [true, true].length) ∧
    ([true, false, true].length = [1, 2].length + 1 ∧
      [true, false, true].getD [1, 2].length false = [true, false, true].getD 0 false ∧ 7 < 8 / 1) := by
  refine ⟨⟨by decide, by decide, by decide, by decide, by decide, by decide, ?_, by decide⟩, by decide⟩
  intro i hi
  rcases i with _ | _ | i
  · rfl
  · exact absurd rfl hi
  · rfl

/-- A carrier at half the rate; one sample per symbol. -/
theorem witness_DegenerateCarriersLoseTheBits :
    (1 ≤ 1 ∧ [4] ≠ ([] : List ℕ) ∧ 8 < 2 ^ 32 ∧ 1 ≤ 8 / 1 ∧
      ∀ f ∈ [4].take [true, false].length, 8 / 1 = 1 ∨ 8 / 1 * 1 ∣ 2 * f) ∧
    (1 ≤ 5 ∧ [1] ≠ ([] : List ℕ) ∧ 5 < 2 ^ 32 ∧ 1 ≤ 5 / 5 ∧
      ∀ f ∈ [1].take [true, false, true].length, 5 / 5 = 1 ∨ 5 / 5 * 5 ∣ 2 * f) := by decide

theorem witness_DemodulateDecidesByTheRealCorrelation :
    1 ≤ 1 ∧ [1, 2] ≠ ([] : List ℕ) ∧ 8 < 2 ^ 32 ∧ 1 ≤ 8 / 1 ∧
      (demodulate (tinySymbols [false]) 8 1 [1, 2])[0]? = some false := by decide +kernel

/-- Rate 0; a rate that gives a symbol length, with and without the capacity for the bits. -/
theorem witness_DemodulateWritesTheDecidedBits :
    Legal (tinyCapped 9 2 24) ∧ 0 / 1 = 0 ∧ 8 / 1 ≠ 0 ∧
      fits ((List.replicate 24 0#16).length / (8 / 1)) (tinyCapped 9 2 24).par.capBits = false ∧
      fits ((List.replicate 23 0#16).length / (8 / 1)) (tinyCapped 9 2 24).par.capBits = true := by decide

theorem witness_TrailingSamplesAreDiscarded :
    1 ≤ 8 / 1 ∧ [1, 2] ≠ ([] : List ℕ) ∧ (List.replicate 7 1#16).length < 8 / 1 ∧ (tinySymbols [true]).length % (8 / 1) = 0 ∧ (List.replicate 7 1#16).length < 8 / 1 := by
  decide

theorem witness_FirstSampleOfASymbolIsIgnored :
    1 ≤ 1 ∧ [1, 2] ≠ ([] : List ℕ) ∧ 8 < 2 ^ 32 ∧ 1 ≤ 8 / 1 := by decide

/-- DM5: 256 zeros in TINY; 31 symbols; at the capacity. -/
theorem witness_SilenceReadsAsOnes :
    Legal (tinyCapped 9 32 256) ∧ (∀ x ∈ List.replicate 256 0#16, x = 0#16) ∧ 8 / 1 ≠ 0 ∧
      fits ((List.replicate 256 0#16).length / (8 / 1)) (tinyCapped 9 32 256).par.capBits = true ∧
      32 ≤ (List.replicate 256 0#16).length / (8 / 1) ∧
      fits ((List.replicate 255 0#16).length / (8 / 1)) (tinyCapped 9 32 256).par.capBits = true := by
  refine ⟨by decide, fun x hx => List.eq_of_mem_replicate hx, by decide, ?_, ?_, ?_⟩ <;> rw [List.length_replicate] <;> decide

/-- A 0 bit and a 1 bit. -/
theorem witness_NoiselessRoundTripRecoversBits (b : Bit) :
    1 ≤ 1 ∧ [1, 2] ≠ ([] : List ℕ) ∧ 8 < 2 ^ 32 ∧ 1 ≤ 8 / 1 ∧
      peak (signal [b] 8 1 [1, 2]) (8 / 1 * [b].length) ≠ 0 ∧ 0 < [b].length ∧ [b].getD 0 false = b :=
  ⟨le_rfl, by decide, by decide, by decide, tiny_peak_ne_zero b, Nat.one_pos, rfl⟩

/-- Each test of ENCODE in turn, the capacities at the boundary. -/
theorem witness_EncodeWritesFrameAndSamples :
    (Legal (tinyCapped 9 7 9) ∧ fits (8 * 1) (tinyCapped 9 7 9).par.capBits = false) ∧
    (Legal tiny ∧ ∃ B : List Byte, fits (8 * B.length) tiny.par.capBits = true ∧ 2 ^ 32 - 1 < 8 * B.length) ∧
    (Legal (tinyCapped 9 39 9) ∧ fits (8 * 1) (tinyCapped 9 39 9).par.capBits = true ∧
      fits (32 + 8 * 1) (tinyCapped 9 39 9).par.capBits = false) ∧
    (Legal (tinyCapped 9 40 319) ∧ fits (32 + 8 * 1) (tinyCapped 9 40 319).par.capBits = true ∧
      fits (8 * (32 + 8 * 1)) (tinyCapped 9 40 319).par.capSamples = false) ∧
    (Legal (tinyCapped 9 40 320) ∧ fits (32 + 8 * 1) (tinyCapped 9 40 320).par.capBits = true ∧
      fits (8 * (32 + 8 * 1)) (tinyCapped 9 40 320).par.capSamples = true) := by
  refine ⟨by decide, ⟨by decide, List.replicate (2 ^ 29) 0#8, rfl, ?_⟩, by decide, by decide, by decide⟩
  rw [List.length_replicate]
  decide

theorem witness_EncodeEqualsItsThreePhases :
    view (exec .encode tiny) (·.shown) = some ([.status 0x00#8], stat 0x00#8) ∧ tiny.shown = [] := by decide +kernel

/-- A header that is there, its length aligned or not, its payload a whole number of bytes or not, with and without the
capacity for the bytes; a rate below the symbol rate; a buffer of 31 symbols; no capacity for the bits. -/
theorem witness_DecodeTestsInDataFlowOrder :
    let dem := fun T => demodulateNum .exact (tinySymbols T) 8 1 [1, 2]
    let len := fun T => ∑ p ∈ Finset.range 32, ((dem T).getD p false).toNat * 2 ^ (31 - p)
    let pay := fun T => ((dem T).drop 32).take (len T)
    (Legal (tinyCapped 1 45 9) ∧ Legal (tinyCapped 0 31 9)) ∧ (0 / 1 = 0 ∧ 8 / 1 ≠ 0) ∧
    fits ((tinySymbols (hdr 0)).length / (8 / 1)) (tinyCapped 0 31 9).par.capBits = false ∧
    (dem (bitsOf 31 0)).length < 32 ∧
    (32 ≤ (dem (hdr 3 ++ bitsOf 3 0b101)).length ∧ len (hdr 3 ++ bitsOf 3 0b101) % 8 ≠ 0) ∧
    (len (hdr 16 ++ bitsOf 13 0b1010010111001) % 8 = 0 ∧ (pay (hdr 16 ++ bitsOf 13 0b1010010111001)).length % 8 ≠ 0) ∧
    (len (hdr 8 ++ bitsOf 8 0xA5) % 8 = 0 ∧ (pay (hdr 8 ++ bitsOf 8 0xA5)).length % 8 = 0 ∧
      fits ((pay (hdr 8 ++ bitsOf 8 0xA5)).length / 8) (tinyCapped 0 31 9).par.capBytes = false ∧
      fits ((pay (hdr 8 ++ bitsOf 8 0xA5)).length / 8) (tinyCapped 1 45 9).par.capBytes = true) := by
  simp only [Finset.sum_range_succ, Finset.sum_range_zero]
  decide +kernel

theorem witness_DecodeEqualsItsThreePhases :
    view (exec .decode { tiny with samples := tinySymbols (hdr 8 ++ bitsOf 8 0xA5), arate := 8#32 }) (·.shown) =
        some ([.status 0x00#8], stat 0x00#8) ∧ (0x00#8).extractLsb' 0 4 = 0#4 := by decide +kernel

/-- One byte, and the empty payload, with capacities that are just large enough. -/
theorem witness_ModemRoundTripRestoresTheBytes :
    (∀ B ∈ [[0x41#8], []],
      let s : State := { State.reset with
        par := { Params.default with
          capBytes := some B.length, capBits := some (32 + 8 * B.length), capSamples := some (380 * (32 + 8 * B.length)) }
        bytes := B }
      s.cfg = Cfg.reference ∧ Legal s ∧ 8 * s.bytes.length ≤ 2 ^ 32 - 1 ∧
        fits (32 + 8 * s.bytes.length) s.par.capBits = true ∧ fits s.bytes.length s.par.capBytes = true ∧
        fits (380 * (32 + 8 * s.bytes.length)) s.par.capSamples = true ∧ (s.bytes = [] ∨ s.bytes = [0x41#8])) ∧
    (bitsOf 31 0).length < 32 := by decide

theorem witness_FailedCommandsChangeNothing :
    view (step { tiny with host := [.issue 0x04#8] }) (·.shown) = some ([.status 0x01#8], stat 0x01#8) ∧
      view (step { tiny with host := [.issue 0x00#8] }) (·.shown) = some ([.status 0x09#8], stat 0x09#8) ∧
      (0x01#8).extractLsb' 0 4 ≠ 0#4 ∧ (0x09#8).extractLsb' 0 4 ≠ 0#4 := by decide

theorem witness_ReissuedCommandFailsTheSameWay :
    view (exec .parseframe tiny) (·.shown) = some ([.status 0x01#8], stat 0x01#8) ∧ (0x01#8).extractLsb' 0 4 ≠ 0#4 := by
  decide

theorem witness_EveryIssueReturnsOneStatusWord :
    (view (step { tiny with host := [.issue 0x06#8], arate := 9#32 }) (·.host)) = some ([], stat 0x10#8) := by decide +kernel

theorem witness_EachCommandReportsOnlyItsErrors :
    view (exec .bits2bytes { tiny with bits := [true] }) (·.shown) = some ([.status 0x03#8], stat 0x03#8) := by decide

theorem witness_UnboundedBuffersNeverRaiseCapacityError :
    (tiny.par.capBytes = none ∧ tiny.par.capBits = none ∧ tiny.par.capSamples = none) ∧
      view (exec .buildframe tiny) (·.shown) = some ([.status 0x00#8], stat 0x00#8) := by decide

theorem witness_CommandsWriteOnlyTheirDestinations : (view (exec .parseframe { tiny with bits := hdr 0 }) (·.hlen)).isSome := by
  decide

/-- Two states that differ in everything BUILDFRAME does not read. -/
theorem witness_CommandResultsDependOnTheirInputsOnly :
    let s' : State := { tiny with bytes := [1#8], rem := [true], samples := [1#16], arate := 0#32, hlen := 7#32 }
    s'.par = tiny.par ∧ s'.cfg = tiny.cfg ∧ s'.bits = tiny.bits ∧ (view (exec .buildframe tiny) (·.bits)).isSome := by decide

theorem witness_OnlyResetWritesTheConfiguration :
    (view (step { tiny with host := [.rdCfg] }) (·.cfg)).isSome ∧
      ({ tiny with host := [.rdCfg] } : State).host = HostAction.rdCfg :: [] ∧
      HostAction.rdCfg ≠ .reset (ResetParam.mk none none none []) := by decide

theorem witness_EveryCommandEnds : Legal tiny := by decide

/-- A write that does not fit, an illegal reset, and a command in a state whose configuration is illegal. -/
theorem witness_StepsStopOnlyOutsideTheRules :
    refusal (step { tinyCapped 0 9 9 with host := [.wrBytes [0#8]] }) = some .notAHostMove ∧
    refusal (step { tiny with host := [.reset (ResetParam.mk none (some 0#32) none [])] }) = some .illegalConfiguration ∧
    refusal (step { tiny with host := [.issue 0x05#8], cfg := { tinyCfg with ncar := 0 } }) = some .illegalConfiguration := by
  decide

theorem witness_StepKeepsTheInvariant :
    Inv { tiny with host := [.issue 0x03#8] } ∧ (view (step { tiny with host := [.issue 0x03#8] }) (·.bits)).isSome :=
  ⟨⟨by decide, by decide, by decide⟩, by decide⟩

theorem witness_ResetMeetsTheInvariant : Params.default.wf = true ∧ tinyCfg.legal Params.default = true := by decide

end Sys2Proof.Tests
end

section
/-! SUPPORT. Proofs about the state. First what a command, a host action and a step can do, each said once: the frame of a
command, the next states of an action, where an action stops. Then the statements of spec/10_state.md. -/

namespace Sys2Proof.Proofs

open Sys2Proof.Machine Sys2Proof.Safety Sys2Proof.Laws

/-! ### Words -/

/-- A word is its two fields (R56). -/
theorem rsvField_append_opField (c : Byte) : rsvField c ++ opField c = c := by
  unfold rsvField opField
  exact BitVec.extractLsb'_append_extractLsb'_eq_extractLsb' rfl |>.trans (by simp)

theorem ofOp_some {op : BitVec 4} {i : Instr} (h : ofOp op = some i) : encode i = 0#4 ++ op := by
  unfold ofOp at h
  split_ifs at h <;> cases h <;> subst op <;> rfl

/-- A word that decodes to a command is that command's word (R57, R58). -/
theorem encode_of_decode {c : Byte} {i : Instr} (h : decode c = .ok i) : encode i = c := by
  unfold decode at h
  split at h
  · cases h
  · rename_i hr
    split at h
    · rename_i j hj
      cases h
      rw [ofOp_some hj, ← not_not.1 hr, rsvField_append_opField]
    · cases h

/-- The commands that ask for a legal configuration are the words `0x05` to `0x08` (R57). -/
theorem needsLegal_word {c : Byte} {i : Instr} (hd : decode c = .ok i) (h : needsLegal i = true) :
    5 ≤ c.toNat ∧ c.toNat ≤ 8 := by
  rw [← encode_of_decode hd]
  cases i with
  | bytes2bits | bits2bytes | buildframe | parseframe => cases h
  | modulate | demodulate | encode | decode => decide

/-! ### What a command answers -/

/-- A command that answers a next state has reported an error with nothing changed, or has had its effect. -/
theorem exec_next {i : Instr} {s t : State} (h : exec i s = .next t) :
    (needsLegal i = true → Legal s) ∧
      ((∃ o, t = s.emit o) ∨ ∃ u o, Effect s u i ∧ t = u.emit o) := by
  obtain ⟨-, -, hx⟩ | ⟨hl, ⟨e, -, hx⟩ | ⟨u, hu, hx⟩⟩ := exec_cases i s
  · rw [hx] at h; cases h
  · rw [hx] at h; cases h; exact ⟨hl, .inl ⟨_, rfl⟩⟩
  · rw [hx] at h; cases h; exact ⟨hl, .inr ⟨u, _, hu, rfl⟩⟩

/-- A command stops only where it needs a legal configuration and has none (R18), and then with one refusal. -/
theorem exec_stops (i : Instr) (s : State) :
    (∃ t, exec i s = .next t) ∨
      needsLegal i = true ∧ s.cfg.legal s.par = false ∧ exec i s = .refused .illegalConfiguration := by
  obtain h | ⟨-, ⟨e, -, hx⟩ | ⟨u, -, hx⟩⟩ := exec_cases i s
  · exact .inr h
  · exact .inl ⟨_, hx⟩
  · exact .inl ⟨_, hx⟩

/-- The converse of `exec_cases` on success: a command whose effect is possible has it. -/
theorem exec_of_effect {i : Instr} {s t : State} (hl : needsLegal i = true → Legal s) (h : Effect s t i) :
    exec i s = succeed (warns s i) t := by
  cases i with
  | bytes2bits => obtain ⟨T, hT, rfl⟩ := h; simp only [exec, execBytes2Bits, hT]; rfl
  | bits2bytes => obtain ⟨B, hB, rfl⟩ := h; simp only [exec, execBits2Bytes, hB]; rfl
  | buildframe => obtain ⟨F, hF, rfl⟩ := h; simp only [exec, execBuildFrame, hF]; rfl
  | parseframe => obtain ⟨f, hf, rfl⟩ := h; simp only [exec, execParseFrame, hf]; rfl
  | modulate =>
    obtain ⟨v, hv, rfl⟩ := h
    simp only [exec, execModulate, hv, requireLegal_legal (hl rfl)]; rfl
  | demodulate =>
    obtain ⟨T, hT, rfl⟩ := h
    simp only [exec, execDemodulate, hT, requireLegal_legal (hl rfl)]; rfl
  | encode =>
    obtain ⟨F, v, hF, hv, rfl⟩ := h
    simp only [exec, execEncode, hF, hv, requireLegal_legal (hl rfl)]; rfl
  | decode =>
    obtain ⟨T, d, hT, hd, rfl⟩ := h
    simp only [exec, execDecode, hT, hd, requireLegal_legal (hl rfl)]; rfl

/-- No effect touches what the run has shown: only the report adds to it. -/
theorem effect_shown {i : Instr} {s t : State} (h : Effect s t i) : t.shown = s.shown := by
  cases i with
  | bytes2bits | bits2bytes | buildframe | parseframe | modulate | demodulate => obtain ⟨_, _, rfl⟩ := h; rfl
  | encode | decode => obtain ⟨_, _, _, _, rfl⟩ := h; rfl

/-- A command with a possible effect and no warning returns `0x00` and that effect (R37, R60). -/
theorem returns_of_effect {i : Instr} {s t : State} (hl : needsLegal i = true → Legal s) (hw : warns s i = false)
    (h : Effect s t i) : Returns i s 0x00#8 t := by
  rw [Returns, exec_of_effect hl h, succeed_eq, hw, effect_shown h]
  rfl

/-! ### The frame of a command -/

/-- From `s` to `t`, only the registers that R57 lists as written by the command `i` may differ, and what the run has shown. -/
def Frame (i : Instr) (s t : State) : Prop :=
  t.par = s.par ∧ t.cfg = s.cfg ∧ t.host = s.host ∧
    (i ∉ [.bits2bytes, .decode] → t.bytes = s.bytes) ∧
    (i ∉ [.bytes2bits, .buildframe, .parseframe, .demodulate, .encode, .decode] → t.bits = s.bits) ∧
    (i ∉ [.parseframe, .decode] → t.rem = s.rem ∧ t.hlen = s.hlen) ∧
    (i ∉ [.modulate, .encode] → t.samples = s.samples ∧ t.arate = s.arate)

theorem frame_refl (i : Instr) (s : State) : Frame i s s :=
  ⟨rfl, rfl, rfl, fun _ => rfl, fun _ => rfl, fun _ => ⟨rfl, rfl⟩, fun _ => ⟨rfl, rfl⟩⟩

/-- Showing something is outside every frame. -/
theorem frame_emit {i : Instr} {s t : State} (o : Obs) (h : Frame i s t) : Frame i s (t.emit o) := h

theorem effect_frame {i : Instr} {s t : State} (h : Effect s t i) : Frame i s t := by
  cases i with
  | bytes2bits | bits2bytes | buildframe | parseframe | modulate | demodulate =>
    obtain ⟨_, _, rfl⟩ := h
    simp [Frame]
  | encode | decode =>
    obtain ⟨_, _, _, _, rfl⟩ := h
    simp [Frame]

theorem exec_frame {i : Instr} {s t : State} (h : exec i s = .next t) : Frame i s t := by
  obtain ⟨-, ⟨o, rfl⟩ | ⟨u, o, hu, rfl⟩⟩ := exec_next h
  · exact frame_emit o (frame_refl i s)
  · exact frame_emit o (effect_frame hu)

/-! ### A command keeps the buffers within their capacities -/

/-- DECODE's results fit: the payload and the remainder are parts of the demodulated bits, which fit (R133). -/
theorem decodeBits_fits {p : Params} {T : List Bit} {d : Decoded} (h : decodeBits p T = .ok d)
    (hT : fits T.length p.capBits = true) :
    fits d.frame.payload.length p.capBits = true ∧ fits d.frame.remaining.length p.capBits = true ∧
      fits d.bytes.length p.capBytes = true := by
  obtain ⟨hf, -, hB⟩ := decodeBits_ok h
  obtain ⟨hpay, hrem⟩ := parseFrame_fits hf hT
  exact ⟨hpay, hrem, packPhase_fits hB⟩

theorem encodeFrame_fits {p : Params} {B : List Byte} {F : List Bit} (h : encodeFrame p B = .ok F) :
    fits F.length p.capBits = true := by
  obtain ⟨P, -, hF⟩ := encodeFrame_ok h
  exact framePhase_fits hF

/-- Each destination of a command takes a result that fits it (R46). -/
theorem effect_wf {i : Instr} {s t : State} (hl : needsLegal i = true → Legal s) (hs : Memory.wf s = true)
    (h : Effect s t i) : Memory.wf t = true := by
  cases i with
  | bytes2bits => obtain ⟨T, hT, rfl⟩ := h; exact setBits_wf hs (unpackPhase_fits hT)
  | bits2bytes => obtain ⟨B, hB, rfl⟩ := h; exact setBytes_wf hs (packPhase_fits hB)
  | buildframe => obtain ⟨F, hF, rfl⟩ := h; exact setBits_wf hs (framePhase_fits hF)
  | parseframe =>
    obtain ⟨f, hf, rfl⟩ := h
    obtain ⟨hpay, hrem⟩ := parseFrame_fits hf ((memory_wf_iff s).1 hs).2.1
    exact setRem_wf (setBits_wf hs hpay) hrem
  | modulate => obtain ⟨v, hv, rfl⟩ := h; exact setSamples_wf hs (modulatePhase_fits (hl rfl) hv)
  | demodulate => obtain ⟨T, hT, rfl⟩ := h; exact setBits_wf hs (demodulatePhase_fits hT)
  | encode =>
    obtain ⟨F, v, hF, hv, rfl⟩ := h
    exact setSamples_wf (setBits_wf hs (encodeFrame_fits hF)) (modulatePhase_fits (hl rfl) hv)
  | decode =>
    obtain ⟨T, d, hT, hd, rfl⟩ := h
    obtain ⟨hpay, hrem, hB⟩ := decodeBits_fits hd (demodulatePhase_fits hT)
    exact setBytes_wf (setRem_wf (setBits_wf hs hpay) hrem) hB

theorem exec_wf {i : Instr} {s t : State} (hs : Memory.wf s = true) (h : exec i s = .next t) : Memory.wf t = true := by
  obtain ⟨hl, ⟨o, rfl⟩ | ⟨u, o, hu, rfl⟩⟩ := exec_next h
  · exact hs
  · rw [emit_wf]; exact effect_wf hl hs hu

/-! ### What a host action and a step answer -/

/-- A reset latches the configuration its parameter gives, or is refused (R18, R170). -/
theorem resetEvent_cases (r : ResetParam) (s : State) :
    (∃ c, resetCfg s.par r = some c ∧ resetEvent r s = .next (applyReset s c)) ∨
      resetCfg s.par r = none ∧ resetEvent r s = .refused .illegalConfiguration := by
  unfold resetEvent
  cases resetCfg s.par r with
  | some c => exact .inl ⟨c, rfl, rfl⟩
  | none => exact .inr ⟨rfl, rfl⟩

/-- The next state of a host action: an item shown (a read port, an illegal word), a buffer written by its port, a command's
answer, or a reset. -/
theorem act_next {a : HostAction} {s t : State} (h : act a s = .next t) :
    (∃ o, t = s.emit o) ∨
    (∃ v, fits v.length s.par.capBytes = true ∧ t = { s with bytes := v }) ∨
    (∃ v, fits v.length s.par.capBits = true ∧ t = { s with bits := v }) ∨
    (∃ rate v, fits v.length s.par.capSamples = true ∧ t = { s with samples := v, arate := rate }) ∨
    (∃ i, exec i s = .next t) ∨
    (∃ r c, a = .reset r ∧ resetCfg s.par r = some c ∧ t = applyReset s c) := by
  cases a with
  | rdBytes | rdBits | rdRem | rdSamples | rdHlen | rdCfg => cases h; exact .inl ⟨_, rfl⟩
  | wrBytes v => obtain ⟨hv, rfl⟩ := writePort_cases h; exact .inr (.inl ⟨v, hv, rfl⟩)
  | wrBits v => obtain ⟨hv, rfl⟩ := writePort_cases h; exact .inr (.inr (.inl ⟨v, hv, rfl⟩))
  | wrSamples rate v => obtain ⟨hv, rfl⟩ := writePort_cases h; exact .inr (.inr (.inr (.inl ⟨rate, v, hv, rfl⟩)))
  | issue c =>
    obtain ⟨i, -, hx⟩ | ⟨-, hx⟩ := issueWord_cases c s
    · exact .inr (.inr (.inr (.inr (.inl ⟨i, hx.symm.trans h⟩))))
    · cases hx.symm.trans h; exact .inl ⟨_, rfl⟩
  | reset r =>
    obtain ⟨c, hc, hx⟩ | ⟨-, hx⟩ := resetEvent_cases r s
    · cases hx.symm.trans h
      exact .inr (.inr (.inr (.inr (.inr ⟨r, c, rfl, hc, rfl⟩))))
    · cases hx.symm.trans h

/-- A write port stops only on a sequence that does not fit (R42). -/
theorem writePort_stops (a : HostAction) (s u : State) :
    (∃ t, writePort a s u = .next t) ∨ a.wf s.par = false ∧ writePort a s u = .refused .notAHostMove := by
  unfold writePort
  split
  · exact .inl ⟨u, rfl⟩
  · exact .inr ⟨Bool.eq_false_iff.2 ‹_›, rfl⟩

/-- Where a host action stops: an overlong write, a reset that gives no legal configuration, or a command that needs a
legal configuration in a state that has none. -/
theorem act_stops (a : HostAction) (s : State) :
    (∃ t, act a s = .next t) ∨
    (act a s = .refused .notAHostMove ∧ a.wf s.par = false ∧ ∀ r, a ≠ .reset r) ∨
    (act a s = .refused .illegalConfiguration ∧
      ((∃ r, a = .reset r ∧ resetCfg s.par r = none) ∨
        ∃ c, a = .issue c ∧ 5 ≤ c.toNat ∧ c.toNat ≤ 8 ∧ s.cfg.legal s.par = false)) := by
  cases a with
  | rdBytes | rdBits | rdRem | rdSamples | rdHlen | rdCfg => exact .inl ⟨_, rfl⟩
  | wrBytes v | wrBits v | wrSamples rate v =>
    obtain h | ⟨hv, h⟩ := writePort_stops _ s _
    · exact .inl h
    · exact .inr (.inl ⟨h, hv, fun _ => nofun⟩)
  | issue c =>
    obtain ⟨i, hd, hx⟩ | ⟨-, hx⟩ := issueWord_cases c s
    · obtain ⟨t, ht⟩ | ⟨hn, hl, hr⟩ := exec_stops i s
      · exact .inl ⟨t, hx.trans ht⟩
      · obtain ⟨h5, h8⟩ := needsLegal_word hd hn
        exact .inr (.inr ⟨hx.trans hr, .inr ⟨c, rfl, h5, h8, hl⟩⟩)
    · exact .inl ⟨_, hx⟩
  | reset r =>
    obtain ⟨c, -, hx⟩ | ⟨hc, hx⟩ := resetEvent_cases r s
    · exact .inl ⟨_, hx⟩
    · exact .inr (.inr ⟨hx, .inl ⟨r, rfl, hc⟩⟩)

/-- A step is idle or does the action in front of the host's list (R49, R171). -/
theorem step_cases (s : State) :
    step s = .next s ∨ ∃ a rest, s.host = a :: rest ∧ step s = act a { s with host := rest } := by
  cases h : s.host with
  | nil => exact .inl (by unfold step nextAction; rw [h])
  | cons a rest => exact .inr ⟨a, rest, rfl, step_cons h⟩

/-! ### The invariant -/

/-- A change of the buffers alone keeps the invariant when they still fit. -/
theorem inv_of_wf {s t : State} (h : Inv s) (hp : t.par = s.par) (hc : t.cfg = s.cfg) (hm : Memory.wf t = true) :
    Inv t := by
  obtain ⟨hpar, hleg, -⟩ := h
  exact ⟨by rwa [hp], by rwa [Legal, hp, hc], hm⟩

theorem exec_inv {i : Instr} {s t : State} (hs : Inv s) (h : exec i s = .next t) : Inv t := by
  obtain ⟨hp, hc, -⟩ := exec_frame h
  have ⟨_, _, hm⟩ := hs
  exact inv_of_wf hs hp hc (exec_wf hm h)

theorem act_inv {a : HostAction} {s t : State} (hs : Inv s) (h : act a s = .next t) : Inv t := by
  have ⟨hpar, _, hm⟩ := hs
  obtain ⟨o, rfl⟩ | ⟨v, hv, rfl⟩ | ⟨v, hv, rfl⟩ | ⟨rate, v, hv, rfl⟩ | ⟨i, hx⟩ | ⟨r, c, -, hc, rfl⟩ := act_next h
  · exact hs
  · exact inv_of_wf hs rfl rfl (setBytes_wf hm hv)
  · exact inv_of_wf hs rfl rfl (setBits_wf hm hv)
  · exact inv_of_wf hs rfl rfl (setSamples_wf hm hv)
  · exact exec_inv hs hx
  · obtain ⟨-, hleg, -⟩ := resetCfg_some hc
    exact ⟨hpar, hleg, applyReset_wf s c⟩

/-- Settles O50: a write port or a command writes only what fits and leaves parameters and configuration alone, and a reset
latches only a legal configuration. -/
theorem stepKeepsTheInvariant : Obligations.StepKeepsTheInvariant := by
  intro s t hs h
  obtain hidle | ⟨a, rest, -, ha⟩ := step_cases s
  · rw [hidle] at h; cases h; exact hs
  · exact act_inv (s := { s with host := rest }) hs (ha ▸ h)

/-- Settles O51: the buffers of a reset state are empty. -/
theorem resetMeetsTheInvariant : Obligations.ResetMeetsTheInvariant :=
  ⟨⟨by decide, by decide, reset_wf⟩, fun p c hp hc => ⟨hp, hc, applyReset_wf (State.resetWith p c) c⟩⟩

/-! ### The frame, the configuration, the stops -/

/-- Settles O45: the frame of a command is the frame of its effect. -/
theorem commandsWriteOnlyTheirDestinations : Obligations.CommandsWriteOnlyTheirDestinations :=
  fun _ _ _ h => exec_frame h

theorem act_cfg {a : HostAction} {s t : State} (h : act a s = .next t) (hr : ∀ r, a ≠ .reset r) : t.cfg = s.cfg := by
  obtain ⟨o, rfl⟩ | ⟨v, -, rfl⟩ | ⟨v, -, rfl⟩ | ⟨rate, v, -, rfl⟩ | ⟨i, hx⟩ | ⟨r, c, ha, -, -⟩ := act_next h
  · rfl
  · rfl
  · rfl
  · rfl
  · obtain ⟨-, hc, -⟩ := exec_frame hx
    exact hc
  · exact absurd ha (hr r)

/-- Settles O47: no port and no command writes the configuration. -/
theorem onlyResetWritesTheConfiguration : Obligations.OnlyResetWritesTheConfiguration := by
  refine ⟨fun s t h hr => ?_, fun s rest h => step_cons h⟩
  obtain hidle | ⟨a, rest, hs, ha⟩ := step_cases s
  · rw [hidle] at h; cases h; rfl
  · exact act_cfg (s := { s with host := rest }) (ha ▸ h) fun r hreset => hr r rest (hreset ▸ hs)

/-- Where a step stops: `act_stops` of the action in front of the host's list. -/
theorem step_stops (s : State) :
    (∃ t, step s = .next t) ∨
    (step s = .refused .notAHostMove ∧
      ∃ a rest, s.host = a :: rest ∧ a.wf s.par = false ∧ ∀ r, a ≠ .reset r) ∨
    (step s = .refused .illegalConfiguration ∧
      ((∃ r rest, s.host = .reset r :: rest ∧ resetCfg s.par r = none) ∨
        ∃ c rest, s.host = .issue c :: rest ∧ 5 ≤ c.toNat ∧ c.toNat ≤ 8 ∧ s.cfg.legal s.par = false)) := by
  obtain hidle | ⟨a, rest, hs, ha⟩ := step_cases s
  · exact .inl ⟨s, hidle⟩
  · rw [ha, hs]
    obtain h | ⟨h, hw⟩ | ⟨h, ⟨r, rfl, hc⟩ | ⟨c, rfl, hc⟩⟩ := act_stops a { s with host := rest }
    · exact .inl h
    · exact .inr (.inl ⟨h, a, rest, rfl, hw⟩)
    · exact .inr (.inr ⟨h, .inl ⟨r, rest, rfl, hc⟩⟩)
    · exact .inr (.inr ⟨h, .inr ⟨c, rest, rfl, hc⟩⟩)

/-- Settles O49: the four clauses read off `step_stops`. -/
theorem stepsStopOnlyOutsideTheRules : Obligations.StepsStopOnlyOutsideTheRules := by
  refine ⟨fun _ => nofun, fun s h => ?_, fun s h => ?_, fun s r h => ?_⟩
  · obtain ⟨t, ht⟩ | ⟨-, hwrite⟩ | ⟨hr, -⟩ := step_stops s
    · cases ht.symm.trans h
    · exact hwrite
    · cases hr.symm.trans h
  · obtain ⟨t, ht⟩ | ⟨hr, -⟩ | ⟨-, hillegal⟩ := step_stops s
    · cases ht.symm.trans h
    · cases hr.symm.trans h
    · exact hillegal
  · obtain ⟨t, ht⟩ | ⟨hr, -⟩ | ⟨hr, -⟩ := step_stops s
    · cases ht.symm.trans h
    · cases hr.symm.trans h; exact .inl rfl
    · cases hr.symm.trans h; exact .inr rfl

/-! ### Legal configurations -/

theorem legal_iff {c : Cfg} {p : Params} :
    c.legal p = true ↔ 1 ≤ c.symrate.toNat ∧ c.symrate.toNat ≤ c.srate.toNat ∧ 1 ≤ c.ncar ∧ c.ncar ≤ p.ncarMax ∧
      c.car.length = c.ncar := by
  simp [Cfg.legal, and_assoc]

/-- Settles O12: there is a sample per symbol exactly when the sample rate is at least the symbol rate. -/
theorem legalConfigurationsAreThoseOfTheRule : Obligations.LegalConfigurationsAreThoseOfTheRule := by
  intro c p
  rw [legal_iff]
  exact and_congr_right fun hS => and_congr_left fun _ => by rw [Nat.le_div_iff_mul_le hS, one_mul]

/-- A legal configuration has a sample per symbol (R18). -/
theorem samplesPerSymbol_ne_zero {c : Cfg} {p : Params} (h : c.legal p = true) :
    samplesPerSymbol c.srate.toNat c.symrate.toNat ≠ 0 := by
  obtain ⟨-, hN, -⟩ := (legalConfigurationsAreThoseOfTheRule c p).1 h
  exact Nat.one_le_iff_ne_zero.1 hN

/-! ### The phases on the empty operands of a reset -/

theorem unpackPhase_nil (p : Params) : unpackPhase p [] = .ok [] := by
  simp [unpackPhase, fits_zero]

theorem packPhase_nil (p : Params) : packPhase p [] = .ok [] := by
  simp [packPhase, bitsToBytes, bytesOfGroups, fits_zero]

theorem framePhase_nil {p : Params} (h : fits 32 p.capBits = true) :
    framePhase p [] = .ok (List.replicate 32 false) := by
  have hbuild : buildFrame [] = List.replicate 32 false := by decide
  simp [framePhase, h, hbuild]

theorem encodeFrame_nil {p : Params} (h : fits 32 p.capBits = true) :
    encodeFrame p [] = .ok (List.replicate 32 false) := by
  rw [encodeFrame, unpackPhase_nil]
  exact framePhase_nil h

/-- Where the samples fit, the modulator gives them, `N` for each bit (R90, R99). -/
theorem modulatePhase_of_fits {p : Params} {c : Cfg} {T : List Bit} (hc : c.legal p = true)
    (h : fits (c.srate.toNat / c.symrate.toNat * T.length) p.capSamples = true) :
    ∃ v, v.length = c.srate.toNat / c.symrate.toNat * T.length ∧ modulatePhase p c T = .ok v :=
  ⟨_, length_modulateNum (carriers_ne_nil hc) .., if_pos h⟩

theorem modulatePhase_nil {p : Params} {c : Cfg} (hc : c.legal p = true) : modulatePhase p c [] = .ok [] := by
  obtain ⟨v, hv, h⟩ := modulatePhase_of_fits (T := []) hc (fits_zero _)
  rwa [List.eq_nil_of_length_eq_zero hv] at h

theorem demodulatePhase_nil {p : Params} {c : Cfg} (hc : c.legal p = true) :
    demodulatePhase p c c.srate [] = .ok [] := by
  have hfits : fits (([] : List I16).length / samplesPerSymbol c.srate.toNat c.symrate.toNat) p.capBits = true := by
    rw [List.length_nil, Nat.zero_div]
    exact fits_zero _
  have hnil : demodulateNum p.num [] c.srate.toNat c.symrate.toNat (carriers c) = [] :=
    List.eq_nil_of_length_eq_zero (by simp)
  unfold demodulatePhase
  simp only
  rw [if_neg (samplesPerSymbol_ne_zero hc), if_pos hfits, hnil]

/-! ### Reset -/

/-- Right after reset the actual rate is the configured one, so no command warns (R22, R111). -/
theorem warns_resetWith (p : Params) (c : Cfg) (i : Instr) : warns (State.resetWith p c) i = false := by
  cases i with
  | demodulate | decode => exact bne_self_eq_false c.srate
  | bytes2bits | bits2bytes | buildframe | parseframe | modulate | encode => rfl

/-- On a reset state with a legal configuration a command whose effect is possible returns `0x00` and that effect. -/
theorem resetWith_returns {p : Params} {c : Cfg} {i : Instr} {t : State} (hc : c.legal p = true)
    (h : Effect (State.resetWith p c) t i) : Returns i (State.resetWith p c) 0x00#8 t :=
  returns_of_effect (fun _ => hc) (warns_resetWith p c i) h

/-- PARSEFRAME on no bits: `TruncatedHeaderError` (R22, R84). -/
theorem resetWith_returns_parseframe (p : Params) (c : Cfg) :
    Returns .parseframe (State.resetWith p c) 0x01#8 (State.resetWith p c) := rfl

/-- DECODE on no samples: `TruncatedHeaderError`, without a warning (R22, R133). -/
theorem resetWith_returns_decode {p : Params} {c : Cfg} (hc : c.legal p = true) :
    Returns .decode (State.resetWith p c) 0x01#8 (State.resetWith p c) := by
  have hdem : demodulatePhase (State.resetWith p c).par (State.resetWith p c).cfg (State.resetWith p c).arate
      (State.resetWith p c).samples = .ok [] := demodulatePhase_nil hc
  have hwarn : rateMismatch (State.resetWith p c) = false := warns_resetWith p c .decode
  simp only [Returns, exec, execDecode, requireLegal_legal (s := State.resetWith p c) hc, hdem, hwarn]
  rfl

/-- Settles O10: each phase on empty operands, put together command by command. -/
theorem resetLeavesEmptyOperandsThatEveryCommandAccepts :
    Obligations.ResetLeavesEmptyOperandsThatEveryCommandAccepts := by
  refine ⟨⟨rfl, rfl, rfl, rfl, rfl⟩, fun p c hc => ⟨⟨rfl, rfl, rfl, rfl, rfl, rfl, rfl⟩,
    resetWith_returns hc ⟨[], unpackPhase_nil p, rfl⟩,
    resetWith_returns hc ⟨[], packPhase_nil p, rfl⟩,
    resetWith_returns hc ⟨[], modulatePhase_nil hc, rfl⟩,
    resetWith_returns hc ⟨[], demodulatePhase_nil hc, rfl⟩,
    resetWith_returns_parseframe p c, resetWith_returns_decode hc, fun hbits => ⟨?_, fun hsamples => ?_⟩⟩⟩
  · exact resetWith_returns hc ⟨_, framePhase_nil hbits, rfl⟩
  · obtain ⟨v, hlen, hv⟩ := modulatePhase_of_fits (T := List.replicate 32 false) hc hsamples
    exact ⟨v, by rw [hlen, List.length_replicate, Nat.mul_comm],
      resetWith_returns hc ⟨_, v, encodeFrame_nil hbits, hv, rfl⟩⟩

end Sys2Proof.Proofs
end

section
/-! SUPPORT. Proofs of the statements of spec/20_memory.md: the host ports, the step at an `ISSUE`, the end of every command,
and what a command's results depend on. For the last a command is read as one computation on the registers it reads
(`computed`), whose answer is an error or the write of its destinations. -/

namespace Sys2Proof.Proofs

open Sys2Proof.Machine Sys2Proof.Safety Sys2Proof.Laws

/-! ### Host ports (R38 to R42) -/

theorem writePort_overlong {a : HostAction} {s t : State} (h : a.wf s.par = false) :
    writePort a s t = .refused .notAHostMove := by
  simp [writePort, h]

/-- Settles O7: a step with a write in front is that write port, which takes a sequence that fits. -/
theorem writePortsSetOnlyTheirBuffers : Obligations.WritePortsSetOnlyTheirBuffers :=
  fun _ _ => ⟨fun _ h hfit => (step_cons h).trans (writePort_fits hfit),
    fun _ h hfit => (step_cons h).trans (writePort_fits hfit),
    fun _ _ h hfit => (step_cons h).trans (writePort_fits hfit)⟩

/-- Settles O8: a step with a write in front is that write port, which refuses a sequence that does not fit. -/
theorem overlongWritesAreRefused : Obligations.OverlongWritesAreRefused :=
  fun _ _ => ⟨fun _ h hlong => (step_cons h).trans (writePort_overlong hlong),
    fun _ h hlong => (step_cons h).trans (writePort_overlong hlong),
    fun _ _ h hlong => (step_cons h).trans (writePort_overlong hlong)⟩

/-- Settles O9: a step with a read in front shows the value of its register; each read port is that by definition. -/
theorem readPortsReturnTheValueAndChangeNothing : Obligations.ReadPortsReturnTheValueAndChangeNothing :=
  fun _ _ => ⟨step_cons, step_cons, step_cons, step_cons, step_cons, step_cons⟩

/-! ### The step at an `ISSUE` (R37, R42) -/

/-- `WordOf.Statement` of every command. -/
theorem wordOf (i : Instr) : WordOf.Statement i := by
  cases i with
  | bytes2bits => exact WordOf.bytes2bits
  | bits2bytes => exact WordOf.bits2bytes
  | buildframe => exact WordOf.buildframe
  | parseframe => exact WordOf.parseframe
  | modulate => exact WordOf.modulate
  | demodulate => exact WordOf.demodulate
  | encode => exact WordOf.encode
  | decode => exact WordOf.decode

theorem decode_encode (i : Instr) : decode (encode i) = .ok i := by
  obtain ⟨-, -, hdec⟩ := wordOf i
  exact (decodeBytes_ok (hdec [])).1

/-- A command word, numbered as the table numbers it, is itself. -/
theorem tableWord_toNat (c : Byte) : tableWord 8 c.toNat = c := by
  rw [tableWord, Nat.mod_eq_of_lt c.isLt, BitVec.ofNat_toNat, BitVec.setWidth_eq]

/-- `ISSUE` of a legal word is its command. -/
theorem issueWord_of_decode {c : Byte} {i : Instr} (h : decode c = .ok i) (s : State) : issueWord c s = exec i s := by
  obtain ⟨j, hj, hx⟩ | ⟨⟨e, he⟩, -⟩ := issueWord_cases c s
  · cases hj.symm.trans h; exact hx
  · cases he.symm.trans h

theorem step_issue {s : State} {c : Byte} {rest : List HostAction} {i : Instr} (hs : s.host = .issue c :: rest)
    (hd : decode c = .ok i) : step s = exec i { s with host := rest } :=
  (step_cons hs).trans (issueWord_of_decode hd _)

/-- Settles O4: the word placed in front by `State.withFetchWord` decodes to its command, so it is a case of the first part. -/
theorem stepRunsTheDecodedCommand : Obligations.StepRunsTheDecodedCommand := by
  refine ⟨fun s c rest i => step_issue, fun s i => ?_⟩
  have hs : (s.withFetchWord 8 (encode i).toNat).host = .issue (encode i) :: s.host := by
    rw [State.withFetchWord, tableWord_toNat]
  exact step_issue hs (decode_encode i)

/-- Settles O48: a command stops only for want of a legal configuration. -/
theorem everyCommandEnds : Obligations.EveryCommandEnds := by
  intro i s hlegal
  obtain h | ⟨-, hillegal, -⟩ := exec_stops i s
  · exact h
  · cases hillegal.symm.trans hlegal

/-! ### A command as one computation (R37) -/

/-- What the command `i` computes from the registers of `s` that it reads: an error, or the write of its destinations. -/
def computed (i : Instr) (s : State) : Except Err (State → State) :=
  match i with
  | .bytes2bits => do
    let T ← unpackPhase s.par s.bytes
    .ok fun u => { u with bits := T }
  | .bits2bytes => do
    let B ← packPhase s.par s.bits
    .ok fun u => { u with bytes := B }
  | .buildframe => do
    let F ← framePhase s.par s.bits
    .ok fun u => { u with bits := F }
  | .parseframe => do
    let f ← parseFrame s.bits
    .ok fun u => { u with bits := f.payload, rem := f.remaining, hlen := f.declared }
  | .modulate => do
    let v ← modulatePhase s.par s.cfg s.bits
    .ok fun u => { u with samples := v, arate := s.cfg.srate }
  | .demodulate => do
    let T ← demodulatePhase s.par s.cfg s.arate s.samples
    .ok fun u => { u with bits := T }
  | .encode => do
    let F ← encodeFrame s.par s.bytes
    let v ← modulatePhase s.par s.cfg F
    .ok fun u => { u with bits := F, samples := v, arate := s.cfg.srate }
  | .decode => do
    let T ← demodulatePhase s.par s.cfg s.arate s.samples
    let d ← decodeBits s.par T
    .ok fun u => { u with bits := d.frame.payload, rem := d.frame.remaining, hlen := d.frame.declared, bytes := d.bytes }

theorem ok_bind {α β : Type} (a : α) (f : α → Except Err β) : (.ok a >>= f) = f a := rfl

theorem bind_eq_ok {α β : Type} {x : Except Err α} {f : α → Except Err β} {b : β} (h : x >>= f = .ok b) :
    ∃ a, x = .ok a ∧ f a = .ok b := by
  cases x with
  | error e => cases h
  | ok a => exact ⟨a, rfl, h⟩

theorem bind_ne_error {α β : Type} {x : Except Err α} {f : α → Except Err β} {e : Err} (hx : x ≠ .error e)
    (hf : ∀ a, f a ≠ .error e) : x >>= f ≠ .error e := by
  cases x with
  | error e' => exact fun h => hx (by cases h; rfl)
  | ok a => exact hf a

/-- A command reports what it computed, written into the state it was issued in (R37). -/
theorem exec_eq_report {i : Instr} {s : State} (hl : needsLegal i = true → Legal s) :
    exec i s = report (warns s i) s ((computed i s).map fun write => write s) := by
  cases i with
  | bytes2bits =>
    simp only [exec, execBytes2Bits, computed]
    cases unpackPhase s.par s.bytes <;> rfl
  | bits2bytes =>
    simp only [exec, execBits2Bytes, computed]
    cases packPhase s.par s.bits <;> rfl
  | buildframe =>
    simp only [exec, execBuildFrame, computed]
    cases framePhase s.par s.bits <;> rfl
  | parseframe =>
    simp only [exec, execParseFrame, computed]
    cases parseFrame s.bits <;> rfl
  | modulate =>
    simp only [exec, execModulate, computed, requireLegal_legal (hl rfl)]
    cases modulatePhase s.par s.cfg s.bits <;> rfl
  | demodulate =>
    simp only [exec, execDemodulate, computed, requireLegal_legal (hl rfl)]
    cases demodulatePhase s.par s.cfg s.arate s.samples <;> rfl
  | encode =>
    simp only [exec, execEncode, computed, requireLegal_legal (hl rfl)]
    cases encodeFrame s.par s.bytes with
    | error e => rfl
    | ok F =>
      simp only [ok_bind]
      cases modulatePhase s.par s.cfg F <;> rfl
  | decode =>
    simp only [exec, execDecode, computed, requireLegal_legal (hl rfl)]
    cases demodulatePhase s.par s.cfg s.arate s.samples with
    | error e => rfl
    | ok T =>
      simp only [ok_bind]
      cases decodeBits s.par T <;> rfl

/-- A command that answers a next state shows one status word, of the error it computed with nothing changed or of success
with the destinations written. -/
theorem exec_next_computed {i : Instr} {s t : State} (h : exec i s = .next t) :
    (∃ e, computed i s = .error e ∧ t = s.emit (.status (statusWord (warns s i) (some e)))) ∨
      ∃ write, computed i s = .ok write ∧ t = (write s).emit (.status (statusWord (warns s i) none)) := by
  obtain ⟨hl, -⟩ := exec_next h
  rw [exec_eq_report hl] at h
  cases hc : computed i s with
  | error e => rw [hc] at h; cases h; exact .inl ⟨e, rfl, rfl⟩
  | ok write => rw [hc] at h; cases h; exact .inr ⟨write, rfl, rfl⟩

/-! ### What a command reads and what it writes (R57) -/

/-- The states `s` and `s'` agree on the open parameters, the configuration and the registers the command `i` reads. -/
def SameInputs (i : Instr) (s s' : State) : Prop :=
  s'.par = s.par ∧ s'.cfg = s.cfg ∧
    match i with
    | .bytes2bits | .encode => s'.bytes = s.bytes
    | .bits2bytes | .buildframe | .parseframe | .modulate => s'.bits = s.bits
    | .demodulate | .decode => s'.samples = s.samples ∧ s'.arate = s.arate

/-- The states `t` and `t'` agree on the registers the command `i` writes. -/
def SameResults (i : Instr) (t t' : State) : Prop :=
  match i with
  | .bytes2bits | .buildframe | .demodulate => t'.bits = t.bits
  | .bits2bytes => t'.bytes = t.bytes
  | .parseframe => t'.bits = t.bits ∧ t'.rem = t.rem ∧ t'.hlen = t.hlen
  | .modulate => t'.samples = t.samples ∧ t'.arate = t.arate
  | .encode => t'.bits = t.bits ∧ t'.samples = t.samples ∧ t'.arate = t.arate
  | .decode => t'.bits = t.bits ∧ t'.rem = t.rem ∧ t'.hlen = t.hlen ∧ t'.bytes = t.bytes

theorem computed_congr {i : Instr} {s s' : State} (h : SameInputs i s s') : computed i s' = computed i s := by
  obtain ⟨hpar, hcfg, hin⟩ := h
  cases i with
  | bytes2bits | encode =>
    have hbytes : s'.bytes = s.bytes := hin
    simp only [computed, hpar, hcfg, hbytes]
  | bits2bytes | buildframe | parseframe | modulate =>
    have hbits : s'.bits = s.bits := hin
    simp only [computed, hpar, hcfg, hbits]
  | demodulate | decode =>
    obtain ⟨hsamples, harate⟩ := hin
    simp only [computed, hpar, hcfg, hsamples, harate]

theorem warns_congr {i : Instr} {s s' : State} (h : SameInputs i s s') : warns s' i = warns s i := by
  obtain ⟨-, hcfg, hin⟩ := h
  cases i with
  | demodulate | decode =>
    obtain ⟨-, harate⟩ := hin
    simp only [warns, rateMismatch, hcfg, harate]
  | bytes2bits | bits2bytes | buildframe | parseframe | modulate | encode => rfl

/-- What a command writes does not depend on the state it is written into, and the run's trace is not written. -/
theorem computed_writes {i : Instr} {s : State} {write : State → State} (h : computed i s = .ok write) :
    (∀ u, (write u).shown = u.shown) ∧ ∀ u u', SameResults i (write u) (write u') := by
  cases i with
  | bytes2bits | bits2bytes | buildframe | demodulate =>
    obtain ⟨_, -, hw⟩ := bind_eq_ok h
    cases hw
    exact ⟨fun _ => rfl, fun _ _ => rfl⟩
  | parseframe =>
    obtain ⟨f, -, hw⟩ := bind_eq_ok h
    cases hw
    exact ⟨fun _ => rfl, fun _ _ => ⟨rfl, rfl, rfl⟩⟩
  | modulate =>
    obtain ⟨v, -, hw⟩ := bind_eq_ok h
    cases hw
    exact ⟨fun _ => rfl, fun _ _ => ⟨rfl, rfl⟩⟩
  | encode =>
    obtain ⟨F, -, hF⟩ := bind_eq_ok h
    obtain ⟨v, -, hw⟩ := bind_eq_ok hF
    cases hw
    exact ⟨fun _ => rfl, fun _ _ => ⟨rfl, rfl, rfl⟩⟩
  | decode =>
    obtain ⟨T, -, hT⟩ := bind_eq_ok h
    obtain ⟨d, -, hw⟩ := bind_eq_ok hT
    cases hw
    exact ⟨fun _ => rfl, fun _ _ => ⟨rfl, rfl, rfl, rfl⟩⟩

/-- Settles O46: on the same inputs a command computes the same error or the same write, and warns alike. -/
theorem commandResultsDependOnTheirInputsOnly : Obligations.CommandResultsDependOnTheirInputsOnly := by
  intro i s s' t hpar hcfg hin h
  have hsame : SameInputs i s s' := ⟨hpar, hcfg, hin⟩
  obtain ⟨hl, -⟩ := exec_next h
  have hx' := exec_eq_report (i := i) (s := s') (by rwa [Legal, hpar, hcfg])
  rw [warns_congr hsame, computed_congr hsame] at hx'
  obtain ⟨e, hc, rfl⟩ | ⟨write, hc, rfl⟩ := exec_next_computed h
  · rw [hc] at hx'
    refine ⟨_, statusWord (warns s i) (some e), hx', rfl, rfl, fun h0 => ?_⟩
    obtain ⟨-, -, herr⟩ := statusWord_fields (warns s i) (some e)
    cases errField_eq_zero.1 (herr.symm.trans h0)
  · rw [hc] at hx'
    obtain ⟨hshown, hres⟩ := computed_writes hc
    exact ⟨_, statusWord (warns s i) none, hx', by rw [emit_shown, hshown], by rw [emit_shown, hshown], fun _ => hres s s'⟩

/-! ### No capacity, no `CapacityError` (R46) -/

theorem unpackPhase_ne_capacity {p : Params} (h : p.capBits = none) (B : List Byte) :
    unpackPhase p B ≠ .error .capacity := by
  simp [unpackPhase, h, fits]

theorem packPhase_ne_capacity {p : Params} (h : p.capBytes = none) (T : List Bit) :
    packPhase p T ≠ .error .capacity := by
  rw [packPhase, bitsToBytes_eq]
  by_cases h8 : T.length % 8 = 0 <;> simp [h8, h, fits]

theorem framePhase_ne_capacity {p : Params} (h : p.capBits = none) (P : List Bit) :
    framePhase p P ≠ .error .capacity := by
  rw [framePhase]
  split <;> simp [h, fits]

theorem parseFrame_ne_capacity (F : List Bit) : parseFrame F ≠ .error .capacity :=
  fun h => by cases parseFrame_error h

theorem modulatePhase_ne_capacity {p : Params} (h : p.capSamples = none) (c : Cfg) (T : List Bit) :
    modulatePhase p c T ≠ .error .capacity := by
  simp [modulatePhase, h, fits]

theorem demodulatePhase_ne_capacity {p : Params} (h : p.capBits = none) (c : Cfg) (Ra : U32) (v : List I16) :
    demodulatePhase p c Ra v ≠ .error .capacity := by
  unfold demodulatePhase
  simp only
  split <;> simp [h, fits]

theorem encodeFrame_ne_capacity {p : Params} (h : p.capBits = none) (B : List Byte) :
    encodeFrame p B ≠ .error .capacity := by
  unfold encodeFrame
  split
  · rename_i e he
    exact fun hcap => unpackPhase_ne_capacity h B (he.trans hcap)
  · exact framePhase_ne_capacity h _

theorem decodeBits_ne_capacity {p : Params} (h : p.capBytes = none) (T : List Bit) :
    decodeBits p T ≠ .error .capacity := by
  unfold decodeBits
  split
  · rename_i e he
    intro hcap
    cases hcap
    exact parseFrame_ne_capacity T he
  · rename_i f hf
    split
    · nofun
    · split
      · rename_i e he
        intro hcap
        cases hcap
        exact packPhase_ne_capacity h f.payload he
      · nofun

theorem computed_ne_capacity {s : State} (hbytes : s.par.capBytes = none) (hbits : s.par.capBits = none)
    (hsamples : s.par.capSamples = none) (i : Instr) : computed i s ≠ .error .capacity := by
  cases i with
  | bytes2bits => exact bind_ne_error (unpackPhase_ne_capacity hbits _) fun _ => nofun
  | bits2bytes => exact bind_ne_error (packPhase_ne_capacity hbytes _) fun _ => nofun
  | buildframe => exact bind_ne_error (framePhase_ne_capacity hbits _) fun _ => nofun
  | parseframe => exact bind_ne_error (parseFrame_ne_capacity _) fun _ => nofun
  | modulate => exact bind_ne_error (modulatePhase_ne_capacity hsamples _ _) fun _ => nofun
  | demodulate => exact bind_ne_error (demodulatePhase_ne_capacity hbits _ _ _) fun _ => nofun
  | encode =>
    exact bind_ne_error (encodeFrame_ne_capacity hbits _) fun F =>
      bind_ne_error (modulatePhase_ne_capacity hsamples _ F) fun _ => nofun
  | decode =>
    exact bind_ne_error (demodulatePhase_ne_capacity hbits _ _ _) fun T =>
      bind_ne_error (decodeBits_ne_capacity hbytes T) fun _ => nofun

/-- The error code is 8 exactly on `CapacityError` (R141). -/
theorem errField_eq_capacity {e : Option Err} : errField e = 8#4 ↔ e = some .capacity := by
  cases e with
  | none => decide
  | some e => cases e <;> decide

/-- Settles O44: no phase gives `CapacityError` where every capacity is unbounded. -/
theorem unboundedBuffersNeverRaiseCapacityError : Obligations.UnboundedBuffersNeverRaiseCapacityError := by
  intro i s t w hbytes hbits hsamples h hw hcap
  have herr : ∀ e, w = statusWord (warns s i) e → e = some .capacity := by
    rintro e rfl
    obtain ⟨-, -, hfield⟩ := statusWord_fields (warns s i) e
    exact errField_eq_capacity.1 (hfield.symm.trans hcap)
  obtain ⟨e, hc, rfl⟩ | ⟨write, hc, rfl⟩ := exec_next_computed h
  · cases herr (some e) (by simpa using hw.symm)
    exact computed_ne_capacity hbytes hbits hsamples i hc
  · obtain ⟨hshown, -⟩ := computed_writes hc
    cases herr none (by simpa [hshown] using hw.symm)

end Sys2Proof.Proofs
end

section
/-! SUPPORT. Proofs of the statements of spec/30_encoding.md: the command words, the header field, the status word, the lines of
a listing. -/

namespace Sys2Proof.Proofs

open Sys2Proof.Machine Sys2Proof.Safety Sys2Proof.Laws

/-! ### Command words (R56 to R59) -/

/-- Decoding and encoding are inverse to each other (R57). -/
theorem decode_eq_ok_iff {c : Byte} {i : Instr} : decode c = .ok i ↔ encode i = c :=
  ⟨encode_of_decode, fun h => h ▸ decode_encode i⟩

/-- Settles O1: the encoder's table is R57's, and each word decodes to the command it encodes. -/
theorem commandWordsDecodeToTheirCommands : Obligations.CommandWordsDecodeToTheirCommands :=
  ⟨⟨decode_encode .bytes2bits, rfl⟩, ⟨decode_encode .bits2bytes, rfl⟩, ⟨decode_encode .buildframe, rfl⟩,
    ⟨decode_encode .parseframe, rfl⟩, ⟨decode_encode .modulate, rfl⟩, ⟨decode_encode .demodulate, rfl⟩,
    ⟨decode_encode .encode, rfl⟩, ⟨decode_encode .decode, rfl⟩⟩

/-- Settles O2: `WordOf.Statement` of every command, and a decoded word is its two fields. -/
theorem decodeAndEncodeAgree : Obligations.DecodeAndEncodeAgree := by
  refine ⟨fun i rest _ => ?_, fun w i => encode_of_decode⟩
  obtain ⟨-, -, hdec⟩ := wordOf i
  exact hdec rest

/-- The words of the encoder are `0x01` to `0x08` (R57). -/
theorem exists_encode_iff (c : Byte) : (∃ i, encode i = c) ↔ 1 ≤ c.toNat ∧ c.toNat ≤ 8 := by
  constructor
  · rintro ⟨i, rfl⟩
    cases i with
    | bytes2bits | bits2bytes | buildframe | parseframe | modulate | demodulate | encode | decode => decide
  · rintro ⟨h1, h8⟩
    have hword : ∀ i : Instr, c.toNat = (encode i).toNat → ∃ i, encode i = c :=
      fun i h => ⟨i, BitVec.eq_of_toNat_eq h.symm⟩
    interval_cases h : c.toNat
    · exact hword .bytes2bits rfl
    · exact hword .bits2bytes rfl
    · exact hword .buildframe rfl
    · exact hword .parseframe rfl
    · exact hword .modulate rfl
    · exact hword .demodulate rfl
    · exact hword .encode rfl
    · exact hword .decode rfl

/-- The legal words are `0x01` to `0x08` (R58). -/
theorem exists_decode_iff (c : Byte) : (∃ i, decode c = .ok i) ↔ 1 ≤ c.toNat ∧ c.toNat ≤ 8 := by
  simp only [decode_eq_ok_iff, exists_encode_iff]

/-- Settles O3: a word outside `0x01 .. 0x08` decodes to no command, so its `ISSUE` raises `IllegalCommandError`. -/
theorem illegalWordsRaiseAndChangeNothing : Obligations.IllegalWordsRaiseAndChangeNothing := by
  intro s c rest hs
  refine ⟨exists_decode_iff c, fun hc => ?_⟩
  obtain ⟨i, hd, -⟩ | ⟨-, hx⟩ := issueWord_cases c { s with host := rest }
  · exact absurd ((exists_decode_iff c).1 ⟨i, hd⟩) hc
  · exact (step_cons hs).trans hx

/-! ### The header field (R52) -/

/-- The last bit of a sequence is the lowest of its number, so the sequence read backwards is the number bit by bit (R47). -/
theorem testBit_bitsValue (h : List Bit) (q : ℕ) : (bitsValue h).testBit q = h.reverse.getD q false := by
  induction h using List.reverseRecOn generalizing q with
  | nil => simp [bitsValue]
  | append_singleton h b ih =>
    rw [bitsValue_append, ← Nat.bit_val, List.reverse_append]
    cases q with
    | zero => simp
    | succ q => simpa [Nat.testBit_bit_succ] using ih q

/-- The number of a sequence as the sum of its bits, each with the weight of its position. -/
theorem bitsValue_eq_sum (h : List Bit) :
    bitsValue h = ∑ p ∈ Finset.range h.length, (h.getD p false).toNat * 2 ^ (h.length - 1 - p) := by
  induction h using List.reverseRecOn with
  | nil => rfl
  | append_singleton h b ih =>
    rw [bitsValue_append, ih, List.length_append, List.length_singleton, Finset.sum_range_succ, Finset.mul_sum]
    congr 1
    · refine Finset.sum_congr rfl fun p hp => ?_
      have hp : p < h.length := Finset.mem_range.1 hp
      rw [List.getD_append _ _ _ _ hp, show h.length + 1 - 1 - p = h.length - 1 - p + 1 by omega, pow_succ]
      ring
    · simp

theorem hdr_bitsValue {h : List Bit} (hlen : h.length = 32) : hdr (bitsValue h) = h := by
  refine List.ext_getElem? fun p => ?_
  by_cases hp : p < 32
  · rw [getElem?_hdr _ hp, testBit_bitsValue, List.getD_eq_getElem?_getD, List.getElem?_reverse (by omega),
      show h.length - 1 - (31 - p) = p by omega, List.getElem?_eq_getElem (by omega), Option.getD_some]
  · rw [List.getElem?_eq_none (by simpa using hp), List.getElem?_eq_none (by omega)]

theorem bitsValue_hdr {L : ℕ} (hL : L < 2 ^ 32) : bitsValue (hdr L) = L := by
  refine Nat.eq_of_testBit_eq fun q => ?_
  rw [testBit_bitsValue, List.getD_eq_getElem?_getD]
  by_cases hq : q < 32
  · rw [List.getElem?_reverse (by simpa using hq), length_hdr, getElem?_hdr _ (by omega), Option.getD_some]
    congr 1
    omega
  · have hpow : L < 2 ^ q := hL.trans_le (Nat.pow_le_pow_right (by decide) (by omega))
    rw [List.getElem?_eq_none (by simpa using hq), Nat.testBit_lt_two_pow hpow, Option.getD_none]

/-- Settles O16: the sum and the bits of `bitsValue`, for the 32 positions of a header. -/
theorem headerFieldIsBigEndian : Obligations.HeaderFieldIsBigEndian := by
  refine ⟨fun L => ⟨length_hdr L, fun p => getElem?_hdr L⟩, fun h hlen => ⟨?_, ?_, hdr_bitsValue hlen⟩,
    fun L => bitsValue_hdr⟩
  · simpa [hlen] using bitsValue_eq_sum h
  · simpa [hlen] using bitsValue_lt h

/-! ### The status word (R60) -/

/-- A command that answers shows one status word: its warning bit, and success or an error of its own (R60, R141). -/
theorem exec_status {i : Instr} {s t : State} (h : exec i s = .next t) :
    ∃ e : Option Err, (∀ k ∈ e, k ∈ errorsOf i) ∧ t.shown = s.shown ++ [.status (statusWord (warns s i) e)] := by
  obtain ⟨-, -, hx⟩ | ⟨-, ⟨e, he, hx⟩ | ⟨u, hu, hx⟩⟩ := exec_cases i s
  · cases hx.symm.trans h
  · cases hx.symm.trans h
    exact ⟨some e, by simpa using he, rfl⟩
  · cases hx.symm.trans h
    exact ⟨none, nofun, by rw [emit_shown, effect_shown hu]⟩

/-- Only DEMODULATE, word `0x06`, and DECODE, word `0x08`, can warn (R60, R143). -/
theorem warns_iff (s : State) (i : Instr) :
    warns s i = true ↔ (encode i = 0x06#8 ∨ encode i = 0x08#8) ∧ s.arate ≠ s.cfg.srate := by
  cases i with
  | demodulate | decode => simp [warns, rateMismatch, encode]
  | bytes2bits | bits2bytes | buildframe | parseframe | modulate | encode => simp [warns, encode]

/-- The error codes of the block: R141's without the two host-side kinds (R151). -/
theorem errField_mem {e : Option Err} (h : ∀ k ∈ e, k ≠ .unreadableAudio ∧ k ≠ .unreadableFile) :
    (errField e).toNat ∈ [0, 1, 2, 3, 6, 7, 8, 9] := by
  cases e with
  | none => decide
  | some k =>
    obtain ⟨haudio, hfile⟩ := h k rfl
    cases k with
    | unreadableAudio => exact absurd rfl haudio
    | unreadableFile => exact absurd rfl hfile
    | truncatedHeader | unalignedPayload | invalidLength | lengthOverflow | degenerateRate | capacity | illegalCommand =>
      decide

/-- No command reports a host-side kind (R151). -/
theorem errorsOf_ne_host {i : Instr} {k : Err} (h : k ∈ errorsOf i) : k ≠ .unreadableAudio ∧ k ≠ .unreadableFile := by
  have hnot : .unreadableAudio ∉ errorsOf i ∧ .unreadableFile ∉ errorsOf i := by
    cases i with
    | bytes2bits | bits2bytes | buildframe | parseframe | modulate | demodulate | encode | decode => decide
  obtain ⟨haudio, hfile⟩ := hnot
  exact ⟨fun hk => haudio (hk ▸ h), fun hk => hfile (hk ▸ h)⟩

/-- An `ISSUE` that answers shows one status word, a command's or that of an illegal word, which never warns (R58, R60). -/
theorem issueWord_status {c : Byte} {s t : State} (h : issueWord c s = .next t) :
    ∃ (w : Bool) (e : Option Err), t.shown = s.shown ++ [.status (statusWord w e)] ∧
      (w = true ↔ (c = 0x06#8 ∨ c = 0x08#8) ∧ s.arate ≠ s.cfg.srate) ∧
      ∀ k ∈ e, k ≠ .unreadableAudio ∧ k ≠ .unreadableFile := by
  obtain ⟨i, hd, hx⟩ | ⟨⟨e, he⟩, hx⟩ := issueWord_cases c s
  · obtain ⟨e, herr, hshown⟩ := exec_status (hx.symm.trans h)
    exact ⟨_, e, hshown, encode_of_decode hd ▸ warns_iff s i, fun k hk => errorsOf_ne_host (herr k hk)⟩
  · cases hx.symm.trans h
    refine ⟨false, some .illegalCommand, rfl, ⟨nofun, ?_⟩, by simp⟩
    rintro ⟨rfl | rfl, -⟩
    · cases he.symm.trans (decode_encode .demodulate)
    · cases he.symm.trans (decode_encode .decode)

/-- The block after reset, with no samples and an actual rate 1 Hz above the configured one (R111). -/
def offRate : State := { State.reset with arate := 19001#32 }

theorem demodulatePhase_offRate :
    demodulatePhase offRate.par offRate.cfg offRate.arate offRate.samples = .ok [] := rfl

/-- DEMODULATE on no samples warns and succeeds (R60). -/
theorem exec_demodulate_offRate : exec .demodulate offRate = .next (offRate.emit (.status 0x10#8)) :=
  exec_of_effect (fun _ => by decide) ⟨[], demodulatePhase_offRate, rfl⟩

/-- DECODE on no samples warns and fails with `TruncatedHeaderError` (R60). -/
theorem exec_decode_offRate : exec .decode offRate = .next (offRate.emit (.status 0x11#8)) := rfl

/-- Settles O42: the fields of the status word that `issueWord_status` gives; `W` with and without an error on `offRate`. -/
theorem everyIssueReturnsOneStatusWord : Obligations.EveryIssueReturnsOneStatusWord := by
  refine ⟨fun s t c rest hs h => ?_, ⟨offRate, _, exec_demodulate_offRate, rfl⟩, ⟨offRate, _, exec_decode_offRate, rfl⟩⟩
  obtain ⟨w, e, hshown, hw, he⟩ := issueWord_status ((step_cons hs).symm.trans h)
  obtain ⟨hrsv, hwarn, herr⟩ := statusWord_fields w e
  exact ⟨_, hshown, hrsv, by rwa [hwarn], by rw [herr]; exact errField_mem he⟩

/-! ### The lines of a listing (R61) -/

/-- A line means what its words mean. -/
theorem listingLine_congr {line line' : List Char} (h : lineWords line = lineWords line') :
    listingLine line = listingLine line' := by
  unfold listingLine
  rw [h]

theorem listingLine_mnemonic (i : Instr) : listingLine (mnemonic i) = some [.issue (encode i)] := by
  cases i with
  | bytes2bits | bits2bytes | buildframe | parseframe | modulate | demodulate | encode | decode => rfl

theorem listingLine_bytes {line : List Char} {ws : List (List Char)} {v : List Byte}
    (h : lineWords line = ['.', 'b', 'y', 't', 'e', 's'] :: ws) (hv : readAll hexByte ws = some v) :
    listingLine line = some [.wrBytes v] := by
  unfold listingLine
  rw [h]
  exact congrArg (Option.map _) hv

theorem listingLine_word {line w : List Char} {c : Byte} (h : lineWords line = [['.', 'w', 'o', 'r', 'd'], w])
    (hc : hexByte w = some c) : listingLine line = some [.issue c] := by
  unfold listingLine
  rw [h]
  exact congrArg (Option.map _) hc

theorem listingLine_bits {line : List Char} {ws : List (List Char)} {v : List Bit}
    (h : lineWords line = ['.', 'b', 'i', 't', 's'] :: ws) (hv : (readAll bitsWord ws).map List.flatten = some v) :
    listingLine line = some [.wrBits v] := by
  obtain ⟨vs, hvs, rfl⟩ := Option.map_eq_some_iff.1 hv
  unfold listingLine
  rw [h]
  exact congrArg (Option.map _) hvs

theorem listingLine_samples {line r : List Char} {ws : List (List Char)} {rate : U32} {v : List I16}
    (h : lineWords line = ['.', 's', 'a', 'm', 'p', 'l', 'e', 's'] :: r :: ws) (hr : rateWord r = some rate)
    (hv : readAll signedDecimal ws = some v) : listingLine line = some [.wrSamples rate v] := by
  unfold listingLine
  rw [h]
  simp only [hr, hv]
  rfl

theorem listingLine_expect {line : List Char} {ws : List (List Char)}
    (h : lineWords line = ['.', 'e', 'x', 'p', 'e', 'c', 't'] :: ws) : listingLine line = some [] := by
  unfold listingLine
  rw [h]
  rfl

theorem listing_cons {line : List Char} {lines : List (List Char)} {a as : List HostAction}
    (ha : listingLine line = some a) (has : listing lines = some as) : listing (line :: lines) = some (a ++ as) := by
  obtain ⟨l, hl, rfl⟩ := Option.map_eq_some_iff.1 has
  simp [listing, readAll, ha, hl]

/-- A line without a comment is cut as a whole. -/
theorem lineWords_of_no_comment {t : List Char} (h : ∀ c ∈ t, c ≠ ';') :
    lineWords t = (cutSpaces t).filter (· != []) := by
  rw [lineWords, List.takeWhile_eq_self_iff.2 fun c hc => by simpa using h c hc]

/-- A word whose characters are no space and no comment sign, tested character by character. -/
theorem wordChars_of_all {w : List Char} (h : (w.all fun c => c != ' ' && c != ';') = true) : WordChars w := by
  simpa using h

theorem listingLine_bytes_digits {l : List ((Char × Char) × Byte)} (h : ∀ t ∈ l, SpellsByte t.1.1 t.1.2 t.2) :
    listingLine (['.', 'b', 'y', 't', 'e', 's'] ++ l.flatMap fun t => [' ', t.1.1, t.1.2]) =
      some [.wrBytes (l.map (·.2))] :=
  listingLine_bytes
    (lineWords_flatMap (f := fun t => [t.1.1, t.1.2]) (by decide) (wordChars_of_all rfl)
      fun t ht => ⟨by simp, wordChars_hex (h t ht)⟩)
    (readAll_map fun t ht => hexByte_spells (h t ht))

theorem listingLine_word_digits {a b : Char} {c : Byte} (h : SpellsByte a b c) :
    listingLine ['.', 'w', 'o', 'r', 'd', ' ', a, b] = some [.issue c] := by
  have hword : lineWords [a, b] = [[a, b]] := lineWords_word (by simp) (wordChars_hex h)
  refine listingLine_word (w := [a, b]) ?_ (hexByte_spells h)
  rw [← hword]
  exact lineWords_cons (w := ['.', 'w', 'o', 'r', 'd']) (by decide) (wordChars_of_all rfl) [a, b]

theorem listingLine_bits_digits {t : List Char} (h : ∀ c ∈ t, c = '0' ∨ c = '1' ∨ c = '_' ∨ c = ' ') :
    listingLine (['.', 'b', 'i', 't', 's', ' '] ++ t) = some [.wrBits (t.filterMap charBit)] := by
  have hcomment : ∀ c ∈ t, c ≠ ';' := by
    intro c hc
    rcases h c hc with rfl | rfl | rfl | rfl <;> decide
  refine listingLine_bits (lineWords_cons (w := ['.', 'b', 'i', 't', 's']) (by decide) (wordChars_of_all rfl) t) ?_
  rw [lineWords_of_no_comment hcomment]
  exact readAll_bitsWord h

theorem listingLine_samples_digits {rate : List (Fin 10)} {l : List SignedDigits} (h0 : rate ≠ [])
    (hrate : decimalValue rate < 2 ^ 32) (hl : ∀ v ∈ l, v.2 ≠ [] ∧ -32768 ≤ v.value ∧ v.value ≤ 32767) :
    listingLine (['.', 's', 'a', 'm', 'p', 'l', 'e', 's', ' '] ++ rate.map decimalDigit ++ [':'] ++
        l.flatMap fun v => ' ' :: v.text) =
      some [.wrSamples (BitVec.ofNat 32 (decimalValue rate)) (l.map fun v => BitVec.ofInt 16 v.value)] := by
  have hcolon : WordChars (rate.map decimalDigit ++ [':']) := by
    intro c hc
    obtain hc | hc := List.mem_append.1 hc
    · exact wordChars_decimal rate c hc
    · rw [List.mem_singleton.1 hc]; decide
  have htext : ∀ v ∈ l, SignedDigits.text v ≠ [] ∧ WordChars v.text := by
    intro v hv
    obtain ⟨hv0, -⟩ := hl v hv
    exact ⟨by simp [SignedDigits.text, hv0], wordChars_text v⟩
  refine listingLine_samples (r := rate.map decimalDigit ++ [':']) ?_ (rateWord_digits h0 hrate)
    (readAll_map (g := SignedDigits.text) fun v hv => ?_)
  · rw [← lineWords_flatMap (by simp) hcolon htext, ← lineWords_cons (by decide) (wordChars_of_all rfl)]
    simp
  · obtain ⟨hv0, hmin, hmax⟩ := hl v hv
    exact signedDecimal_text hv0 hmin hmax

/-- Settles O6: each row of R61 is the words of its line, read one by one. -/
theorem listingLinesReadAsHostActions : Obligations.ListingLinesReadAsHostActions := by
  refine ⟨listingLine_mnemonic, fun l => listingLine_bytes_digits, fun a b c => listingLine_word_digits,
    fun t => listingLine_bits_digits, rfl, fun rate l => listingLine_samples_digits,
    ⟨rfl, fun t => listingLine_expect (ws := lineWords t) ?_⟩, fun line comment => ⟨listingLine_congr ?_, listingLine_congr ?_⟩,
    rfl, fun line lines a as => listing_cons⟩
  · exact lineWords_cons (w := ['.', 'e', 'x', 'p', 'e', 'c', 't']) (by decide) (wordChars_of_all rfl) t
  · exact lineWords_comment line comment
  · calc lineWords (line ++ ' ' :: ';' :: comment) = lineWords ((line ++ [' ']) ++ ';' :: comment) := by simp
      _ = lineWords (line ++ [' ']) := lineWords_comment _ comment
      _ = lineWords line := lineWords_append_space line

end Sys2Proof.Proofs
end

section
/-! SUPPORT. Proofs of the statements of spec/40_bitpacker.md. Every bit of the unpacked sequence is named once
(`getElem?_bytesToBits`), the repacking of whole bytes is undone once (`bytesToBits_bytesOfGroups`), and the value of a
repacked byte is read off those two. -/

namespace Sys2Proof.Proofs

open Sys2Proof.Machine Sys2Proof.Safety Sys2Proof.Laws

/-! ### A command that computes an error -/

theorem bind_of_error {α β : Type} {x : Except Err α} {e : Err} (h : x = .error e) (f : α → Except Err β) :
    x >>= f = .error e := by
  rw [h]
  rfl

/-- A command that computes an error and does not warn returns its code with nothing changed (R37, R146). -/
theorem returns_of_error {i : Instr} {s : State} {e : Err} (hl : needsLegal i = true → Legal s) (hw : warns s i = false)
    (h : computed i s = .error e) : Returns i s (statusWord false (some e)) s := by
  rw [Returns, exec_eq_report hl, h, hw]
  rfl

/-! ### One byte and its eight bits (R50) -/

/-- The bits of a byte determine it. -/
theorem byteBits_injective : Function.Injective byteBits := by
  intro a b hab
  refine BitVec.eq_of_getLsbD_eq fun i hi => ?_
  have hbit := congrArg (·[7 - i]?) hab
  simp only [getElem?_byteBits _ (show 7 - i < 8 by omega), Option.some.injEq] at hbit
  rwa [show 7 - (7 - i) = i by omega] at hbit

theorem byteBits_ofNat_bitsValue {g : List Bit} (hg : g.length = 8) : byteBits (BitVec.ofNat 8 (bitsValue g)) = g := by
  refine List.ext_getElem? fun p => ?_
  by_cases hp : p < 8
  · have hbit : (bitsValue g).testBit (7 - p) = g[p] := by
      rw [testBit_bitsValue, List.getD_eq_getElem _ _ (by simp; omega), List.getElem_reverse]
      simp only [hg, show 8 - 1 - (7 - p) = p by omega]
    rw [getElem?_byteBits _ hp, BitVec.getLsbD_ofNat, hbit, List.getElem?_eq_getElem (by omega)]
    simp [show 7 - p < 8 by omega]
  · rw [List.getElem?_eq_none (by simpa using hp), List.getElem?_eq_none (by omega)]

theorem ofNat_bitsValue_byteBits (b : Byte) : BitVec.ofNat 8 (bitsValue (byteBits b)) = b :=
  byteBits_injective (byteBits_ofNat_bitsValue (length_byteBits b))

/-- The value of a byte as the sum of its bits, most significant first. -/
theorem byte_toNat_eq_sum (b : Byte) : b.toNat = ∑ p ∈ Finset.range 8, (b.getLsbD (7 - p)).toNat * 2 ^ (7 - p) := by
  have hlt : bitsValue (byteBits b) < 2 ^ 8 := by simpa using bitsValue_lt (byteBits b)
  calc b.toNat = (BitVec.ofNat 8 (bitsValue (byteBits b))).toNat := by rw [ofNat_bitsValue_byteBits]
    _ = bitsValue (byteBits b) := by rw [BitVec.toNat_ofNat, Nat.mod_eq_of_lt hlt]
    _ = _ := by
      rw [bitsValue_eq_sum, length_byteBits]
      refine Finset.sum_congr rfl fun p hp => ?_
      rw [List.getD_eq_getElem?_getD, getElem?_byteBits b (Finset.mem_range.1 hp), Option.getD_some]

/-! ### Unpacking and repacking (R70, R72, R74) -/

/-- Bit `8 j + p` of the unpacked sequence is bit `7 - p` of byte `j` (R70). -/
theorem getElem?_bytesToBits {B : List Byte} {j p : ℕ} {b : Byte} (hb : B[j]? = some b) (hp : p < 8) :
    (bytesToBits B)[8 * j + p]? = some (b.getLsbD (7 - p)) := by
  induction B generalizing j with
  | nil => cases hb
  | cons a B ih =>
    rw [bytesToBits_cons]
    cases j with
    | zero =>
      cases hb
      rw [List.getElem?_append_left (by simp; omega), Nat.mul_zero, Nat.zero_add, getElem?_byteBits _ hp]
    | succ j =>
      rw [List.getElem?_append_right (by simp; omega), length_byteBits, show 8 * (j + 1) + p - 8 = 8 * j + p by omega]
      exact ih hb

/-- Eight bits at the front are the first byte. -/
theorem bytesOfGroups_append {g : List Bit} (hg : g.length = 8) (T : List Bit) :
    bytesOfGroups (g ++ T) = BitVec.ofNat 8 (bitsValue g) :: bytesOfGroups T := by
  match g, hg with
  | [_, _, _, _, _, _, _, _], _ => rfl

theorem bytesOfGroups_bytesToBits (B : List Byte) : bytesOfGroups (bytesToBits B) = B := by
  induction B with
  | nil => rfl
  | cons b B ih => rw [bytesToBits_cons, bytesOfGroups_append (length_byteBits b), ofNat_bitsValue_byteBits, ih]

theorem bytesToBits_bytesOfGroups {T : List Bit} (h : T.length % 8 = 0) : bytesToBits (bytesOfGroups T) = T := by
  obtain ⟨n, hn⟩ := Nat.dvd_of_mod_eq_zero h
  clear h
  induction n generalizing T with
  | zero => rw [List.eq_nil_of_length_eq_zero hn]; rfl
  | succ n ih =>
    have htake : (T.take 8).length = 8 := by simp; omega
    have hdrop : (T.drop 8).length = 8 * n := by simp; omega
    calc bytesToBits (bytesOfGroups T) = bytesToBits (bytesOfGroups (T.take 8 ++ T.drop 8)) := by rw [List.take_append_drop]
      _ = T.take 8 ++ T.drop 8 := by
        rw [bytesOfGroups_append htake, bytesToBits_cons, byteBits_ofNat_bitsValue htake, ih hdrop]
      _ = T := List.take_append_drop 8 T

/-- The value of byte `j` of whole bytes is that of the eight bits it is repacked from (R72). -/
theorem toNat_getElem?_bytesOfGroups {T : List Bit} (h : T.length % 8 = 0) {j : ℕ} {b : Byte}
    (hb : (bytesOfGroups T)[j]? = some b) :
    b.toNat = ∑ p ∈ Finset.range 8, (T.getD (8 * j + p) false).toNat * 2 ^ (7 - p) := by
  rw [byte_toNat_eq_sum]
  refine Finset.sum_congr rfl fun p hp => ?_
  have hbit := getElem?_bytesToBits hb (Finset.mem_range.1 hp)
  rw [bytesToBits_bytesOfGroups h] at hbit
  rw [List.getD_eq_getElem?_getD, hbit, Option.getD_some]

theorem bitsToBytes_of_whole {T : List Bit} (h : T.length % 8 = 0) : bitsToBytes T = .ok (bytesOfGroups T) :=
  (bitsToBytes_eq T).trans (if_pos h)

theorem bitsToBytes_bytesToBits (B : List Byte) : bitsToBytes (bytesToBits B) = .ok B := by
  rw [bitsToBytes_of_whole (by simp), bytesOfGroups_bytesToBits]

/-! ### The two phases (R71, R73) -/

theorem unpackPhase_of_fits {p : Params} {B : List Byte} (h : fits (8 * B.length) p.capBits = true) :
    unpackPhase p B = .ok (bytesToBits B) :=
  if_pos h

theorem unpackPhase_of_not_fits {p : Params} {B : List Byte} (h : fits (8 * B.length) p.capBits = false) :
    unpackPhase p B = .error .capacity :=
  if_neg (Bool.not_eq_true _ ▸ h)

/-- The length test comes first, then the capacity (R73). -/
theorem packPhase_eq (p : Params) (T : List Bit) :
    packPhase p T = if T.length % 8 = 0 then
      if fits (T.length / 8) p.capBytes then .ok (bytesOfGroups T) else .error .capacity
    else .error .invalidLength := by
  rw [packPhase, bitsToBytes_eq]
  by_cases h8 : T.length % 8 = 0 <;> simp [h8]

theorem packPhase_of_fits {p : Params} {T : List Bit} (h8 : T.length % 8 = 0)
    (h : fits (T.length / 8) p.capBytes = true) : packPhase p T = .ok (bytesOfGroups T) := by
  rw [packPhase_eq, if_pos h8, if_pos h]

theorem packPhase_bytesToBits {p : Params} {B : List Byte} (h : fits B.length p.capBytes = true) :
    packPhase p (bytesToBits B) = .ok B := by
  rw [packPhase_of_fits (by simp) (by simpa using h), bytesOfGroups_bytesToBits]

/-! ### The statements -/

theorem returns_bytes2bits {s : State} (h : fits (8 * s.bytes.length) s.par.capBits = true) :
    Returns .bytes2bits s 0x00#8 { s with bits := bytesToBits s.bytes } :=
  returns_of_effect nofun rfl ⟨_, unpackPhase_of_fits h, rfl⟩

/-- Settles O13: `bytesToBits` has the length and the bits of R70, and the capacity test is that of `unpackPhase`. -/
theorem bytes2BitsUnpacksMostSignificantBitFirst : Obligations.Bytes2BitsUnpacksMostSignificantBitFirst := by
  refine ⟨decode_encode .bytes2bits, fun s => ⟨fun h => ?_, fun h => ?_⟩⟩
  · exact ⟨bytesToBits s.bytes, returns_bytes2bits h, length_bytesToBits _, fun j b p => getElem?_bytesToBits⟩
  · exact returns_of_error (i := .bytes2bits) nofun rfl (bind_of_error (unpackPhase_of_not_fits h) _)

/-- Settles O14: the two tests of `packPhase` in order, and the value of each byte of `bytesOfGroups`. -/
theorem bits2BytesPacksWholeBytesOnly : Obligations.Bits2BytesPacksWholeBytesOnly := by
  refine ⟨decode_encode .bits2bytes, fun s => ⟨fun h8 => ?_, fun h8 h => ?_, fun h8 h => ?_⟩⟩
  · have hphase : packPhase s.par s.bits = .error .invalidLength := by rw [packPhase_eq, if_neg h8]
    exact returns_of_error (i := .bits2bytes) nofun rfl (bind_of_error hphase _)
  · have hphase : packPhase s.par s.bits = .error .capacity := by simp [packPhase_eq, h8, h]
    exact returns_of_error (i := .bits2bytes) nofun rfl (bind_of_error hphase _)
  · exact ⟨bytesOfGroups s.bits, returns_of_effect nofun rfl ⟨_, packPhase_of_fits h8 h, rfl⟩,
      length_bytesOfGroups _, fun j b => toNat_getElem?_bytesOfGroups h8⟩

/-- Settles O15: BITS2BYTES finds the bits that BYTES2BITS left and repacks them. -/
theorem bytePackingRoundTrips : Obligations.BytePackingRoundTrips := by
  refine ⟨bitsToBytes_bytesToBits, fun T h => ⟨_, bitsToBytes_of_whole h, bytesToBits_bytesOfGroups h⟩,
    fun s hbits hbytes => ?_⟩
  exact ⟨_, _, returns_bytes2bits hbits,
    returns_of_effect nofun rfl ⟨s.bytes, packPhase_bytesToBits hbytes, rfl⟩, rfl, List.append_assoc ..⟩

end Sys2Proof.Proofs
end

section
/-! SUPPORT. Proofs of the statements of spec/41_framebuilder.md. A frame is a header and the bits after it: what the parser
answers is said once in that form (`parseFrame_append`), and both the split at the declared length and the round trip are
read off it. -/

namespace Sys2Proof.Proofs

open Sys2Proof.Machine Sys2Proof.Safety Sys2Proof.Laws

/-! ### The frame of a payload (R81, R82) -/

/-- The bits of the length come first (R80, R81). -/
theorem getElem?_buildFrame (P : List Bit) {p : ℕ} (hp : p < 32) :
    (buildFrame P)[p]? = some (P.length.testBit (31 - p)) := by
  rw [buildFrame, List.getElem?_append_left (by simpa using hp), getElem?_hdr _ hp]

theorem drop_buildFrame (P : List Bit) : (buildFrame P).drop 32 = P :=
  List.drop_left' (length_hdr P.length)

theorem framePhase_of_overlong {p : Params} {P : List Bit} (h : 2 ^ 32 - 1 < P.length) :
    framePhase p P = .error .lengthOverflow :=
  if_pos h

theorem framePhase_of_not_fits {p : Params} {P : List Bit} (hlen : P.length ≤ 2 ^ 32 - 1)
    (h : fits (32 + P.length) p.capBits = false) : framePhase p P = .error .capacity := by
  rw [framePhase, if_neg (Nat.not_lt.2 hlen), if_neg (by simp [h])]

theorem framePhase_of_fits {p : Params} {P : List Bit} (hlen : P.length ≤ 2 ^ 32 - 1)
    (h : fits (32 + P.length) p.capBits = true) : framePhase p P = .ok (buildFrame P) := by
  rw [framePhase, if_neg (Nat.not_lt.2 hlen), if_pos h]

theorem returns_buildframe {s : State} (hlen : s.bits.length ≤ 2 ^ 32 - 1)
    (h : fits (32 + s.bits.length) s.par.capBits = true) :
    Returns .buildframe s 0x00#8 { s with bits := buildFrame s.bits } :=
  returns_of_effect nofun rfl ⟨_, framePhase_of_fits hlen h, rfl⟩

/-- Settles O17: the two tests of `framePhase` in order, and the frame's header and payload. -/
theorem buildFramePrependsTheLength : Obligations.BuildFramePrependsTheLength := by
  refine ⟨decode_encode .buildframe, fun s => ⟨fun hlong => ?_, fun hlen h => ?_, fun hlen h => ?_⟩⟩
  · exact returns_of_error (i := .buildframe) nofun rfl (bind_of_error (framePhase_of_overlong hlong) _)
  · exact returns_of_error (i := .buildframe) nofun rfl (bind_of_error (framePhase_of_not_fits hlen h) _)
  · exact ⟨buildFrame s.bits, returns_buildframe hlen h, length_buildFrame _, fun p => getElem?_buildFrame _,
      drop_buildFrame _⟩

/-! ### The parts of a frame (R83, R85, R87) -/

/-- Behind a header `h` the parser cuts the bits `T` at the number of `h`, or at their end where that comes first (R85). -/
theorem parseFrame_append {h : List Bit} (hh : h.length = 32) (T : List Bit) :
    parseFrame (h ++ T) = .ok { payload := T.take (bitsValue h), remaining := T.drop (bitsValue h),
                                declared := BitVec.ofNat 32 (bitsValue h) } := by
  have hhead : slice (h ++ T) 0 32 = h := List.take_left' hh
  have hpay : slice (h ++ T) 32 (32 + bitsValue h) = T.take (bitsValue h) := by
    rw [slice, ← hh, List.take_length_add_append, List.drop_left]
  have hrem : slice (h ++ T) (32 + bitsValue h) (h ++ T).length = T.drop (bitsValue h) := by
    rw [slice, List.take_length, ← hh, List.drop_length_add_append]
  rw [parseFrame_eq, if_neg (by simp [hh]), hhead, hpay, hrem]

theorem parseFrame_of_header {F : List Bit} (h : 32 ≤ F.length) :
    parseFrame F = .ok { payload := (F.drop 32).take (bitsValue (F.take 32)),
                         remaining := (F.drop 32).drop (bitsValue (F.take 32)),
                         declared := BitVec.ofNat 32 (bitsValue (F.take 32)) } := by
  have hparse := parseFrame_append (List.length_take_of_le h) (F.drop 32)
  rwa [List.take_append_drop] at hparse

theorem parseFrame_of_short {F : List Bit} (h : F.length < 32) : parseFrame F = .error .truncatedHeader :=
  (parseFrame_eq F).trans (if_pos h)

/-- `HLEN` holds the number of a header exactly. -/
theorem toNat_ofNat_bitsValue {h : List Bit} (hh : h.length = 32) :
    (BitVec.ofNat 32 (bitsValue h)).toNat = bitsValue h := by
  rw [BitVec.toNat_ofNat, Nat.mod_eq_of_lt (hh ▸ bitsValue_lt h)]

/-- The number of a frame's header as the sum of the frame's first 32 bits (R52). -/
theorem bitsValue_take_header {F : List Bit} (h : 32 ≤ F.length) :
    bitsValue (F.take 32) = ∑ p ∈ Finset.range 32, (F.getD p false).toNat * 2 ^ (31 - p) := by
  rw [bitsValue_eq_sum, List.length_take_of_le h]
  refine Finset.sum_congr rfl fun p hp => ?_
  rw [List.getD_eq_getElem?_getD, List.getElem?_take_of_lt (Finset.mem_range.1 hp), ← List.getD_eq_getElem?_getD]

/-- Settles O18: the parser cuts the bits after the header at the header's number, and the three parts are the frame. -/
theorem parseFrameSplitsAtTheDeclaredLength : Obligations.ParseFrameSplitsAtTheDeclaredLength := by
  refine ⟨decode_encode .parseframe, fun s => ⟨fun h => ?_, fun h => ?_⟩⟩
  · exact returns_of_error (i := .parseframe) nofun rfl (bind_of_error (parseFrame_of_short h) _)
  · have hL := toNat_ofNat_bitsValue (List.length_take_of_le h)
    refine ⟨_, _, _, returns_of_effect nofun rfl ⟨_, parseFrame_of_header h, rfl⟩, ?_, ?_, ?_⟩
    · rw [hL, bitsValue_take_header h]
    · rw [hL, List.length_take, List.length_drop]
    · rw [List.append_assoc, List.take_append_drop, List.take_append_drop]

/-! ### The round trip (R86) -/

theorem parseFrame_buildFrame {P : List Bit} (h : P.length ≤ 2 ^ 32 - 1) :
    parseFrame (buildFrame P) = .ok { payload := P, remaining := [], declared := BitVec.ofNat 32 P.length } := by
  rw [buildFrame, parseFrame_append (length_hdr _), bitsValue_hdr (by omega), List.take_length, List.drop_length]

/-- Settles O19: PARSEFRAME finds the frame that BUILDFRAME left and takes it apart. -/
theorem framesRoundTrip : Obligations.FramesRoundTrip := by
  refine ⟨fun P => parseFrame_buildFrame, fun s hlen h => ?_⟩
  refine ⟨_, _, returns_buildframe hlen h,
    returns_of_effect nofun rfl ⟨_, parseFrame_buildFrame hlen, rfl⟩, rfl, rfl, ?_, List.append_assoc ..⟩
  exact (BitVec.toNat_ofNat _ 32).trans (Nat.mod_eq_of_lt (by omega))

end Sys2Proof.Proofs
end

section
/-! SUPPORT. Proofs of the statements of spec/42_modulator.md. A sample of the modulated buffer is the polarity times the sample
of a 1 bit (`getD_modulate`), and that is the value of the formulas over the reals (`toInt_getD_modulate`); the range, the
inexact arithmetic and the polarity are read off the formulas. At the reference constants every angle is one of 19 residues, so
what is said of them is a table of 19 rows. -/

namespace Sys2Proof.Proofs

open Sys2Proof.Machine Sys2Proof.Safety Sys2Proof.Laws

/-! ### Symbols and positions (R94) -/

/-- Where there is a sample there is a sample per symbol. -/
theorem samples_pos {N M j : ℕ} (hj : j < N * M) : 0 < N :=
  Nat.pos_of_mul_pos_right (Nat.zero_lt_of_lt hj)

theorem symbol_lt {N M j : ℕ} (hj : j < N * M) : j / N < M :=
  (Nat.div_lt_iff_lt_mul (samples_pos hj)).2 (Nat.mul_comm N M ▸ hj)

theorem symbol_of_position {N k : ℕ} (i : ℕ) (hk : k < N) : (i * N + k) / N = i := by
  rw [Nat.mul_comm, Nat.mul_add_div (by omega), Nat.div_eq_of_lt hk, Nat.add_zero]

theorem position_of_symbol {N k : ℕ} (i : ℕ) (hk : k < N) : (i * N + k) % N = k := by
  rw [Nat.mul_comm, Nat.mul_add_mod, Nat.mod_eq_of_lt hk]

theorem position_lt {N M i k : ℕ} (hi : i < M) (hk : k < N) : i * N + k < N * M :=
  calc i * N + k < (i + 1) * N := by rw [Nat.add_mul, Nat.one_mul]; omega
    _ ≤ M * N := Nat.mul_le_mul_right N hi
    _ = N * M := Nat.mul_comm M N

/-! ### Truncation toward zero (R96) -/

theorem truncReal_intCast (m : ℤ) : truncReal m = m := by
  unfold truncReal
  split
  · exact Int.floor_intCast m
  · rw [← Int.cast_neg, Int.floor_intCast, neg_neg]

/-- Truncation changes no value whose magnitude is an integer. -/
theorem truncReal_of_abs_eq {x : ℝ} {m : ℕ} (h : |x| = m) : (truncReal x : ℝ) = x := by
  obtain ⟨k, rfl⟩ : ∃ k : ℤ, x = k := by
    obtain hx | hx := abs_choice x
    · exact ⟨m, by rw [← hx, h]; simp⟩
    · exact ⟨-m, by push_cast; linarith⟩
  rw [truncReal_intCast]

theorem abs_truncReal_le (x : ℝ) : (|truncReal x| : ℝ) ≤ |x| := by
  unfold truncReal
  split
  · rename_i hx
    rw [abs_of_nonneg hx, abs_of_nonneg (by exact_mod_cast Int.floor_nonneg.2 hx)]
    exact Int.floor_le x
  · rename_i hx
    have hx' : 0 ≤ -x := by linarith
    rw [abs_of_neg (not_le.1 hx), Int.cast_neg, abs_neg, abs_of_nonneg (by exact_mod_cast Int.floor_nonneg.2 hx')]
    exact Int.floor_le (-x)

theorem truncReal_pol_mul (b : Bit) (x : ℝ) : truncReal (pol b * x) = pol b * truncReal x := by
  cases b
  · simpa [pol] using truncReal_neg x
  · simp [pol]

theorem pol_not (b : Bit) : pol (!b) = -pol b := by cases b <;> rfl

/-! ### The value before truncation (R95) -/

/-- No value exceeds full scale. -/
theorem abs_beforeTrunc_le {T : List Bit} {R S : ℕ} {C : List ℕ} {j : ℕ} (hj : j < R / S * T.length) :
    |beforeTrunc T R S C j| ≤ 32767 := by
  have hle := abs_le_peak (x := signal T R S C) hj
  unfold beforeTrunc
  simp only [abs_mul]
  split
  · rename_i hp
    have : |signal T R S C j| = 0 := le_antisymm (hp ▸ hle) (abs_nonneg _)
    simp [this]
  · have : |signal T R S C j / peak (signal T R S C) (R / S * T.length)| ≤ 1 := by
      rw [abs_div, abs_of_nonneg (peak_nonneg _ _)]
      exact div_le_one_of_le₀ hle (peak_nonneg _ _)
    norm_num
    linarith

/-- The magnitude of a value, where the peak is not zero. -/
theorem abs_beforeTrunc {T : List Bit} {R S : ℕ} {C : List ℕ} (h : peak (signal T R S C) (R / S * T.length) ≠ 0) (j : ℕ) :
    |beforeTrunc T R S C j| = 32767 * |signal T R S C j| / peak (signal T R S C) (R / S * T.length) := by
  unfold beforeTrunc
  simp only [if_neg h]
  rw [abs_mul, abs_div, abs_of_nonneg (peak_nonneg (signal T R S C) _), mul_div_assoc]
  norm_num

theorem abs_sampleValue_le {T : List Bit} {R S : ℕ} {C : List ℕ} {j : ℕ} (hj : j < R / S * T.length) :
    |sampleValue T R S C j| ≤ 32767 := by
  have hle := (abs_truncReal_le _).trans (abs_beforeTrunc_le (C := C) hj)
  exact_mod_cast hle

/-! ### One sample, over integers and over the reals (R98) -/

/-- A sample of at most full scale is held as it is. -/
theorem toInt_ofInt_of_abs_le {m : ℤ} (h : |m| ≤ 32767) : (BitVec.ofInt 16 m).toInt = m := by
  obtain ⟨h1, h2⟩ := abs_le.1 h
  exact BitVec.toInt_ofInt_eq_self (by decide) (by norm_num; omega) (by norm_num; omega)

theorem ite_neg_eq_pol_mul (b : Bit) (q : ℤ) : (if b then q else -q) = pol b * q := by cases b <;> simp [pol]

/-- The sample of a 1 bit with the polarity of its symbol's bit is the value of the formulas (R92 to R96). -/
theorem pol_mul_quantSample {T : List Bit} {R S : ℕ} {C : List ℕ} (hC : C ≠ []) (hS : 1 ≤ S) (hR : R < 2 ^ 32) {j : ℕ}
    (hj : j < R / S * T.length) :
    pol (T.getD (j / (R / S)) false) * quantSample (R / S * S) (peakAngle (R / S * S) (R / S) (C.take T.length))
      (C.getD (j / (R / S) % C.length) 0) (j % (R / S)) = sampleValue T R S C j := by
  have hN := samples_pos hj
  have hD : 0 < R / S * S := Nat.mul_pos hN hS
  have hle := refAngle_le_peakAngle (D := R / S * S) (carrier_mem hC (symbol_lt hj)) (Nat.mod_lt j hN)
  rw [quantSample_eq hD ((Nat.div_mul_le_self R S).trans hR.le) (two_mul_peakAngle_le hD _) hle,
    ← peak_signal hC hD, ← truncReal_pol_mul, sampleValue, beforeTrunc, signal]
  congr 1
  split <;> ring

theorem getD_modulate {T : List Bit} {R S : ℕ} {C : List ℕ} (hC : C ≠ []) {j : ℕ} (hj : j < R / S * T.length) :
    (modulate T R S C).getD j 0#16 = BitVec.ofInt 16 (pol (T.getD (j / (R / S)) false) *
      quantSample (R / S * S) (peakAngle (R / S * S) (R / S) (C.take T.length))
        (C.getD (j / (R / S) % C.length) 0) (j % (R / S))) := by
  rw [List.getD_eq_getElem?_getD, getElem?_modulate hC hj, Option.getD_some]
  exact congrArg _ (ite_neg_eq_pol_mul _ _)

/-- Sample `j` is the value of the formulas. -/
theorem toInt_getD_modulate {T : List Bit} {R S : ℕ} {C : List ℕ} (hC : C ≠ []) (hS : 1 ≤ S) (hR : R < 2 ^ 32) {j : ℕ}
    (hj : j < R / S * T.length) : ((modulate T R S C).getD j 0#16).toInt = sampleValue T R S C j := by
  rw [getD_modulate hC hj, pol_mul_quantSample hC hS hR hj, toInt_ofInt_of_abs_le (abs_sampleValue_le hj)]

/-- Settles O21: the integer sample of each position is the truncated value of the formulas. -/
theorem modulateMatchesTheRealFormulas : Obligations.ModulateMatchesTheRealFormulas :=
  fun T R S _ hS hC hR => ⟨length_modulate hC T R S, fun _ => toInt_getD_modulate hC hS hR⟩

/-! ### Range (R97) -/

/-- Settles O23: the bound is that of the formulas, the full-scale sample stands where the peak is attained, and a symbol starts
with a sine of 0. -/
theorem modulatorOutputIsFullScale : Obligations.ModulatorOutputIsFullScale := by
  intro T R S C hS hC hR
  have hlen := length_modulate hC T R S
  have hval := fun j => toInt_getD_modulate (T := T) (j := j) hC hS hR
  refine ⟨hlen, fun x hx => ?_, fun hp => ?_, fun i hi hN => ?_⟩
  · obtain ⟨j, hj, rfl⟩ := List.mem_iff_getElem.1 hx
    rw [← List.getD_eq_getElem _ 0#16 hj, hval j (hlen ▸ hj)]
    exact abs_le.1 (abs_sampleValue_le (hlen ▸ hj))
  · obtain ⟨j, hj, hpeak⟩ := peak_attained hp
    have hfull : |beforeTrunc T R S C j| = (32767 : ℕ) := by
      rw [abs_beforeTrunc hp, ← hpeak, mul_div_assoc, div_self hp]
      norm_num
    have hs : |sampleValue T R S C j| = 32767 := by
      have := (congrArg abs (truncReal_of_abs_eq hfull)).trans hfull
      exact_mod_cast this
    refine ⟨_, List.getElem_mem (hlen ▸ hj), ?_⟩
    rw [← List.getD_eq_getElem _ 0#16 (hlen ▸ hj), hval j hj]
    exact eq_or_eq_neg_of_abs_eq hs
  · have hzero : signal T R S C (i * (R / S)) = 0 := by
      simp [signal, refSample]
    have hj := position_lt (k := 0) hi hN
    rw [Nat.add_zero] at hj
    rw [hval _ hj]
    simp [sampleValue, beforeTrunc, hzero, truncReal]

/-! ### MODULATE (R99, R101) -/

theorem carriers_eq_map {c : Cfg} {p : Params} (h : c.legal p = true) : carriers c = c.car.map (·.toNat) := by
  obtain ⟨-, -, -, -, hlen⟩ := legal_iff.1 h
  rw [carriers, List.take_of_length_le hlen.le]

/-- One unit lower in magnitude, within full scale. -/
theorem toInt_oneTowardZero {x : I16} (h : |x.toInt| ≤ 32767) :
    (oneTowardZero x).toInt = x.toInt - x.toInt.sign := by
  obtain ⟨hlow, hhigh⟩ := abs_le.1 h
  refine toInt_ofInt_of_abs_le (abs_le.2 ?_)
  obtain hx | hx | hx := lt_trichotomy x.toInt 0
  · have hsign := Int.sign_eq_neg_one_of_neg hx
    omega
  · simp [hx]
  · have hsign := Int.sign_eq_one_of_pos hx
    omega

/-- The test of R101 on a sample: its value before truncation is an integer and not zero. -/
theorem beforeTrunc_of_wholeBeforeTrunc {T : List Bit} {R S : ℕ} {C : List ℕ} (hC : C ≠ []) (hS : 1 ≤ S) (hR : R < 2 ^ 32)
    {j : ℕ} (hj : j < R / S * T.length)
    (h : wholeBeforeTrunc (R / S * S) (peakAngle (R / S * S) (R / S) (C.take T.length))
      (refAngle (R / S * S) (C.getD (j / (R / S) % C.length) 0) (j % (R / S))).2 = true) :
    beforeTrunc T R S C j ≠ 0 ∧ beforeTrunc T R S C j = sampleValue T R S C j := by
  have hD : 0 < R / S * S := Nat.mul_pos (samples_pos hj) hS
  have h2 := two_mul_peakAngle_le hD (C.take T.length)
  obtain ⟨hpk, hne, hwhole⟩ := (wholeBeforeTrunc_iff hD ((Nat.div_mul_le_self R S).trans hR.le) h2).1 h
  have hp : peak (signal T R S C) (R / S * T.length) ≠ 0 := by
    rw [peak_signal hC hD]
    exact (sin_fold_pos (Nat.pos_of_ne_zero hpk) h2).ne'
  have habs := abs_beforeTrunc hp j
  rw [abs_signal, abs_refSample hD, peak_signal hC hD, hwhole] at habs
  refine ⟨fun h0 => hne ?_, (truncReal_of_abs_eq habs).symm⟩
  rw [h0, abs_zero] at habs
  exact_mod_cast habs.symm

/-- Sample `j` in the arithmetic `NUM`: the value of the formulas, or, where the test of R101 holds, one unit lower in
magnitude. -/
theorem toInt_getD_modulateNum (num : Numerics) {T : List Bit} {R S : ℕ} {C : List ℕ} (hC : C ≠ []) (hS : 1 ≤ S)
    (hR : R < 2 ^ 32) {j : ℕ} (hj : j < R / S * T.length) :
    ((modulateNum num T R S C).getD j 0#16).toInt = sampleValue T R S C j ∨
      num = .inexact ∧ wholeBeforeTrunc (R / S * S) (peakAngle (R / S * S) (R / S) (C.take T.length))
          (refAngle (R / S * S) (C.getD (j / (R / S) % C.length) 0) (j % (R / S))).2 = true ∧
        ((modulateNum num T R S C).getD j 0#16).toInt = sampleValue T R S C j - (sampleValue T R S C j).sign := by
  have hlen : j < (modulate T R S C).length := by rwa [length_modulate hC]
  have hval := toInt_getD_modulate hC hS hR hj
  rw [List.getD_eq_getElem _ _ hlen] at hval
  rw [List.getD_eq_getElem?_getD]
  obtain hexact | ⟨hnum, hwhole, hlower⟩ := getElem?_modulateNum (C := C) num T R S j
  · rw [hexact, List.getElem?_eq_getElem hlen]
    exact .inl hval
  · rw [hlower, List.getElem?_eq_getElem hlen, Option.map_some, Option.getD_some,
      toInt_oneTowardZero (hval ▸ abs_sampleValue_le hj), hval]
    exact .inr ⟨hnum, hwhole, rfl⟩

/-- A sample in the arithmetic `NUM` is one that `NUM` allows (R98, R101). -/
theorem sampleAllowed_modulateNum {num : Numerics} {T : List Bit} {R S : ℕ} {C : List ℕ} (hC : C ≠ []) (hS : 1 ≤ S)
    (hR : R < 2 ^ 32) {j : ℕ} (hj : j < R / S * T.length) :
    SampleAllowed num T R S C j ((modulateNum num T R S C).getD j 0#16).toInt := by
  obtain hexact | ⟨hnum, hwhole, hlower⟩ := toInt_getD_modulateNum num hC hS hR hj
  · exact .inl hexact
  · obtain ⟨hne, hint⟩ := beforeTrunc_of_wholeBeforeTrunc hC hS hR hj hwhole
    exact .inr ⟨hnum, hne, hint, hlower⟩

theorem modulatePhase_of_not_fits {p : Params} {c : Cfg} {T : List Bit}
    (h : fits (c.srate.toNat / c.symrate.toNat * T.length) p.capSamples = false) :
    modulatePhase p c T = .error .capacity :=
  if_neg (Bool.not_eq_true _ ▸ h)

/-- Settles O22: the capacity test of `modulatePhase`, and each sample of its result. -/
theorem modulateWritesTheModulatedBits : Obligations.ModulateWritesTheModulatedBits := by
  refine ⟨decode_encode .modulate, fun s hlegal => ⟨fun h => ?_, fun h => ?_⟩⟩
  · exact returns_of_error (i := .modulate) (fun _ => hlegal) rfl (bind_of_error (modulatePhase_of_not_fits h) _)
  · obtain ⟨hS, -⟩ := legal_iff.1 hlegal
    have hC := carriers_ne_nil hlegal
    refine ⟨_, returns_of_effect (fun _ => hlegal) rfl ⟨_, if_pos h, rfl⟩, length_modulateNum hC .., fun j hj => ?_⟩
    rw [← carriers_eq_map hlegal]
    exact sampleAllowed_modulateNum hC hS s.cfg.srate.isLt hj

/-! ### The reference constants (R100, R101) -/

/-- The carriers of the reference constants. -/
def refCarriers : List ℕ := [1000, 2000, 3000, 4000, 5000, 6000]

theorem length_refCarriers : refCarriers.length = 6 := rfl

theorem getD_refCarriers {m : ℕ} (hm : m < 6) : refCarriers.getD m 0 = 1000 * (m + 1) := by
  revert m; decide

theorem refCarriers_thousands {f : ℕ} (hf : f ∈ refCarriers) : ∃ m, f = 1000 * m := by
  simp only [refCarriers, List.mem_cons, List.not_mem_nil, or_false] at hf
  exact ⟨f / 1000, by omega⟩

/-- At the reference constants an angle is one of 19 residues. -/
theorem refAngle_reference (m k : ℕ) : refAngle 19000 (1000 * m) k = refAngle 19000 1000 (m * k % 19) := by
  have hangle : 1000 * m * k % 19000 = 1000 * (m * k % 19) % 19000 := by
    rw [Nat.mul_assoc]
    omega
  rw [refAngle, refAngle, hangle]

theorem quantSample_reference (pk m k : ℕ) : quantSample 19000 pk (1000 * m) k = quantSample 19000 pk 1000 (m * k % 19) := by
  unfold quantSample
  rw [refAngle_reference]

theorem refAngle_reference_le {r : ℕ} (hr : r < 19) : (refAngle 19000 1000 r).2 ≤ 9000 := by
  revert r; decide

/-- The peak stands at residue 5, which every carrier reaches (R100). -/
theorem peakAngle_reference {T : List Bit} (hT : T ≠ []) : peakAngle 19000 380 (refCarriers.take T.length) = 9000 := by
  apply le_antisymm
  · by_cases h0 : peakAngle 19000 380 (refCarriers.take T.length) = 0
    · omega
    · obtain ⟨f, hf, k, -, hpk⟩ := peakAngle_attained h0
      obtain ⟨m, rfl⟩ := refCarriers_thousands (List.mem_of_mem_take hf)
      rw [← hpk, refAngle_reference]
      exact refAngle_reference_le (Nat.mod_lt _ (by decide))
  · have hmem : 1000 ∈ refCarriers.take T.length := carrier_mem (i := 0) (by decide) (List.length_pos_iff.2 hT)
    exact refAngle_le_peakAngle (D := 19000) (k := 5) (N := 380) hmem (by decide)

/-- The table of R100, residue by residue. -/
theorem quantSample_reference_eq_refTableQ {r : ℕ} (hr : r < 19) : quantSample 19000 9000 1000 r = refTableQ.getD r 0 := by
  revert r; decide

/-- The residues whose value before truncation is an integer and not zero (R101). -/
theorem wholeBeforeTrunc_reference {r : ℕ} (hr : r < 19) (h : wholeBeforeTrunc 19000 9000 (refAngle 19000 1000 r).2 = true) :
    r = 5 ∨ r = 14 := by
  revert r; decide

/-- Sample `k` of symbol `i` at the reference constants (R100). -/
theorem sampleValue_reference {T : List Bit} {i k : ℕ} {b : Bit} (hb : T[i]? = some b) (hk : k < 380) :
    sampleValue T 19000 50 refCarriers (i * 380 + k) = pol b * refTableQ.getD ((i % 6 + 1) * k % 19) 0 := by
  obtain ⟨hi, -⟩ := List.getElem?_eq_some_iff.1 hb
  have hbit : T.getD i false = b := by rw [List.getD_eq_getElem?_getD, hb, Option.getD_some]
  have h := pol_mul_quantSample (R := 19000) (S := 50) (C := refCarriers) (by decide) (by decide) (by decide)
    (position_lt (N := 380) hi hk)
  simp only [Nat.reduceDiv, Nat.reduceMul, length_refCarriers, symbol_of_position i hk, position_of_symbol i hk,
    peakAngle_reference (List.ne_nil_of_length_pos (Nat.zero_lt_of_lt hi)), hbit] at h
  rw [← h, getD_refCarriers (Nat.mod_lt i (by decide)), quantSample_reference,
    quantSample_reference_eq_refTableQ (Nat.mod_lt _ (by decide))]

/-- Settles O24: the value of the formulas at the reference constants. -/
theorem referenceSamplesFollowTheClosedForm : Obligations.ReferenceSamplesFollowTheClosedForm := by
  refine fun T => ⟨length_modulate (C := refCarriers) (by decide) T 19000 50, fun i b k hb hk => ?_⟩
  obtain ⟨hi, -⟩ := List.getElem?_eq_some_iff.1 hb
  rw [← sampleValue_reference hb hk]
  exact toInt_getD_modulate (by decide) (by decide) (by decide) (position_lt hi hk)

/-- Settles O25: the test of R101 holds at residues 5 and 14 only, where the table has full scale. -/
theorem inexactReferenceSamplesMoveOnlyAtThePeaks : Obligations.InexactReferenceSamplesMoveOnlyAtThePeaks := by
  intro T i b k hb hk r m
  obtain ⟨hi, -⟩ := List.getElem?_eq_some_iff.1 hb
  have hval : _ = pol b * refTableQ.getD r 0 := sampleValue_reference hb hk
  obtain hexact | ⟨-, hwhole, hlower⟩ := toInt_getD_modulateNum .inexact (R := 19000) (S := 50) (C := refCarriers)
    (by decide) (by decide) (by decide) (position_lt (N := 380) hi hk)
  · exact .inl (hexact.trans hval)
  · have hm : m = pol b * refTableQ.getD r 0 - (pol b * refTableQ.getD r 0).sign := by
      rw [← hval]
      exact hlower
    simp only [Nat.reduceDiv, Nat.reduceMul, length_refCarriers, symbol_of_position i hk, position_of_symbol i hk,
      peakAngle_reference (List.ne_nil_of_length_pos (Nat.zero_lt_of_lt hi)),
      getD_refCarriers (Nat.mod_lt i (show 0 < 6 by decide)), refAngle_reference] at hwhole
    obtain hpeak | hpeak := wholeBeforeTrunc_reference (Nat.mod_lt _ (by decide)) hwhole
    · have hpos : m = pol b * 32766 := by
        rw [hm, show r = 5 from hpeak]
        cases b <;> rfl
      exact .inr (.inl ⟨hpeak, hpos⟩)
    · have hneg : m = pol b * (-32766) := by
        rw [hm, show r = 14 from hpeak]
        cases b <;> rfl
      exact .inr (.inr ⟨hpeak, hneg⟩)

/-! ### Polarity, carrier cycling, length (R102) -/

/-- A factor of a symbol's polarity is a factor of its samples: the peak does not depend on the bits (R93). -/
theorem sampleValue_eq_mul {T T' : List Bit} {R S : ℕ} {C : List ℕ} (hC : C ≠ []) (hS : 1 ≤ S) (hR : R < 2 ^ 32)
    (hlen : T'.length = T.length) {j : ℕ} (hj : j < R / S * T.length) {e : ℤ}
    (h : pol (T'.getD (j / (R / S)) false) = e * pol (T.getD (j / (R / S)) false)) :
    sampleValue T' R S C j = e * sampleValue T R S C j := by
  rw [← pol_mul_quantSample hC hS hR hj, ← pol_mul_quantSample hC hS hR (hlen ▸ hj), h, hlen, mul_assoc]

theorem getD_modulate_position {T : List Bit} {R S : ℕ} {C : List ℕ} (hC : C ≠ []) {i k : ℕ} (hi : i < T.length)
    (hk : k < R / S) : (modulate T R S C).getD (i * (R / S) + k) 0#16 = BitVec.ofInt 16 (pol (T.getD i false) *
      quantSample (R / S * S) (peakAngle (R / S * S) (R / S) (C.take T.length)) (C.getD (i % C.length) 0) k) := by
  rw [getD_modulate hC (position_lt hi hk), symbol_of_position i hk, position_of_symbol i hk]

/-- Settles O26: the samples of two bit sequences of one length differ by their polarities only, a carrier is chosen by the
symbol modulo the table, and the length is that of R97. -/
theorem modulatorPolarityCyclingAndLength : Obligations.ModulatorPolarityCyclingAndLength := by
  refine ⟨fun T T' m R S C hS hC hR hlen _ hflip hsame j hj => ?_, fun T R S C _ hC hlen hbit k hk => ?_,
    fun P R S C _ hC => ?_, ?_⟩
  · rw [toInt_getD_modulate hC hS hR hj, toInt_getD_modulate hC hS hR (hlen ▸ hj)]
    split
    · rename_i hm
      rw [← neg_one_mul]
      exact sampleValue_eq_mul hC hS hR hlen hj (by rw [hm, hflip, pol_not, neg_one_mul])
    · rename_i hm
      rw [← one_mul (sampleValue T R S C j)]
      exact sampleValue_eq_mul hC hS hR hlen hj (by rw [hsame _ hm, one_mul])
  · have hfirst := getD_modulate_position (T := T) (S := S) hC (i := 0) (by omega) hk
    rw [Nat.zero_mul, Nat.zero_add] at hfirst
    rw [getD_modulate_position hC (by omega) hk, hfirst, hbit, Nat.mod_self, Nat.zero_mod]
  · rw [length_modulate hC, length_buildFrame, Nat.mul_comm]
  · rw [length_modulate (by decide), length_buildFrame, length_bytesToBits]
    rfl

/-! ### Degenerate carriers (R103, R121) -/

/-- An angle of a whole number of half turns folds to 0. -/
theorem refAngle_eq_zero {D f k : ℕ} (hD : 0 < D) (h : D ∣ 2 * (f * k)) : (refAngle D f k).2 = 0 := by
  have hlt := Nat.mod_lt (f * k) hD
  have hdvd : D ∣ 2 * (f * k % D) := by
    rwa [Nat.dvd_iff_mod_eq_zero, Nat.mul_mod_mod, ← Nat.dvd_iff_mod_eq_zero]
  obtain ⟨c, hc⟩ := hdvd
  unfold refAngle foldAngle
  have hc2 : c < 2 := by
    by_contra hge
    have := Nat.mul_le_mul_left D (not_lt.1 hge)
    omega
  obtain rfl | rfl : c = 0 ∨ c = 1 := by omega
  · have h0 : f * k % D = 0 := by omega
    simp [h0]
  · rw [Nat.mul_one] at hc
    simp [hc]

/-- Carriers whose references are identically zero have no peak. -/
theorem peakAngle_degenerate {N S : ℕ} {fs : List ℕ} (hS : 1 ≤ S) (h : ∀ f ∈ fs, N = 1 ∨ N * S ∣ 2 * f) :
    peakAngle (N * S) N fs = 0 := by
  by_contra hne
  obtain ⟨f, hf, k, hk, hpk⟩ := peakAngle_attained hne
  refine hne (hpk ▸ refAngle_eq_zero (Nat.mul_pos (Nat.zero_lt_of_lt hk) hS) ?_)
  obtain rfl | hdvd := h f hf
  · simp [Nat.lt_one_iff.1 hk]
  · rw [← Nat.mul_assoc]
    exact hdvd.mul_right k

/-- With no peak every sample is 0. -/
theorem modulate_of_peakAngle_eq_zero {T : List Bit} {R S : ℕ} {C : List ℕ} (hC : C ≠ [])
    (h : peakAngle (R / S * S) (R / S) (C.take T.length) = 0) :
    modulate T R S C = List.replicate (R / S * T.length) 0#16 := by
  refine List.eq_replicate_iff.2 ⟨length_modulate hC T R S, fun x hx => ?_⟩
  obtain ⟨j, hj, rfl⟩ := List.mem_iff_getElem.1 hx
  rw [← List.getD_eq_getElem _ 0#16 hj, getD_modulate hC (by rwa [length_modulate hC] at hj), h]
  simp [quantSample]

theorem mem_of_mem_slice {α : Type} {s : List α} {a b : ℕ} {x : α} (h : x ∈ slice s a b) : x ∈ s :=
  List.mem_of_mem_take (List.mem_of_mem_drop h)

/-- Silence demodulates to all ones (R121). -/
theorem demodulate_silent {s : List I16} {Ra S : ℕ} {C : List ℕ} (hS : 1 ≤ S) (hC : C ≠ []) (hRa : Ra < 2 ^ 32)
    (hN : 1 ≤ Ra / S) (hs : ∀ x ∈ s, x = 0#16) : demodulate s Ra S C = List.replicate (s.length / (Ra / S)) true := by
  refine List.eq_replicate_iff.2 ⟨length_demodulate s Ra S C, fun b hb => ?_⟩
  obtain ⟨i, hi, rfl⟩ := List.mem_iff_getElem.1 hb
  rw [length_demodulate] at hi
  have hseg : (slice s (i * (Ra / S)) (i * (Ra / S) + Ra / S)).length = Ra / S := by
    have := (Nat.le_div_iff_mul_le hN).1 (Nat.succ_le_of_lt hi)
    rw [Nat.succ_mul] at this
    rw [length_slice]
    omega
  refine Option.some.inj ((List.getElem?_eq_getElem _).symm.trans ((getElem?_demodulate hC hi).trans (congrArg some ?_)))
  rw [decideBit_iff (Nat.mul_pos hN hS) ((Nat.div_mul_le_self Ra S).trans hRa.le) hseg]
  refine (Finset.sum_eq_zero fun k hk => ?_).ge
  rw [List.getD_eq_getElem _ _ (hseg.symm ▸ Finset.mem_range.1 hk),
    hs _ (mem_of_mem_slice (List.getElem_mem _))]
  simp

/-- Settles O27: no peak, so silence, which reads as ones. -/
theorem degenerateCarriersLoseTheBits : Obligations.DegenerateCarriersLoseTheBits := by
  intro T R S C hS hC hR hN h
  have hmod := modulate_of_peakAngle_eq_zero hC (peakAngle_degenerate hS h)
  refine ⟨hmod, ?_⟩
  rw [hmod, demodulate_silent hS hC hR hN fun x hx => List.eq_of_mem_replicate hx, List.length_replicate,
    Nat.mul_div_cancel_left _ hN]

end Sys2Proof.Proofs
end

section
/-! SUPPORT. Proofs of the statements of spec/43_demodulator.md. A bit is the sign of a correlation (`demodulate_bit_iff`), and the
buffer with these signs is the only one (`demodulate_eq`), so what leaves the correlations alone leaves the bits alone. Against
the signal that was modulated the correlation is a sum of products sample by sample, none of which is negative, because
truncation keeps the sign; that gives the round trips. -/

namespace Sys2Proof.Proofs

open Sys2Proof.Machine Sys2Proof.Safety Sys2Proof.Laws

/-! ### The decision over the reals (R113 to R117) -/

/-- A whole segment ends within the buffer. -/
theorem segment_end_le {n N i : ℕ} (hi : i < n / N) : i * N + N ≤ n := by
  rw [← Nat.succ_mul]
  exact Nat.mul_le_of_le_div _ _ _ hi

theorem length_segment {α : Type} {s : List α} {N i : ℕ} (hi : i < s.length / N) :
    (slice s (i * N) (i * N + N)).length = N := by
  rw [length_slice, Nat.min_eq_left (segment_end_le hi), Nat.add_sub_cancel_left]

theorem getD_segment {α : Type} (s : List α) (x : α) {N k : ℕ} (i : ℕ) (hk : k < N) :
    (slice s (i * N) (i * N + N)).getD k x = s.getD (i * N + k) x := by
  rw [List.getD_eq_getElem?_getD, getElem?_slice, if_pos (by omega), ← List.getD_eq_getElem?_getD]

/-- The correlation of a symbol is that of its segment (R113, R115). -/
theorem correlation_eq_segment (s : List I16) (Ra S : ℕ) (C : List ℕ) (i : ℕ) :
    correlation s Ra S C i = ∑ k ∈ Finset.range (Ra / S),
      (((slice s (i * (Ra / S)) (i * (Ra / S) + Ra / S)).getD k 0#16).toInt : ℝ) *
        refSample (C.getD (i % C.length) 0) (Ra / S) S k :=
  Finset.sum_congr rfl fun k hk => by rw [getD_segment s _ i (Finset.mem_range.1 hk)]

/-- A bit is the sign of the correlation of its segment, zero deciding 1 (R116). -/
theorem demodulate_bit_iff {s : List I16} {Ra S : ℕ} {C : List ℕ} (hS : 1 ≤ S) (hC : C ≠ []) (hRa : Ra < 2 ^ 32)
    (hN : 1 ≤ Ra / S) {i : ℕ} {b : Bit} (hb : (demodulate s Ra S C)[i]? = some b) :
    b = true ↔ 0 ≤ correlation s Ra S C i := by
  have hi : i < s.length / (Ra / S) := length_demodulate s Ra S C ▸ (List.getElem?_eq_some_iff.1 hb).1
  obtain rfl := Option.some.inj ((getElem?_demodulate hC hi).symm.trans hb)
  rw [correlation_eq_segment]
  exact decideBit_iff (Nat.mul_pos hN hS) ((Nat.div_mul_le_self Ra S).trans hRa.le) (length_segment hi)

/-- Settles O28: the length of `demodulate` and the exact decision on each segment. -/
theorem demodulateDecidesByTheRealCorrelation : Obligations.DemodulateDecidesByTheRealCorrelation :=
  fun s Ra S C hS hC hRa hN => ⟨length_demodulate s Ra S C, fun _ _ => demodulate_bit_iff hS hC hRa hN⟩

/-- The signs of the correlations determine the bits. -/
theorem demodulate_eq {s : List I16} {Ra S : ℕ} {C : List ℕ} (hS : 1 ≤ S) (hC : C ≠ []) (hRa : Ra < 2 ^ 32)
    (hN : 1 ≤ Ra / S) {T : List Bit} (hlen : T.length = s.length / (Ra / S))
    (hT : ∀ i b, T[i]? = some b → (b = true ↔ 0 ≤ correlation s Ra S C i)) : demodulate s Ra S C = T := by
  refine List.ext_getElem ((length_demodulate s Ra S C).trans hlen.symm) fun i h h' => Bool.eq_iff_iff.2 ?_
  rw [demodulate_bit_iff hS hC hRa hN (List.getElem?_eq_getElem h), hT i _ (List.getElem?_eq_getElem h')]

/-! ### The decision in either arithmetic (U4) -/

/-- A decided bit is one that the arithmetic `NUM` allows: it is the exact one unless the segment is tied. -/
theorem bitAllowed_demodulateNum {num : Numerics} {s : List I16} {Ra S : ℕ} {C : List ℕ} (hS : 1 ≤ S) (hC : C ≠ [])
    (hRa : Ra < 2 ^ 32) (hN : 1 ≤ Ra / S) {i : ℕ} {b : Bit} (hb : (demodulateNum num s Ra S C)[i]? = some b) :
    BitAllowed num s Ra S C i b := by
  by_cases hexact : num = .exact ∨
      tied (Ra / S * S) (C.getD (i % C.length) 0) (slice s (i * (Ra / S)) (i * (Ra / S) + Ra / S)) = false
  · rw [getElem?_demodulateNum num s Ra S i hexact] at hb
    exact .inl (demodulate_bit_iff hS hC hRa hN hb)
  · obtain ⟨hnum, htied⟩ := not_or.1 hexact
    have hi : i < s.length / (Ra / S) := length_demodulateNum num s Ra S C ▸ (List.getElem?_eq_some_iff.1 hb).1
    have hlen := length_segment hi
    obtain ⟨⟨x, hx, hne⟩, hzero⟩ := (tied_iff (Nat.mul_pos hN hS) hlen).1 (Bool.not_eq_false _ ▸ htied)
    obtain ⟨k, hk, rfl⟩ := List.mem_iff_getElem.1 hx
    refine .inr ⟨by cases num <;> trivial, (correlation_eq_segment s Ra S C i).trans hzero, k, hlen ▸ hk, ?_⟩
    rwa [← getD_segment s _ i (hlen ▸ hk), List.getD_eq_getElem _ _ hk]

/-- A bit of a correlation that is not zero is decided by its sign in either arithmetic. -/
theorem demodulateNum_bit_iff {num : Numerics} {s : List I16} {Ra S : ℕ} {C : List ℕ} (hS : 1 ≤ S) (hC : C ≠ [])
    (hRa : Ra < 2 ^ 32) (hN : 1 ≤ Ra / S) {i : ℕ} {b : Bit} (hb : (demodulateNum num s Ra S C)[i]? = some b)
    (hne : correlation s Ra S C i ≠ 0) : b = true ↔ 0 ≤ correlation s Ra S C i := by
  obtain h | ⟨-, hzero, -⟩ := bitAllowed_demodulateNum hS hC hRa hN hb
  · exact h
  · exact absurd hzero hne

/-! ### DEMODULATE (R118, R119) -/

/-- A command that computes an error and may warn returns its code with the warning of R111 and nothing changed (R146). -/
theorem returns_warned_of_error {i : Instr} {s : State} {e : Err} (hl : needsLegal i = true → Legal s)
    (hw : warns s i = rateMismatch s) (h : computed i s = .error e) :
    Returns i s (warned s (statusWord false (some e))) s := by
  rw [Returns, exec_eq_report hl, h, hw, ← statusWord_rateMismatch]
  rfl

/-- A command with a possible effect that may warn returns `0x00` with the warning of R111 and that effect (R37). -/
theorem returns_warned_of_effect {i : Instr} {s t : State} (hl : needsLegal i = true → Legal s)
    (hw : warns s i = rateMismatch s) (h : Effect s t i) : Returns i s (warned s 0x00#8) t := by
  rw [Returns, exec_of_effect hl h, succeed_eq, hw, effect_shown h, statusWord_rateMismatch]
  rfl

section
variable {p : Params} {c : Cfg} {Ra : U32} {v : List I16}

/-- A rate with no sample per symbol (R119). -/
theorem demodulatePhase_of_degenerate (hN : Ra.toNat / c.symrate.toNat = 0) :
    demodulatePhase p c Ra v = .error .degenerateRate :=
  if_pos hN

theorem demodulatePhase_of_not_fits (hN : Ra.toNat / c.symrate.toNat ≠ 0)
    (h : fits (v.length / (Ra.toNat / c.symrate.toNat)) p.capBits = false) :
    demodulatePhase p c Ra v = .error .capacity :=
  (if_neg hN).trans (if_neg (Bool.not_eq_true _ ▸ h))

theorem demodulatePhase_of_fits (hN : Ra.toNat / c.symrate.toNat ≠ 0)
    (h : fits (v.length / (Ra.toNat / c.symrate.toNat)) p.capBits = true) :
    demodulatePhase p c Ra v = .ok (demodulateNum p.num v Ra.toNat c.symrate.toNat (carriers c)) :=
  (if_neg hN).trans (if_pos h)

end

/-- Settles O29: the two tests of `demodulatePhase` in order, and each bit of its result. -/
theorem demodulateWritesTheDecidedBits : Obligations.DemodulateWritesTheDecidedBits := by
  refine ⟨decode_encode .demodulate, fun s hlegal => ⟨fun hN => ?_, fun hN h => ?_, fun hN h => ?_⟩⟩
  · exact returns_warned_of_error (i := .demodulate) (fun _ => hlegal) rfl
      (bind_of_error (demodulatePhase_of_degenerate hN) _)
  · exact returns_warned_of_error (i := .demodulate) (fun _ => hlegal) rfl
      (bind_of_error (demodulatePhase_of_not_fits hN h) _)
  · obtain ⟨hS, -⟩ := legal_iff.1 hlegal
    refine ⟨_, returns_warned_of_effect (fun _ => hlegal) rfl ⟨_, demodulatePhase_of_fits hN h, rfl⟩,
      length_demodulateNum .., fun i b hb => ?_⟩
    rw [← carriers_eq_map hlegal]
    exact bitAllowed_demodulateNum hS (carriers_ne_nil hlegal) s.arate.isLt (Nat.one_le_iff_ne_zero.2 hN) hb

/-! ### Samples that do not matter (R112, R115) -/

/-- Settles O30: as many segments are cut as before, and each ends within `s`. -/
theorem trailingSamplesAreDiscarded : Obligations.TrailingSamplesAreDiscarded := by
  intro s extra Ra S C hN hC
  refine ⟨length_demodulate s Ra S C, fun h => ?_, fun hmod hextra => ?_⟩
  · rw [← List.length_eq_zero_iff, length_demodulate, Nat.div_eq_of_lt h]
  · have hM : (s ++ extra).length / (Ra / S) = s.length / (Ra / S) := by
      have hs := Nat.div_mul_cancel (Nat.dvd_of_mod_eq_zero hmod)
      rw [List.length_append, ← hs, Nat.mul_comm, Nat.mul_add_div hN, Nat.div_eq_of_lt hextra,
        Nat.mul_div_cancel_left _ hN, Nat.add_zero]
    refine List.ext_getElem? fun i => ?_
    by_cases hi : i < s.length / (Ra / S)
    · rw [getElem?_demodulate hC (hM ▸ hi), getElem?_demodulate hC hi, slice, slice,
        List.take_append_of_le_length (segment_end_le hi)]
    · rw [List.getElem?_eq_none (by rw [length_demodulate, hM]; omega),
        List.getElem?_eq_none (by rw [length_demodulate]; omega)]

/-- The reference starts at a sine of 0, so the first sample of a segment adds nothing (R91, R115). -/
theorem correlation_set_first (s : List I16) (x : I16) (i Ra S : ℕ) (C : List ℕ) (j : ℕ) :
    correlation (s.set (i * (Ra / S)) x) Ra S C j = correlation s Ra S C j := by
  refine Finset.sum_congr rfl fun k hk => ?_
  obtain rfl | hk0 := Nat.eq_zero_or_pos k
  · simp [refSample]
  · have hpos : i * (Ra / S) ≠ j * (Ra / S) + k := fun h => by
      have hmod := position_of_symbol j (Finset.mem_range.1 hk)
      rw [← h, Nat.mul_mod_left] at hmod
      omega
    rw [List.getD_eq_getElem?_getD, List.getElem?_set_ne hpos, ← List.getD_eq_getElem?_getD]

/-- Settles O31: no correlation changes. -/
theorem firstSampleOfASymbolIsIgnored : Obligations.FirstSampleOfASymbolIsIgnored := by
  intro s x i Ra S C hS hC hRa hN
  refine demodulate_eq hS hC hRa hN (by rw [length_demodulate, List.length_set]) fun j b hb => ?_
  rw [correlation_set_first]
  exact demodulate_bit_iff hS hC hRa hN hb

/-! ### Silence (R121) -/

/-- Silence is never tied, so it reads as ones in either arithmetic. -/
theorem demodulateNum_silent (num : Numerics) {s : List I16} {Ra S : ℕ} {C : List ℕ} (hS : 1 ≤ S) (hC : C ≠ [])
    (hRa : Ra < 2 ^ 32) (hN : 1 ≤ Ra / S) (hs : ∀ x ∈ s, x = 0#16) :
    demodulateNum num s Ra S C = List.replicate (s.length / (Ra / S)) true := by
  rw [← demodulate_silent hS hC hRa hN hs]
  refine List.ext_getElem? fun i => getElem?_demodulateNum num s Ra S i (.inr ?_)
  have hsilent : (slice s (i * (Ra / S)) (i * (Ra / S) + Ra / S)).any (· != 0#16) = false :=
    List.any_eq_false.2 fun x hx => by simp [hs x (mem_of_mem_slice hx)]
  rw [tied, hsilent, Bool.false_and]

/-- A header of 32 ones is the number `2^32 - 1`, which no whole number of bytes has (R132). -/
theorem decodeBits_ones (p : Params) {M : ℕ} (hM : 32 ≤ M) :
    decodeBits p (List.replicate M true) = .error .unalignedPayload := by
  have hparse := parseFrame_of_header (F := List.replicate M true) (by rwa [List.length_replicate])
  rw [List.take_replicate, Nat.min_eq_left hM] at hparse
  have hvalue : (BitVec.ofNat 32 (bitsValue (List.replicate 32 true))).toNat % 8 ≠ 0 := by decide
  rw [decodeBits, hparse]
  exact if_pos hvalue

/-- Settles O32: the bits of silence, and the header that DECODE finds in them. -/
theorem silenceReadsAsOnes : Obligations.SilenceReadsAsOnes := by
  intro s hlegal hs N M hN h
  obtain ⟨hS, -⟩ := legal_iff.1 hlegal
  have hphase : demodulatePhase s.par s.cfg s.arate s.samples = .ok (List.replicate M true) := by
    rw [demodulatePhase_of_fits hN h, demodulateNum_silent s.par.num hS (carriers_ne_nil hlegal) s.arate.isLt
      (Nat.one_le_iff_ne_zero.2 hN) hs]
  refine ⟨returns_warned_of_effect (fun _ => hlegal) rfl ⟨_, hphase, rfl⟩, fun hM => ?_⟩
  have hcomputed : computed .decode s = .error .unalignedPayload := by
    rw [computed, hphase, ok_bind, decodeBits_ones s.par hM]
    rfl
  exact returns_warned_of_error (fun _ => hlegal) rfl hcomputed

/-! ### Truncation keeps the sign (R96) -/

theorem truncReal_mul_self (x : ℝ) : truncReal x * x = ⌊|x|⌋ * |x| := by
  unfold truncReal
  split
  · rw [abs_of_nonneg ‹_›]
  · rw [abs_of_neg (not_le.1 ‹_›)]
    push_cast
    ring

theorem truncReal_mul_self_nonneg (x : ℝ) : 0 ≤ truncReal x * x := by
  rw [truncReal_mul_self]
  exact mul_nonneg (by exact_mod_cast Int.floor_nonneg.2 (abs_nonneg x)) (abs_nonneg x)

/-- Truncation leaves something exactly of a value of at least one unit. -/
theorem truncReal_mul_self_pos_iff {x : ℝ} : 0 < truncReal x * x ↔ 1 ≤ |x| := by
  rw [truncReal_mul_self]
  constructor
  · intro h
    by_contra hlt
    rw [Int.floor_eq_zero_iff.2 ⟨abs_nonneg x, not_le.1 hlt⟩] at h
    simp at h
  · intro h
    exact mul_pos (by exact_mod_cast Int.floor_pos.2 h) (by linarith)

/-- One unit lower in magnitude the truncated value still keeps the sign, and from two units on something is left (R101). -/
theorem lowered_truncReal_mul_self (x : ℝ) :
    0 ≤ ((truncReal x - (truncReal x).sign : ℤ) : ℝ) * x ∧
      (2 ≤ |x| → 0 < ((truncReal x - (truncReal x).sign : ℤ) : ℝ) * x) := by
  have hsign : ((truncReal x).sign : ℝ) * x ≤ |x| := by
    obtain h | h | h := Int.sign_trichotomy (truncReal x) <;> rw [h]
    · simpa using le_abs_self x
    · simp
    · simpa using neg_le_abs x
  have hsum : (⌊|x|⌋ - 1) * |x| ≤ ((truncReal x - (truncReal x).sign : ℤ) : ℝ) * x := by
    have := truncReal_mul_self x
    push_cast
    linarith
  refine ⟨?_, fun h2 => ?_⟩
  · obtain h1 | h1 := le_or_gt 1 |x|
    · have hfloor : (1 : ℝ) ≤ ⌊|x|⌋ := by exact_mod_cast Int.le_floor.2 (by exact_mod_cast h1)
      exact (mul_nonneg (by linarith) (abs_nonneg x)).trans hsum
    · have hzero : truncReal x * x = 0 := by
        rw [truncReal_mul_self, Int.floor_eq_zero_iff.2 ⟨abs_nonneg x, h1⟩]
        simp
      obtain ht | rfl := mul_eq_zero.1 hzero
      · rw [Int.cast_eq_zero.1 ht]
        simp
      · simp
  · have hfloor : (2 : ℝ) ≤ ⌊|x|⌋ := by exact_mod_cast Int.le_floor.2 (by exact_mod_cast h2)
    exact (mul_pos (by linarith) (by linarith)).trans_le hsum

/-! ### The round trip in any configuration (R120) -/

/-- With its polarity undone, the correlation of a symbol is the product of the samples with the signal that was sent. -/
theorem pol_mul_correlation (s : List I16) (T : List Bit) (R S : ℕ) (C : List ℕ) (i : ℕ) :
    pol (T.getD i false) * correlation s R S C i = ∑ k ∈ Finset.range (R / S),
      ((s.getD (i * (R / S) + k) 0#16).toInt : ℝ) * signal T R S C (i * (R / S) + k) := by
  rw [correlation, Finset.mul_sum]
  refine Finset.sum_congr rfl fun k hk => ?_
  rw [signal]
  simp only [symbol_of_position i (Finset.mem_range.1 hk), position_of_symbol i (Finset.mem_range.1 hk)]
  ring

/-- A number whose sign is the polarity of a bit gives the bit. -/
theorem nonneg_iff_of_pol_mul_pos {b : Bit} {x : ℝ} (h : 0 < pol b * x) : 0 ≤ x ↔ b = true := by
  cases b
  · simpa [pol] using h
  · simpa [pol] using (show 0 < x by simpa [pol] using h).le

section
variable {T : List Bit} {R S : ℕ} {C : List ℕ}

/-- A product with the signal has the sign of the product with the value before truncation. -/
theorem mul_beforeTrunc (hp : peak (signal T R S C) (R / S * T.length) ≠ 0) (m : ℝ) (j : ℕ) :
    m * signal T R S C j = peak (signal T R S C) (R / S * T.length) / 32767 * (m * beforeTrunc T R S C j) := by
  unfold beforeTrunc
  simp only [if_neg hp]
  field_simp

theorem le_abs_beforeTrunc_iff (hp : peak (signal T R S C) (R / S * T.length) ≠ 0) (a : ℝ) (j : ℕ) :
    a ≤ |beforeTrunc T R S C j| ↔ a * (peak (signal T R S C) (R / S * T.length) / 32767) ≤ |signal T R S C j| := by
  have hpos := (peak_nonneg (signal T R S C) (R / S * T.length)).lt_of_ne' hp
  rw [abs_beforeTrunc hp, le_div_iff₀ hpos, ← mul_div_assoc, div_le_iff₀ (by norm_num), mul_comm 32767]

/-- A sample of the exact arithmetic never has the opposite sign of the signal. -/
theorem sampleValue_mul_signal_nonneg (hp : peak (signal T R S C) (R / S * T.length) ≠ 0) (j : ℕ) :
    0 ≤ sampleValue T R S C j * signal T R S C j := by
  rw [mul_beforeTrunc hp]
  exact mul_nonneg (div_nonneg (peak_nonneg _ _) (by norm_num)) (truncReal_mul_self_nonneg _)

/-- It is not lost exactly where the signal reaches one unit. -/
theorem sampleValue_mul_signal_pos_iff (hp : peak (signal T R S C) (R / S * T.length) ≠ 0) (j : ℕ) :
    0 < sampleValue T R S C j * signal T R S C j ↔
      peak (signal T R S C) (R / S * T.length) / 32767 ≤ |signal T R S C j| := by
  have hpos := (peak_nonneg (signal T R S C) (R / S * T.length)).lt_of_ne' hp
  rw [mul_beforeTrunc hp, mul_pos_iff_of_pos_left (by positivity), ← one_mul (peak _ _ / 32767),
    ← le_abs_beforeTrunc_iff hp]
  exact truncReal_mul_self_pos_iff

/-- The same of a sample of either arithmetic, which is not lost where the signal reaches two units. -/
theorem modulateNum_mul_signal (num : Numerics) (hC : C ≠ []) (hS : 1 ≤ S) (hR : R < 2 ^ 32)
    (hp : peak (signal T R S C) (R / S * T.length) ≠ 0) {j : ℕ} (hj : j < R / S * T.length) :
    0 ≤ (((modulateNum num T R S C).getD j 0#16).toInt : ℝ) * signal T R S C j ∧
      (2 * (peak (signal T R S C) (R / S * T.length) / 32767) ≤ |signal T R S C j| →
        0 < (((modulateNum num T R S C).getD j 0#16).toInt : ℝ) * signal T R S C j) := by
  have hpos := (peak_nonneg (signal T R S C) (R / S * T.length)).lt_of_ne' hp
  rw [mul_beforeTrunc hp, ← le_abs_beforeTrunc_iff hp, mul_pos_iff_of_pos_left (by positivity),
    mul_nonneg_iff_of_pos_left (by positivity)]
  obtain h | ⟨-, -, h⟩ := toInt_getD_modulateNum num hC hS hR hj <;> rw [h]
  · exact ⟨truncReal_mul_self_nonneg _, fun h2 => truncReal_mul_self_pos_iff.2 (by linarith)⟩
  · exact lowered_truncReal_mul_self _

theorem abs_signal_symbol (T : List Bit) (R S : ℕ) (C : List ℕ) (i : ℕ) {k : ℕ} (hk : k < R / S) :
    |signal T R S C (i * (R / S) + k)| = |refSample (C.getD (i % C.length) 0) (R / S) S k| := by
  rw [abs_signal, symbol_of_position i hk, position_of_symbol i hk]

section
variable {i : ℕ} (hC : C ≠ []) (hS : 1 ≤ S) (hR : R < 2 ^ 32) (hp : peak (signal T R S C) (R / S * T.length) ≠ 0)
  (hi : i < T.length)
include hC hS hR hi

theorem pol_mul_correlation_modulate : pol (T.getD i false) * correlation (modulate T R S C) R S C i =
    ∑ k ∈ Finset.range (R / S), sampleValue T R S C (i * (R / S) + k) * signal T R S C (i * (R / S) + k) := by
  rw [pol_mul_correlation]
  refine Finset.sum_congr rfl fun k hk => ?_
  rw [toInt_getD_modulate hC hS hR (position_lt hi (Finset.mem_range.1 hk))]

include hp

theorem pol_mul_correlation_modulate_nonneg :
    0 ≤ pol (T.getD i false) * correlation (modulate T R S C) R S C i := by
  rw [pol_mul_correlation_modulate hC hS hR hi]
  exact Finset.sum_nonneg fun k _ => sampleValue_mul_signal_nonneg hp _

theorem pol_mul_correlation_modulate_pos_iff :
    0 < pol (T.getD i false) * correlation (modulate T R S C) R S C i ↔ ∃ k < R / S,
      peak (signal T R S C) (R / S * T.length) / 32767 ≤ |refSample (C.getD (i % C.length) 0) (R / S) S k| := by
  rw [pol_mul_correlation_modulate hC hS hR hi,
    Finset.sum_pos_iff_of_nonneg fun k _ => sampleValue_mul_signal_nonneg hp _]
  refine exists_congr fun k => ?_
  rw [Finset.mem_range]
  refine and_congr_right fun hk => ?_
  rw [sampleValue_mul_signal_pos_iff hp, abs_signal_symbol T R S C i hk]

theorem pol_mul_correlation_modulateNum_pos (num : Numerics) (h : ∃ k < R / S,
    2 * (peak (signal T R S C) (R / S * T.length) / 32767) ≤ |refSample (C.getD (i % C.length) 0) (R / S) S k|) :
    0 < pol (T.getD i false) * correlation (modulateNum num T R S C) R S C i := by
  have hterm := fun k (hk : k < R / S) => modulateNum_mul_signal num hC hS hR hp (position_lt hi hk)
  obtain ⟨k, hk, hle⟩ := h
  rw [← abs_signal_symbol T R S C i hk] at hle
  rw [pol_mul_correlation]
  exact Finset.sum_pos' (fun k hk => (hterm k (Finset.mem_range.1 hk)).1)
    ⟨k, Finset.mem_range.2 hk, (hterm k hk).2 hle⟩

end

end

/-- Settles O33: the correlation has the polarity of the bit or is zero, and it is not zero exactly where some sample of the
symbol is not. -/
theorem noiselessRoundTripRecoversBits : Obligations.NoiselessRoundTripRecoversBits := by
  intro T R S C hS hC hR hN p hp
  have hlen : (demodulate (modulate T R S C) R S C).length = T.length := by
    rw [length_demodulate, length_modulate hC, Nat.mul_div_cancel_left _ hN]
  refine ⟨hlen, fun i hi => ?_⟩
  have hbit := demodulate_bit_iff hS hC hR hN (List.getElem?_eq_getElem (hlen ▸ hi))
  rw [← List.getD_eq_getElem _ false (hlen ▸ hi)] at hbit
  have hnonneg := pol_mul_correlation_modulate_nonneg hC hS hR hp hi
  have hpos := pol_mul_correlation_modulate_pos_iff hC hS hR hp hi
  refine ⟨fun h1 => ?_, fun h0 => ?_⟩
  · rw [h1] at hnonneg
    exact hbit.2 (by simpa [pol] using hnonneg)
  · rw [← hpos, h0, ← Bool.not_eq_true, hbit]
    simp [pol]

/-! ### The round trip with the reference constants (R120) -/

theorem peak_reference {T : List Bit} (hT : T ≠ []) : peak (signal T 19000 50 refCarriers) (380 * T.length) =
    Real.sin (Real.pi * (9000 : ℕ) / (19000 : ℕ)) := by
  rw [← peakAngle_reference hT]
  exact peak_signal (R := 19000) (S := 50) (by decide) (by decide)

/-- Every carrier reaches the peak, at the sample of residue 5 (R100). -/
theorem exists_full_scale_reference (i : ℕ) : ∃ k < 380, |refSample (refCarriers.getD (i % 6) 0) 380 50 k| =
    Real.sin (Real.pi * (9000 : ℕ) / (19000 : ℕ)) := by
  have hresidue : ∀ m < 6, ∃ k < 19, (m + 1) * k % 19 = 5 := by decide
  obtain ⟨k, hk, h5⟩ := hresidue (i % 6) (Nat.mod_lt i (by decide))
  refine ⟨k, by omega, ?_⟩
  have hangle : (refAngle (380 * 50) (1000 * (i % 6 + 1)) k).2 = 9000 := by
    rw [refAngle_reference, h5]
    decide
  rw [getD_refCarriers (Nat.mod_lt i (by decide)), abs_refSample (by decide), hangle]

/-- No correlation is zero, and each has the polarity of its bit, whatever the arithmetic of the sender. -/
theorem pol_mul_correlation_reference_pos (num : Numerics) {T : List Bit} {i : ℕ} (hi : i < T.length) :
    0 < pol (T.getD i false) * correlation (modulateNum num T 19000 50 refCarriers) 19000 50 refCarriers i := by
  have hpeak := peak_reference (List.ne_nil_of_length_pos (Nat.zero_lt_of_lt hi))
  have hsin : 0 < Real.sin (Real.pi * (9000 : ℕ) / (19000 : ℕ)) := sin_fold_pos (by decide) (by decide)
  obtain ⟨k, hk, hfull⟩ := exists_full_scale_reference i
  refine pol_mul_correlation_modulateNum_pos (by decide) (by decide) (by decide) (hpeak.trans_ne hsin.ne') hi num
    ⟨k, hk, ?_⟩
  calc 2 * (peak (signal T 19000 50 refCarriers) (380 * T.length) / 32767)
      ≤ Real.sin (Real.pi * (9000 : ℕ) / (19000 : ℕ)) := by rw [hpeak]; linarith
    _ = |refSample (refCarriers.getD (i % 6) 0) 380 50 k| := hfull.symm

/-- Settles O34: the sign of each correlation is its bit in either arithmetic, because none is zero. -/
theorem referenceDemodulationInvertsModulation : Obligations.ReferenceDemodulationInvertsModulation := by
  intro sender receiver T
  show demodulateNum receiver (modulateNum sender T 19000 50 refCarriers) 19000 50 refCarriers = T
  have hC : refCarriers ≠ [] := by decide
  refine List.ext_getElem ?_ fun i h hi => Bool.eq_iff_iff.2 ?_
  · rw [length_demodulateNum, length_modulateNum hC, Nat.mul_div_cancel_left _ (by decide)]
  · have hcorr := pol_mul_correlation_reference_pos sender hi
    rw [demodulateNum_bit_iff (by decide) hC (by decide) (by decide) (List.getElem?_eq_getElem h)
      (right_ne_zero_of_mul hcorr.ne'), nonneg_iff_of_pol_mul_pos hcorr, List.getD_eq_getElem _ _ hi]

end Sys2Proof.Proofs
end

section
/-! SUPPORT. Proofs of the statements of spec/44_composite.md. A composite command runs the phases of the single commands in their
order, so its answers are the phases' answers: each error of `encodeFrame` and `decodeBits` is said once, and a composite
command that succeeds has had the effect of each phase in turn. -/

namespace Sys2Proof.Proofs

open Sys2Proof.Machine Sys2Proof.Safety Sys2Proof.Laws

/-! ### A command that succeeded -/

/-- A command that shows a status word without an error code has had its effect (R60, R141). -/
theorem effect_of_success {i : Instr} {s t : State} {w : Byte} (h : exec i s = .next t)
    (hw : t.shown = s.shown ++ [.status w]) (h0 : w.extractLsb' 0 4 = 0#4) :
    (needsLegal i = true → Legal s) ∧ w = statusWord (warns s i) none ∧ ∃ u, Effect s u i ∧ t = u.emit (.status w) := by
  obtain ⟨-, -, hx⟩ | ⟨hl, ⟨e, -, hx⟩ | ⟨u, hu, hx⟩⟩ := exec_cases i s
  · cases hx.symm.trans h
  · cases hx.symm.trans h
    obtain rfl : statusWord (warns s i) (some e) = w := by simpa using hw
    obtain ⟨-, -, herr⟩ := statusWord_fields (warns s i) (some e)
    cases errField_eq_zero.1 (herr.symm.trans h0)
  · cases hx.symm.trans h
    obtain rfl : statusWord (warns s i) none = w := by simpa [effect_shown hu] using hw
    exact ⟨hl, rfl, u, hu, rfl⟩

/-! ### The phases of ENCODE (R131) -/

section
variable {p : Params} {B : List Byte}

theorem encodeFrame_of_not_fits (h : fits (8 * B.length) p.capBits = false) : encodeFrame p B = .error .capacity := by
  rw [encodeFrame, unpackPhase_of_not_fits h]

/-- Once the bits of the bytes fit, the tests are those of BUILDFRAME on them. -/
theorem encodeFrame_eq_framePhase (h : fits (8 * B.length) p.capBits = true) :
    encodeFrame p B = framePhase p (bytesToBits B) := by
  rw [encodeFrame, unpackPhase_of_fits h]

theorem encodeFrame_of_fits (hlen : 8 * B.length ≤ 2 ^ 32 - 1) (h : fits (32 + 8 * B.length) p.capBits = true) :
    encodeFrame p B = .ok (buildFrame (bytesToBits B)) := by
  rw [← length_bytesToBits] at hlen h
  rw [encodeFrame_eq_framePhase (length_bytesToBits B ▸ fits_mono (Nat.le_add_left ..) h), framePhase_of_fits hlen h]

/-- Behind the header stand the bits of the bytes (R70, R81). -/
theorem getElem?_buildFrame_bytesToBits {j q : ℕ} {b : Byte} (hb : B[j]? = some b) (hq : q < 8) :
    (buildFrame (bytesToBits B))[32 + 8 * j + q]? = some (b.getLsbD (7 - q)) := by
  rw [Nat.add_assoc, ← List.getElem?_drop, drop_buildFrame, getElem?_bytesToBits hb hq]

end

/-- An error of the modulator phase is ENCODE's once the frame is built. -/
theorem computed_encode_of_modulatePhase_error {s : State} {F : List Bit} {e : Err}
    (hF : encodeFrame s.par s.bytes = .ok F) (h : modulatePhase s.par s.cfg F = .error e) :
    computed .encode s = .error e := by
  rw [computed, hF, ok_bind, bind_of_error h]

/-- Settles O35: the tests of the unpacker, the frame builder and the modulator in order, and the frame and its samples. -/
theorem encodeWritesFrameAndSamples : Obligations.EncodeWritesFrameAndSamples := by
  refine ⟨decode_encode .encode, fun s hlegal => ?_⟩
  have herror {e : Err} (h : computed .encode s = .error e) : Returns .encode s (statusWord false (some e)) s :=
    returns_of_error (fun _ => hlegal) rfl h
  refine ⟨fun h => ?_, fun h hlong => ?_, fun h hlen hframe => ?_, fun hlen hframe hsamples => ?_,
    fun hlen hframe hsamples => ?_⟩
  · exact herror (bind_of_error (encodeFrame_of_not_fits h) _)
  · rw [← length_bytesToBits] at hlong
    exact herror (bind_of_error ((encodeFrame_eq_framePhase h).trans (framePhase_of_overlong hlong)) _)
  · rw [← length_bytesToBits] at hlen hframe
    exact herror (bind_of_error ((encodeFrame_eq_framePhase h).trans (framePhase_of_not_fits hlen hframe)) _)
  · rw [← length_bytesToBits, ← length_buildFrame] at hsamples
    exact herror (computed_encode_of_modulatePhase_error (encodeFrame_of_fits hlen hframe)
      (modulatePhase_of_not_fits hsamples))
  · obtain ⟨hS, -⟩ := legal_iff.1 hlegal
    have hC := carriers_ne_nil hlegal
    have hF : (buildFrame (bytesToBits s.bytes)).length = 32 + 8 * s.bytes.length := by simp
    rw [← hF] at hsamples ⊢
    refine ⟨_, _, returns_of_effect (fun _ => hlegal) rfl
        ⟨_, _, encodeFrame_of_fits hlen hframe, if_pos hsamples, rfl⟩, rfl, fun q hq => ?_,
      fun j b q => getElem?_buildFrame_bytesToBits, length_modulateNum hC .., fun j hj => ?_⟩
    · rw [getElem?_buildFrame _ hq, length_bytesToBits]
    · rw [← carriers_eq_map hlegal]
      exact sampleAllowed_modulateNum hC hS s.cfg.srate.isLt hj

/-- Settles O36: each phase of ENCODE is the effect of its command, one after the other. -/
theorem encodeEqualsItsThreePhases : Obligations.EncodeEqualsItsThreePhases := by
  intro s t h hshown
  obtain ⟨hlegal, -, u, ⟨F, v, hF, hv, rfl⟩, rfl⟩ := effect_of_success h hshown (by decide)
  obtain ⟨P, hP, hFrame⟩ := encodeFrame_ok hF
  exact ⟨_, _, _, returns_of_effect nofun rfl ⟨P, hP, rfl⟩, returns_of_effect nofun rfl ⟨F, hFrame, rfl⟩,
    returns_of_effect (fun _ => hlegal rfl) rfl ⟨v, hv, rfl⟩, by simp, rfl⟩

/-! ### The phases of DECODE (R132 to R134) -/

theorem packPhase_of_partial {p : Params} {T : List Bit} (h8 : T.length % 8 ≠ 0) :
    packPhase p T = .error .invalidLength := by
  rw [packPhase_eq, if_neg h8]

theorem packPhase_of_not_fits {p : Params} {T : List Bit} (h8 : T.length % 8 = 0)
    (h : fits (T.length / 8) p.capBytes = false) : packPhase p T = .error .capacity := by
  rw [packPhase_eq, if_pos h8, if_neg (by simp [h])]

section
variable {p : Params} {T : List Bit}

theorem decodeBits_of_short (h : T.length < 32) : decodeBits p T = .error .truncatedHeader := by
  rw [decodeBits, parseFrame_of_short h]

/-- After the caller's check of R132, on the declared length, the answer is the packer's on the payload. -/
theorem decodeBits_of_parsed {f : Parsed} (hf : parseFrame T = .ok f) (h8 : f.declared.toNat % 8 = 0) :
    decodeBits p T = (packPhase p f.payload).map fun B => { frame := f, bytes := B } := by
  rw [decodeBits, hf]
  simp only [ne_eq, h8, not_true_eq_false, if_false]
  cases packPhase p f.payload <;> rfl

section
variable {L : ℕ} (hlen : 32 ≤ T.length) (hL : bitsValue (T.take 32) = L)
include hlen hL

theorem toNat_ofNat_header : (BitVec.ofNat 32 L).toNat = L :=
  hL ▸ toNat_ofNat_bitsValue (List.length_take_of_le hlen)

theorem parseFrame_of_header_eq : parseFrame T = .ok { payload := (T.drop 32).take L, remaining := T.drop (32 + L),
                                                       declared := BitVec.ofNat 32 L } := by
  rw [parseFrame_of_header hlen, hL, List.drop_drop]

theorem decodeBits_of_unaligned (h8 : L % 8 ≠ 0) : decodeBits p T = .error .unalignedPayload := by
  rw [decodeBits, parseFrame_of_header_eq hlen hL]
  exact if_pos (by rwa [toNat_ofNat_header hlen hL])

theorem decodeBits_of_aligned (h8 : L % 8 = 0) : decodeBits p T = (packPhase p ((T.drop 32).take L)).map fun B =>
    { frame := { payload := (T.drop 32).take L, remaining := T.drop (32 + L), declared := BitVec.ofNat 32 L },
      bytes := B } :=
  decodeBits_of_parsed (parseFrame_of_header_eq hlen hL) (by rwa [toNat_ofNat_header hlen hL])

end

end

/-- An error of the later phases is DECODE's once the bits are demodulated. -/
theorem computed_decode_of_decodeBits_error {s : State} {T : List Bit} {e : Err}
    (hT : demodulatePhase s.par s.cfg s.arate s.samples = .ok T) (h : decodeBits s.par T = .error e) :
    computed .decode s = .error e := by
  rw [computed, hT, ok_bind, bind_of_error h]

theorem returns_decode {s : State} {T P Q : List Bit} {L : U32} {B : List Byte} (hlegal : Legal s)
    (hT : demodulatePhase s.par s.cfg s.arate s.samples = .ok T)
    (hd : decodeBits s.par T = .ok { frame := { payload := P, remaining := Q, declared := L }, bytes := B }) :
    Returns .decode s (warned s 0x00#8) { s with bits := P, rem := Q, hlen := L, bytes := B } :=
  returns_warned_of_effect (fun _ => hlegal) rfl ⟨T, _, hT, hd, rfl⟩

/-- Settles O37: the tests of the demodulator, the parser, the caller and the packer in order, and the parts of the frame. -/
theorem decodeTestsInDataFlowOrder : Obligations.DecodeTestsInDataFlowOrder := by
  refine ⟨decode_encode .decode, fun s hlegal => ?_⟩
  have herror {e : Err} (h : computed .decode s = .error e) : Returns .decode s (warned s (statusWord false (some e))) s :=
    returns_warned_of_error (fun _ => hlegal) rfl h
  intro N T L P
  refine ⟨fun hN => herror (bind_of_error (demodulatePhase_of_degenerate hN) _),
    fun hN h => herror (bind_of_error (demodulatePhase_of_not_fits hN h) _), fun hN h => ?_⟩
  have hT : demodulatePhase s.par s.cfg s.arate s.samples = .ok T := by
    rw [demodulatePhase_of_fits hN h, carriers_eq_map hlegal]
  have hbits {e : Err} (h : decodeBits s.par T = .error e) := herror (computed_decode_of_decodeBits_error hT h)
  have hdec (hlen : 32 ≤ T.length) (h8 : L % 8 = 0) :=
    decodeBits_of_aligned (p := s.par) (L := L) hlen (bitsValue_take_header hlen) h8
  refine ⟨fun hshort => hbits (decodeBits_of_short hshort), fun hlen h8 => ?_, fun hlen h8 hpart => ?_,
    fun hlen h8 hwhole hfull => ?_, fun hlen h8 hwhole hfit => ?_⟩
  · exact hbits (decodeBits_of_unaligned hlen (bitsValue_take_header hlen) h8)
  · exact hbits (e := .invalidLength) (by rw [hdec hlen h8, packPhase_of_partial hpart, Except.map])
  · exact hbits (e := .capacity) (by rw [hdec hlen h8, packPhase_of_not_fits hwhole hfull, Except.map])
  · have hd := hdec hlen h8
    rw [packPhase_of_fits hwhole hfit, Except.map] at hd
    exact ⟨bytesOfGroups P, bytesToBits_bytesOfGroups hwhole, returns_decode hlegal hT hd⟩

/-- Settles O38: each phase of DECODE is the effect of its command, one after the other, with the caller's check between. -/
theorem decodeEqualsItsThreePhases : Obligations.DecodeEqualsItsThreePhases := by
  intro s t w h hshown h0
  obtain ⟨hlegal, rfl, u, ⟨T, d, hT, hd, rfl⟩, rfl⟩ := effect_of_success h hshown h0
  obtain ⟨hf, h8, hB⟩ := decodeBits_ok hd
  exact ⟨_, _, _, exec_of_effect (i := .demodulate) (fun _ => hlegal rfl) ⟨T, hT, rfl⟩,
    returns_of_effect (i := .parseframe) nofun rfl ⟨d.frame, hf, rfl⟩, h8,
    returns_of_effect (i := .bits2bytes) nofun rfl ⟨d.bytes, hB, rfl⟩, by simp [warns], rfl⟩

/-! ### The modem round trip (R135) -/

theorem carriers_reference : carriers Cfg.reference = refCarriers := by decide

section
variable {p : Params}

/-- The bits of a frame of whole bytes are the frame's bytes again (R74, R86). -/
theorem decodeBits_buildFrame {B : List Byte} (hlen : 8 * B.length ≤ 2 ^ 32 - 1) (h : fits B.length p.capBytes = true) :
    decodeBits p (buildFrame (bytesToBits B)) = .ok
      { frame := { payload := bytesToBits B, remaining := [], declared := BitVec.ofNat 32 (8 * B.length) }, bytes := B } := by
  have hparse := parseFrame_buildFrame (P := bytesToBits B) (by simpa using hlen)
  rw [length_bytesToBits] at hparse
  have h8 : (BitVec.ofNat 32 (8 * B.length)).toNat % 8 = 0 := by
    rw [BitVec.toNat_ofNat]
    omega
  rw [decodeBits_of_parsed hparse h8, packPhase_bytesToBits h]
  rfl

theorem modulatePhase_reference {T : List Bit} (h : fits (380 * T.length) p.capSamples = true) :
    modulatePhase p Cfg.reference T = .ok (modulateNum p.num T 19000 50 refCarriers) := by
  rw [← carriers_reference]
  exact if_pos h

/-- With the reference constants the demodulator phase finds the bits that were modulated (R120). -/
theorem demodulatePhase_reference {T : List Bit} (h : fits T.length p.capBits = true) :
    demodulatePhase p Cfg.reference 19000#32 (modulateNum p.num T 19000 50 refCarriers) = .ok T := by
  have hlen : (modulateNum p.num T 19000 50 refCarriers).length / 380 = T.length := by
    rw [length_modulateNum (by decide)]
    exact Nat.mul_div_cancel_left _ (by decide)
  have hphase := demodulatePhase_of_fits (p := p) (c := Cfg.reference) (Ra := 19000#32) (by decide) (hlen ▸ h)
  rw [carriers_reference] at hphase
  exact hphase.trans (congrArg _ (referenceDemodulationInvertsModulation p.num p.num T))

end

/-- The state that ENCODE leaves with the reference constants. -/
def encodedReference (s : State) : State :=
  { s with bits := buildFrame (bytesToBits s.bytes), arate := s.cfg.srate,
           samples := modulateNum s.par.num (buildFrame (bytesToBits s.bytes)) 19000 50 refCarriers }

section
variable {s : State} (hcfg : s.cfg = Cfg.reference) (hlegal : Legal s) (hlen : 8 * s.bytes.length ≤ 2 ^ 32 - 1)
  (hbits : fits (32 + 8 * s.bytes.length) s.par.capBits = true)
include hcfg hlegal hlen hbits

theorem returns_encode_reference (hsamples : fits (380 * (32 + 8 * s.bytes.length)) s.par.capSamples = true) :
    Returns .encode s 0x00#8 (encodedReference s) := by
  have hmod := modulatePhase_reference (p := s.par) (T := buildFrame (bytesToBits s.bytes)) (by simpa using hsamples)
  rw [← hcfg] at hmod
  exact returns_of_effect (fun _ => hlegal) rfl ⟨_, _, encodeFrame_of_fits hlen hbits, hmod, rfl⟩

/-- DECODE reads neither `BYTES` nor what the run has shown, and restores the bytes. -/
theorem exec_decode_encodedReference (hbytes : fits s.bytes.length s.par.capBytes = true) (B : List Byte)
    (shown : List Obs) : ∃ u, exec .decode { encodedReference s with bytes := B, shown := shown } = .next u ∧
      u.bytes = s.bytes ∧ u.shown = shown ++ [.status 0x00#8] := by
  have hdem : demodulatePhase s.par s.cfg s.cfg.srate (encodedReference s).samples =
      .ok (buildFrame (bytesToBits s.bytes)) := by
    rw [hcfg]
    exact demodulatePhase_reference (by simpa using hbits)
  exact ⟨_, returns_of_effect (fun _ => hlegal) (bne_self_eq_false _)
    ⟨_, _, hdem, decodeBits_buildFrame hlen hbytes, rfl⟩, rfl, rfl⟩

end

theorem length_samples_encodedReference (s : State) :
    (encodedReference s).samples.length = 380 * (32 + 8 * s.bytes.length) := by
  rw [encodedReference, length_modulateNum (by decide), length_buildFrame, length_bytesToBits]

/-- Settles O39: DECODE finds the samples that ENCODE left, and the demodulator, the parser and the packer each undo their
counterpart. -/
theorem modemRoundTripRestoresTheBytes : Obligations.ModemRoundTripRestoresTheBytes := by
  refine ⟨fun s hcfg hlegal hlen hbits hbytes hsamples => ?_, fun s h => ?_⟩
  · have hcount := length_samples_encodedReference s
    refine ⟨_, returns_encode_reference hcfg hlegal hlen hbits hsamples, rfl, hcount, fun h => ⟨?_, ?_⟩, fun h => ?_,
      fun B => exec_decode_encodedReference hcfg hlegal hlen hbits hbytes B _⟩
    · show buildFrame (bytesToBits s.bytes) = _
      rw [h]
      decide
    · simpa [h] using hcount
    · simpa [h] using hcount
  · exact returns_of_error (i := .parseframe) nofun rfl (bind_of_error (parseFrame_of_short h) _)

end Sys2Proof.Proofs
end

section
/-! SUPPORT. Proofs of the statements of spec/60_exceptions.md. A command that shows a nonzero error code has computed an error,
and its next state is the old one with the status word shown (`exec_failed`). The registers it reads are then unchanged, so the
command issued again computes the same error. -/

namespace Sys2Proof.Proofs

open Sys2Proof.Machine Sys2Proof.Safety Sys2Proof.Laws

/-! ### A failed command (R146) -/

theorem exec_failed {i : Instr} {s t : State} {w : Byte} (h : exec i s = .next t)
    (hw : t.shown = s.shown ++ [.status w]) (hfail : w.extractLsb' 0 4 ≠ 0#4) :
    ∃ e, computed i s = .error e ∧ w = statusWord (warns s i) (some e) ∧ t = s.emit (.status w) := by
  obtain ⟨e, hc, rfl⟩ | ⟨write, hc, rfl⟩ := exec_next_computed h
  · obtain rfl : statusWord (warns s i) (some e) = w := by simpa using hw
    exact ⟨e, hc, rfl, rfl⟩
  · obtain ⟨hshown, -⟩ := computed_writes hc
    obtain rfl : statusWord (warns s i) none = w := by simpa [hshown] using hw
    obtain ⟨-, -, herr⟩ := statusWord_fields (warns s i) none
    exact absurd herr hfail

/-- Settles O40: a legal word fails as its command does, and an illegal word raises its error. -/
theorem failedCommandsChangeNothing : Obligations.FailedCommandsChangeNothing := by
  intro s t c w rest hs h hw hfail
  have hissue : issueWord c { s with host := rest } = .next t := (step_cons hs).symm.trans h
  obtain ⟨i, -, hx⟩ | ⟨-, hx⟩ := issueWord_cases c { s with host := rest }
  · obtain ⟨e, -, -, ht⟩ := exec_failed (hx.symm.trans hissue) hw hfail
    exact ht
  · cases hx.symm.trans hissue
    obtain rfl : statusWord false (some .illegalCommand) = w := by simpa using hw
    rfl

/-! ### The command again (R147) -/

/-- No command reads what the run has shown (R20). -/
theorem sameInputs_emit (i : Instr) (s : State) (o : Obs) : SameInputs i s (s.emit o) := by
  refine ⟨rfl, rfl, ?_⟩
  cases i with
  | bytes2bits | encode | bits2bytes | buildframe | parseframe | modulate => rfl
  | demodulate | decode => exact ⟨rfl, rfl⟩

/-- A command issued after something was shown computes what it would have computed before. -/
theorem exec_emit {i : Instr} {s : State} (hl : needsLegal i = true → Legal s) (o : Obs) : exec i (s.emit o) =
    report (warns s i) (s.emit o) ((computed i s).map fun write => write (s.emit o)) := by
  have hsame := sameInputs_emit i s o
  rw [← computed_congr hsame, ← warns_congr hsame]
  exact exec_eq_report hl

/-- Settles O41: the failure left the inputs as they were, so the command computes the same error and warns alike. -/
theorem reissuedCommandFailsTheSameWay : Obligations.ReissuedCommandFailsTheSameWay := by
  intro i s t w h hw hfail
  obtain ⟨hl, -⟩ := exec_next h
  obtain ⟨e, hc, rfl, rfl⟩ := exec_failed h hw hfail
  rw [Returns, exec_emit hl, hc]
  rfl

/-! ### The codes of each command (R141) -/

theorem errField_mem_errorsOf {i : Instr} {e : Option Err} (h : ∀ k ∈ e, k ∈ errorsOf i) :
    (errField e).toNat ∈ 0 :: (errorsOf i).map fun k => k.code.toNat := by
  cases e with
  | none => exact List.mem_cons_self
  | some k => exact List.mem_cons_of_mem _ (List.mem_map_of_mem (h k rfl))

/-- Settles O43: the codes listed for each command are those of `errorsOf`, and 0 for success. -/
theorem eachCommandReportsOnlyItsErrors : Obligations.EachCommandReportsOnlyItsErrors := by
  intro i s t w h hw
  obtain ⟨e, he, hshown⟩ := exec_status h
  obtain rfl : statusWord (warns s i) e = w := by simpa [hshown] using hw
  obtain ⟨-, -, herr⟩ := statusWord_fields (warns s i) e
  have hmem := errField_mem_errorsOf he
  rw [herr]
  cases i with
  | bytes2bits | bits2bytes | buildframe | parseframe | modulate | demodulate | encode | decode => exact hmem

end Sys2Proof.Proofs
end

section
/-! SUPPORT. Proofs of the statements of spec/70_reset_and_hazards.md. A reset parameter that gives each component of a
configuration latches that configuration when it is legal and nothing when it is not (`resetCfg_of_components`); the step with a
reset in front is read off it. -/

namespace Sys2Proof.Proofs

open Sys2Proof.Machine Sys2Proof.Safety Sys2Proof.Laws

/-! ### What a reset parameter gives (R22, R170) -/

theorem resetParam_wf_iff {r : ResetParam} {p : Params} :
    r.wf p = true ↔ r.ncar.getD 6 ≤ p.ncarMax ∧ r.car.length ≤ r.ncar.getD 6 := by
  simp [ResetParam.wf]

theorem resetCarrier_of_supplied {r : ResetParam} {j : ℕ} {f : U32} (h : r.car[j]? = some (some f)) :
    resetCarrier r j = some f := by
  simp [resetCarrier, h]

theorem resetCarrier_of_missing {r : ResetParam} {j : ℕ} (h : ∀ g, r.car[j]? ≠ some (some g)) :
    resetCarrier r j = if j < 6 then some (BitVec.ofNat 32 (1000 * (j + 1))) else none := by
  unfold resetCarrier
  split
  · rename_i f hf
    exact absurd hf (h f)
  · rfl

section
variable {p : Params} {r : ResetParam}

/-- The parameter has one candidate, which is latched exactly when it is legal (R18): legality leaves room for its table. -/
theorem resetCfg_of_components {c : Cfg} (hsrate : c.srate = r.srate.getD 19000#32)
    (hsymrate : c.symrate = r.symrate.getD 50#32) (hncar : c.ncar = r.ncar.getD 6) (hlen : r.car.length ≤ c.ncar)
    (hcar : resetCarriers r (r.ncar.getD 6) 0 = some c.car) :
    resetCfg p r = if c.legal p then some c else none := by
  obtain ⟨srate, symrate, ncar, car⟩ := c
  subst hsrate hsymrate hncar
  simp only [resetCfg, hcar]
  split
  case isTrue => rfl
  case isFalse hwf =>
    refine (if_neg fun hlegal => hwf ?_).symm
    obtain ⟨-, -, -, hmax, -⟩ := legal_iff.1 hlegal
    exact resetParam_wf_iff.2 ⟨hmax, hlen⟩

theorem resetCfg_of_not_wf (h : r.wf p ≠ true) : resetCfg p r = none := if_neg h

/-- An entry above the sixth has no default (R22). -/
theorem resetCfg_of_no_default {j : ℕ} (hj : 6 ≤ j) (hn : j < r.ncar.getD 6)
    (h : ∀ g, r.car[j]? ≠ some (some g)) : resetCfg p r = none := by
  refine Option.eq_none_iff_forall_ne_some.2 fun d hd => ?_
  obtain ⟨-, -, -, -, -, hcar⟩ := resetCfg_some hd
  have hnone : resetCarrier r (0 + j) = none := by
    rw [Nat.zero_add, resetCarrier_of_missing h, if_neg (by omega)]
  cases hcar.symm.trans (resetCarriers_eq_none hn hnone)

end

/-! ### The step with a reset in front (R170) -/

section
variable {s : State} {r : ResetParam} {rest : List HostAction}

theorem step_reset (hs : s.host = .reset r :: rest) : step s = resetEvent r { s with host := rest } :=
  step_cons hs

theorem step_reset_latched (hs : s.host = .reset r :: rest) {c : Cfg} (h : resetCfg s.par r = some c) :
    step s = .next (applyReset { s with host := rest } c) := by
  rw [step_reset hs, resetEvent, h]

theorem step_reset_refused (hs : s.host = .reset r :: rest) (h : resetCfg s.par r = none) :
    step s = .refused .illegalConfiguration := by
  rw [step_reset hs, resetEvent, h]

end

/-- Settles O11: the configuration is the parameter's one candidate, and each refused parameter has none that is legal. -/
theorem resetEventLatchesTheConfiguration : Obligations.ResetEventLatchesTheConfiguration := by
  refine ⟨fun s r rest c hs hsrate hsymrate hncar hlen hcarlen hcar => ?_, fun s r rest hs hmax => ?_,
    fun s r rest hs hbad => ?_⟩
  · have hcars : resetCarriers r (r.ncar.getD 6) 0 = some c.car := by
      refine resetCarriers_eq_some (hcarlen.trans hncar) fun j f hf => ?_
      rw [Nat.zero_add]
      obtain hsupplied | ⟨hmissing, hj, rfl⟩ := hcar j f hf
      · exact resetCarrier_of_supplied hsupplied
      · rw [resetCarrier_of_missing hmissing, if_pos hj]
    have hcfg := resetCfg_of_components (p := s.par) hsrate hsymrate hncar hlen hcars
    split
    case isTrue hlegal => exact step_reset_latched hs (hcfg.trans (if_pos hlegal))
    case isFalse hillegal => exact step_reset_refused hs (hcfg.trans (if_neg hillegal))
  · refine step_reset_refused hs (resetCfg_of_not_wf fun hwf => ?_)
    obtain ⟨hle, -⟩ := resetParam_wf_iff.1 hwf
    exact absurd hmax (Nat.not_lt.2 hle)
  · obtain hsurplus | ⟨j, hj, hn, hmissing⟩ := hbad
    · refine step_reset_refused hs (resetCfg_of_not_wf fun hwf => ?_)
      obtain ⟨-, hle⟩ := resetParam_wf_iff.1 hwf
      exact absurd hsurplus (Nat.not_lt.2 hle)
    · exact step_reset_refused hs (resetCfg_of_no_default hj hn hmissing)

/-! ### No action left (R171) -/

/-- Settles O5: a step is idle or there is an action in front of the host's list. -/
theorem idleWithoutAHostAction : Obligations.IdleWithoutAHostAction := by
  intro s h
  obtain hidle | ⟨a, rest, hs, -⟩ := step_cases s
  · exact hidle
  · cases h.symm.trans hs

/-! ### BUILDFRAME twice (R175) -/

/-- Settles O20: the second BUILDFRAME finds the frame of the first in `BITS` and takes it for a payload. -/
theorem secondBuildFrameFramesTheFrame : Obligations.SecondBuildFrameFramesTheFrame := by
  intro s hlen h
  have hframe : (buildFrame s.bits).length = 32 + s.bits.length := length_buildFrame s.bits
  refine ⟨_, _, returns_buildframe (by omega) (fits_mono (by omega) h),
    returns_buildframe (hframe.trans_le hlen) (fits_mono (Nat.le_of_eq ?_) h), ?_, List.append_assoc ..⟩
  · change 32 + (buildFrame s.bits).length = 64 + s.bits.length
    omega
  · change hdr (buildFrame s.bits).length ++ buildFrame s.bits = _
    rw [hframe, buildFrame]

end Sys2Proof.Proofs
end
